-- ==== Sys2Proof/Word.lean ====
section
/-! DEFINITION. The widths of the block's values (spec/00_scope.md R4, R5). Every value is an
unsigned number of a stated width; nothing here is signed. -/

namespace Sys2Proof

/-- A character code of OUT, a byte of WAV memory, a channel of a pixel (R4, R24, R42, R43). -/
abbrev Byte := BitVec 8

/-- A monochrome sample: SAMPLE_W = 8 bits, unsigned (R41, D6). Log entry 13. -/
abbrev Sample := BitVec 8

/-- A 16-bit value: a dimension, a WAV field of two bytes, the element HF.write takes (R4). -/
abbrev Half := BitVec 16

/-- The 24-bit immediate of a command word (R60). -/
abbrev Imm := BitVec 24

/-- A command word, a response, a 32-bit register (R4, R25, R60). -/
abbrev Word := BitVec 32

/-- The four-bit register index of format P (R60, R61). -/
abbrev RegIndex := BitVec 4

end Sys2Proof
end

