-- ==== Sys2Proof/Syntax.lean ====
section
/-! DEFINITION. The eight commands of spec/opcode_table.json (spec/30_encoding.md R62), one
constructor per row. -/

namespace Sys2Proof

/-- A command of the block. -/
inductive Instr where
  /-- SETP, R80: write parameter register `p`. -/
  | setp (p : RegIndex) (imm : Imm)
  /-- GETP, R81: append register `p` to RSP. -/
  | getp (p : RegIndex)
  /-- FMT.OPEN, R91. -/
  | fmtOpen
  /-- FMT.WRITE, R94. -/
  | fmtWrite (val : Half)
  /-- BP.RUN, R111. -/
  | bpRun
  /-- CQ.RUN, R131. -/
  | cqRun
  /-- AR.HDR, R146. -/
  | arHdr
  /-- AR.RUN, R151. -/
  | arRun
  deriving DecidableEq, Repr

end Sys2Proof
end

