-- ==== Sys2Proof/WellFormed.lean ====
section
/-! DEFINITION. The conditions of the opcode table on a command's fields (spec/30_encoding.md
R62, R65). Field widths are in the types of Syntax.lean. -/

namespace Sys2Proof

/-- SETP reaches registers 0 to 11, GETP registers 0 to 14; no other row has a condition. -/
def Instr.wellFormed : Instr → Bool
  | .setp p _ => decide (p.toNat ≤ 11)
  | .getp p => decide (p.toNat ≤ 14)
  | .fmtOpen => true
  | .fmtWrite _ => true
  | .bpRun => true
  | .cqRun => true
  | .arHdr => true
  | .arRun => true

end Sys2Proof
end

