-- ==== Sys2Proof/Decode.lean ====
section
/-! DEFINITION. Decoding and encoding of command words (spec/30_encoding.md R60 to R65). Command
words are 32-bit values without a byte order (spec/20_memory.md R45), so decoding starts from a
word and not from bytes. -/

namespace Sys2Proof

/-- The rows of the opcode map (R62). -/
inductive Row where
  | setp | getp | fmtOpen | fmtWrite | bpRun | cqRun | arHdr | arRun
  deriving DecidableEq, Repr

/-- Why a word is illegal: the lines of R65's list. -/
inductive DecodeError where
  /-- Group 0 or groups 7 to 15. -/
  | unassignedGroup
  /-- Group 1 with `p >= 12`. -/
  | setpIndex
  /-- Group 2 with `p = 15`. -/
  | getpIndex
  /-- Group 2 with a non-zero immediate. -/
  | getpImmediate
  /-- Group 3 with `sub >= 2`. -/
  | formatterSub
  /-- `op = 0x30` with a non-zero immediate. -/
  | fmtOpenImmediate
  /-- `op = 0x31` with a non-zero `imm[23:16]`. -/
  | fmtWriteImmediate
  /-- Group 4 or 5 with `sub != 0`. -/
  | imageSub
  /-- Group 4 or 5 with a non-zero immediate. -/
  | imageImmediate
  /-- Group 6 with `sub >= 2`. -/
  | audioSub
  /-- Group 6 with a non-zero immediate. -/
  | audioImmediate
  deriving DecidableEq, Repr

/-- `grp`, word bits 31:28 (R60). -/
def wordGroup (w : Word) : BitVec 4 := w.extractLsb' 28 4

/-- `sub`, or the register index `p` of format P, word bits 27:24 (R60). -/
def wordSub (w : Word) : RegIndex := w.extractLsb' 24 4

/-- `imm`, word bits 23:0 (R60). -/
def wordImm (w : Word) : Imm := w.extractLsb' 0 24

/-- `val`, word bits 15:0 (R60). -/
def wordVal (w : Word) : Half := w.extractLsb' 0 16

/-- The `mask` column of R62. -/
def rowMask : Row → Word
  | .setp => 0xF0000000
  | .getp => 0xF0FFFFFF
  | .fmtOpen => 0xFFFFFFFF
  | .fmtWrite => 0xFFFF0000
  | .bpRun => 0xFFFFFFFF
  | .cqRun => 0xFFFFFFFF
  | .arHdr => 0xFFFFFFFF
  | .arRun => 0xFFFFFFFF

/-- The `match` column of R62. -/
def rowValue : Row → Word
  | .setp => 0x10000000
  | .getp => 0x20000000
  | .fmtOpen => 0x30000000
  | .fmtWrite => 0x31000000
  | .bpRun => 0x40000000
  | .cqRun => 0x50000000
  | .arHdr => 0x60000000
  | .arRun => 0x61000000

/-- The command a row spells, with its fields (R62). -/
def rowInstr (r : Row) (w : Word) : Instr :=
  match r with
  | .setp => .setp (wordSub w) (wordImm w)
  | .getp => .getp (wordSub w)
  | .fmtOpen => .fmtOpen
  | .fmtWrite => .fmtWrite (wordVal w)
  | .bpRun => .bpRun
  | .cqRun => .cqRun
  | .arHdr => .arHdr
  | .arRun => .arRun

/-- A word matches a row's mask and meets its condition (R62). -/
def rowAccepts (r : Row) (w : Word) : Bool :=
  decide (w &&& rowMask r = rowValue r) && (rowInstr r w).wellFormed

/-- The rows in the order of R62. -/
def rowTable : List Row :=
  [.setp, .getp, .fmtOpen, .fmtWrite, .bpRun, .cqRun, .arHdr, .arRun]

/-- The line of R65's list that an illegal word falls under. -/
def illegalReason (w : Word) : DecodeError :=
  let grp := (wordGroup w).toNat
  let sub := (wordSub w).toNat
  if grp = 1 then .setpIndex
  else if grp = 2 then (if sub = 15 then .getpIndex else .getpImmediate)
  else if grp = 3 then
    (if 2 ≤ sub then .formatterSub else if sub = 0 then .fmtOpenImmediate else .fmtWriteImmediate)
  else if grp = 4 ∨ grp = 5 then (if sub = 0 then .imageImmediate else .imageSub)
  else if grp = 6 then (if 2 ≤ sub then .audioSub else .audioImmediate)
  else .unassignedGroup

/-- R64: the first row whose mask matches and whose condition holds gives the command; a word no
row takes is illegal. -/
def decode (w : Word) : Except DecodeError Instr :=
  match rowTable.find? (fun r => rowAccepts r w) with
  | some r => .ok (rowInstr r w)
  | none => .error (illegalReason w)

/-- The row of a command (R62). -/
def rowOf : Instr → Row
  | .setp _ _ => .setp
  | .getp _ => .getp
  | .fmtOpen => .fmtOpen
  | .fmtWrite _ => .fmtWrite
  | .bpRun => .bpRun
  | .cqRun => .cqRun
  | .arHdr => .arHdr
  | .arRun => .arRun

/-- The word of a command, from the formats of R60 and the `match` column of R62. -/
def encode : Instr → Word
  | .setp p imm => 0x10000000 ||| (p.setWidth 32 <<< 24) ||| imm.setWidth 32
  | .getp p => 0x20000000 ||| (p.setWidth 32 <<< 24)
  | .fmtOpen => 0x30000000
  | .fmtWrite val => 0x31000000 ||| val.setWidth 32
  | .bpRun => 0x40000000
  | .cqRun => 0x50000000
  | .arHdr => 0x60000000
  | .arRun => 0x61000000

/-- The command word that the low `nbits` bits of `w` spell; bits from `nbits` up are 0. -/
def tableWord (nbits w : Nat) : Word := BitVec.ofNat 32 (w % 2 ^ nbits)

/-- The instruction read from a row's bits, none where the word is illegal. -/
def decodeTableWord (nbits w : Nat) : Option Instr :=
  match decode (tableWord nbits w) with
  | .ok i => some i
  | .error _ => none

end Sys2Proof
end

