-- ==== Sys2Proof/Config.lean ====
section
/-! DEFINITION. The named parameters of the spec (spec/92_eei_decisions.md section 5,
spec/00_scope.md R4), each at the default the spec gives it. -/

namespace Sys2Proof

/-- When the space after a comma is left out (R93, D9). -/
inductive SpaceRule where
  /-- No space when the comma ends a full line: the spec's rule. -/
  | beforeWrap
  /-- The literal other reading, kept by D9 as a switch. -/
  | lastOnLine
  deriving DecidableEq, Repr

/-- Where the top bits of a partial 10-bit group stand in byte 0 (R164, D23). -/
inductive PartialGroup where
  /-- At their full-group positions: the spec's rule. -/
  | left
  /-- As the shifts so far have made them, kept by D23 as a switch. -/
  | asIs
  deriving DecidableEq, Repr

/-- What `Emit(LF)` appends (D7). -/
inductive Newline where
  /-- One LF: the spec's rule. -/
  | lf
  /-- CR LF, kept by D7 as a switch. -/
  | crLf
  deriving DecidableEq, Repr

/-- SPACE_RULE, default `beforeWrap` (D9). Log entry 10. -/
def Config.spaceRule : SpaceRule := .beforeWrap

/-- PARTIAL_GROUP, default `left` (D23). Log entry 11. -/
def Config.partialGroup : PartialGroup := .left

/-- NEWLINE, default LF (D7). Log entry 12. -/
def Config.newline : Newline := .lf

/-- Hex digits of an 8-bit cell: BP and AR pass 2 (R4, R90). -/
def Config.digitsOfByteCell : BitVec 3 := 2

/-- Hex digits of a 16-bit cell: CQ passes 4 (R4, R90). -/
def Config.digitsOfHalfCell : BitVec 3 := 4

end Sys2Proof
end

