-- ==== Sys2Proof/Machine/State.lean ====
section
/-! DEFINITION. The state of the block (spec/10_state.md R10) with the inputs of a launch
(spec/20_memory.md R40), the reasons a step stops, and the state after reset (R26). -/

namespace Sys2Proof.Machine

/-- The twelve host-writable parameter registers (R12). -/
inductive ParamReg where
  | imgW | imgH | fmtCols | fmtDigits | fmtTotal | audChannels
  | audBits | audFrame | audNsamp | audDataoff | audMode | audRate
  deriving DecidableEq, Repr

/-- Their contents; `none` is the mark `unwritten`, which is the spec's own state of a register
(R13), not a missing reset value. Log entry 14. -/
structure Params where
  imgW : Option (BitVec 16)
  imgH : Option (BitVec 16)
  fmtCols : Option (BitVec 16)
  fmtDigits : Option (BitVec 3)
  fmtTotal : Option (BitVec 32)
  audChannels : Option (BitVec 16)
  audBits : Option (BitVec 16)
  audFrame : Option (BitVec 16)
  audNsamp : Option (BitVec 32)
  audDataoff : Option (BitVec 32)
  audMode : Option (BitVec 4)
  audRate : Option (BitVec 32)
  deriving DecidableEq, Repr

/-- HF.STATE (R20). -/
inductive HfState where
  /-- IDLE: no array literal is being written. -/
  | idle
  /-- OPEN: HF.open has run and fewer than HF.TOTAL elements were written. -/
  | opened
  deriving DecidableEq, Repr

/-- The registers of HF (R20). -/
structure Formatter where
  state : HfState
  total : BitVec 32
  count : BitVec 32
  cols : BitVec 16
  col : BitVec 16
  digits : BitVec 3
  deriving DecidableEq, Repr

/-- The registers of BP (R21). -/
structure Packer where
  x : BitVec 16
  y : BitVec 16
  acc : BitVec 8
  nb : BitVec 4
  deriving DecidableEq, Repr

/-- The registers of CQ (R22). -/
structure Quantizer where
  x : BitVec 16
  y : BitVec 16
  deriving DecidableEq, Repr

/-- AR.G[0..4], the five bytes that carry four 10-bit samples (R23). -/
structure Group where
  g0 : BitVec 8
  g1 : BitVec 8
  g2 : BitVec 8
  g3 : BitVec 8
  g4 : BitVec 8
  deriving DecidableEq, Repr

/-- The registers of AR (R23). -/
structure Reducer where
  i : BitVec 32
  c : BitVec 16
  sum : BitVec 32
  g : Group
  k : BitVec 3
  deriving DecidableEq, Repr

/-- The coordinate of a pixel: column `x`, row `y` (R40). -/
structure Coord where
  x : Nat
  y : Nat
  deriving DecidableEq, Repr

/-- A pixel memory: the width and height the decoder reported and the samples it delivered
(R41, R42). Log entry 8. -/
structure PixMem (α : Type) where
  w : Nat
  h : Nat
  cells : List (Coord × α)
  deriving DecidableEq, Repr

/-- A colour sample (R42). -/
structure Rgb where
  r : BitVec 8
  g : BitVec 8
  b : BitVec 8
  deriving DecidableEq, Repr

/-- WAV memory: WAVLEN and the bytes that differ from `Memory.unlisted` (R43). Log entry 9. -/
structure Memory where
  len : BitVec 32
  cells : List Host.Cell
  deriving DecidableEq, Repr

/-- The state of the block, R10, followed by the four inputs of the launch (log entry 4). -/
structure State where
  cp : Nat
  p : Params
  fault : Bool
  fmtOpen : Bool
  cqUsed : Bool
  cause : BitVec 8
  finfo : BitVec 32
  fcmd : BitVec 32
  hf : Formatter
  bp : Packer
  cq : Quantizer
  ar : Reducer
  out : List (BitVec 8)
  rsp : List (BitVec 32)
  cmd : List (BitVec 32)
  pixm : PixMem (BitVec 8)
  pixc : PixMem Rgb
  wav : Memory
  deriving DecidableEq, Repr

/-- The eleven synchronous faults of the spec (R180). Raising one is not a stop of the model: the
command takes fault entry (R192) and answers a next state. -/
inductive Cause where
  | illegalCommand | cfgRange | unconfigured | fmtState | valueRange | zeroCount
  | countOverflow | formatError | unsupportedDepth | divideByZero | srcBounds
  deriving DecidableEq, Repr

/-- A raised fault `F(info)` (00_scope.md section 6). -/
structure Exc where
  cause : Cause
  info : BitVec 32
  deriving DecidableEq, Repr

/-- A read or a check: a value, or the fault it raises. -/
abbrev Checked (α : Type) := Except Exc α

/-- How the body of a command ends: completed, or a fault raised in the state reached so far. What
was written before a `raise` stays (R192). -/
inductive Result where
  | done (s : State)
  | raised (e : Exc) (s : State)
  deriving DecidableEq, Repr

/-- Why the machine takes no step. -/
inductive Fault where
  /-- Raised by `step` alone: STATUS.FAULT = 1, so the block takes no step until reset (R28,
  R193). Safe: the spec gives no step either. -/
  | halted
  /-- Raised by `step` alone: `cp` is past the last command, so the launch has ended (R28). Safe:
  the spec gives no step either. -/
  | launchEnded
  deriving DecidableEq, Repr

/-- Why the model has no answer. -/
inductive Refusal where
  /-- Raised by an arm of `exec` whose command has no meaning yet; no arm does. Safe: nothing can
  be proved of such a command. -/
  | notModelled (mnemonic : String)
  deriving DecidableEq, Repr

/-- The parameter registers after reset: all `unwritten` but AUD_MODE, which holds 8 (R26). -/
def Params.reset : Params where
  imgW := none
  imgH := none
  fmtCols := none
  fmtDigits := none
  fmtTotal := none
  audChannels := none
  audBits := none
  audFrame := none
  audNsamp := none
  audDataoff := none
  audMode := some 8
  audRate := none

/-- HF after reset: IDLE; the other registers are unspecified in R26 and 0 here (DESIGN CHOICE,
unsafe, log entry 1). -/
def Formatter.reset : Formatter where
  state := .idle
  total := 0
  count := 0
  cols := 0
  col := 0
  digits := 0

/-- BP after reset: unspecified in R26, 0 here (DESIGN CHOICE, unsafe, log entry 2). -/
def Packer.reset : Packer where
  x := 0
  y := 0
  acc := 0
  nb := 0

/-- CQ after reset: unspecified in R26, 0 here (DESIGN CHOICE, unsafe, log entry 2). -/
def Quantizer.reset : Quantizer where
  x := 0
  y := 0

/-- The cleared group (R151, R163). -/
def Group.zero : Group where
  g0 := 0
  g1 := 0
  g2 := 0
  g3 := 0
  g4 := 0

/-- AR after reset: unspecified in R26, 0 here (DESIGN CHOICE, unsafe, log entry 2). -/
def Reducer.reset : Reducer where
  i := 0
  c := 0
  sum := 0
  g := Group.zero
  k := 0

/-- A pixel memory that is defined nowhere (R41, R42). -/
def PixMem.empty {α : Type} : PixMem α where
  w := 0
  h := 0
  cells := []

/-- A WAV memory of no bytes. -/
def Memory.empty : Memory where
  len := 0
  cells := []

/-- The block right after reset (R26), before the host has supplied any input (log entry 4). -/
def State.reset : State where
  cp := 0
  p := Params.reset
  fault := false
  fmtOpen := false
  cqUsed := false
  cause := 0
  finfo := 0
  fcmd := 0
  hf := Formatter.reset
  bp := Packer.reset
  cq := Quantizer.reset
  ar := Reducer.reset
  out := []
  rsp := []
  cmd := []
  pixm := PixMem.empty
  pixc := PixMem.empty
  wav := Memory.empty

end Sys2Proof.Machine
end

