-- ==== Sys2Proof/Machine/Flags.lean ====
section
/-! DEFINITION. The STATUS flags (spec/10_state.md R15 to R18). -/

namespace Sys2Proof.Machine

/-- `STATUS = FAULT | (FMTOPEN << 1) | (CQUSED << 2)` (R15). -/
def State.status (s : State) : BitVec 3 :=
  BitVec.setWidth 3 (BitVec.ofBool s.fault)
    ||| (BitVec.setWidth 3 (BitVec.ofBool s.fmtOpen) <<< 1)
    ||| (BitVec.setWidth 3 (BitVec.ofBool s.cqUsed) <<< 2)

/-- `STATUS.FMTOPEN <- b` (R18). -/
def State.setFmtOpen (s : State) (b : Bool) : State := { s with fmtOpen := b }

/-- `STATUS.CQUSED <- b` (R17). -/
def State.setCqUsed (s : State) (b : Bool) : State := { s with cqUsed := b }

end Sys2Proof.Machine
end

