-- ==== Sys2Proof/Machine/Ops.lean ====
section
/-! DEFINITION. The named operations over registers, memories and streams, fault entry and what
follows it, and the loop of the pseudocode. -/

namespace Sys2Proof.Machine

/-! ### Arithmetic (spec/00_scope.md section 6) -/

/-- `ceil_div(a, b)`. -/
def ceilDiv (a b : Nat) : Nat := (a + b - 1) / b

/-! ### Register updates -/

/-- Write the parameter registers. -/
def State.setParams (s : State) (p : Params) : State := { s with p := p }

/-- Write the registers of HF. -/
def State.setHf (s : State) (h : Formatter) : State := { s with hf := h }

/-- Write the registers of BP. -/
def State.setBp (s : State) (b : Packer) : State := { s with bp := b }

/-- Write the registers of CQ. -/
def State.setCq (s : State) (q : Quantizer) : State := { s with cq := q }

/-- Write the registers of AR. -/
def State.setAr (s : State) (a : Reducer) : State := { s with ar := a }

/-! ### Streams (spec/10_state.md R24, R25) -/

/-- `Emit`: append characters to OUT. -/
def State.emit (s : State) (cs : List Byte) : State := { s with out := s.out ++ cs }

/-- `Rsp(v)`: append one value to RSP. -/
def State.respond (s : State) (v : Word) : State := { s with rsp := s.rsp ++ [v] }

/-! ### Command sequence (R11, R28, R50) -/

/-- `CMD[cp]`, none past the end of CMD. -/
def State.fetch (s : State) : Option Word := s.cmd[s.cp]?

/-- `CMD[cp]` as fault entry records it; past the end of CMD, where no command executes, 0
(DESIGN CHOICE, log entry 7). -/
def State.currentWord (s : State) : Word := s.fetch.getD 0

/-- `cp <- cp + 1` (R11). -/
def State.advance (s : State) : State := { s with cp := s.cp + 1 }

/-! ### Faults (spec/60_exceptions.md) -/

/-- The code of a cause (R180). -/
def causeCode : Cause → BitVec 8
  | .illegalCommand => 1
  | .cfgRange => 2
  | .unconfigured => 3
  | .fmtState => 4
  | .valueRange => 5
  | .zeroCount => 6
  | .countOverflow => 7
  | .formatError => 8
  | .unsupportedDepth => 9
  | .divideByZero => 10
  | .srcBounds => 11

/-- The index of a parameter register (R12). -/
def paramIndex : ParamReg → RegIndex
  | .imgW => 0
  | .imgH => 1
  | .fmtCols => 2
  | .fmtDigits => 3
  | .fmtTotal => 4
  | .audChannels => 5
  | .audBits => 6
  | .audFrame => 7
  | .audNsamp => 8
  | .audDataoff => 9
  | .audMode => 10
  | .audRate => 11

/-- `IllegalCommand(w)` (R181). -/
def illegalCommand (w : Word) : Exc := ⟨.illegalCommand, w⟩

/-- `CfgRange(p)` (R182). -/
def cfgRange (p : ParamReg) : Exc := ⟨.cfgRange, (paramIndex p).setWidth 32⟩

/-- `Unconfigured(p)` (R183). -/
def unconfigured (p : ParamReg) : Exc := ⟨.unconfigured, (paramIndex p).setWidth 32⟩

/-- `FmtState(0)` (R184). -/
def fmtStateFault : Exc := ⟨.fmtState, 0⟩

/-- `ValueRange(v)` (R185). -/
def valueRange (v : Half) : Exc := ⟨.valueRange, v.setWidth 32⟩

/-- `ZeroCount(0)` (R186). -/
def zeroCount : Exc := ⟨.zeroCount, 0⟩

/-- `CountOverflow(0)` (R187). -/
def countOverflow : Exc := ⟨.countOverflow, 0⟩

/-- `FormatError(0)` (R188). -/
def formatError : Exc := ⟨.formatError, 0⟩

/-- `UnsupportedDepth(bits)` (R189). -/
def unsupportedDepth (bits : Half) : Exc := ⟨.unsupportedDepth, bits.setWidth 32⟩

/-- `DivideByZero(index)`, the index being that of the zero register (R190). -/
def divideByZero (p : ParamReg) : Exc := ⟨.divideByZero, (paramIndex p).setWidth 32⟩

/-- `SrcBounds((y << 16) | x)` (R191). -/
def srcBoundsPix (x y : Nat) : Exc := ⟨.srcBounds, BitVec.ofNat 32 ((y <<< 16) ||| x)⟩

/-- `SrcBounds(trunc_32(addr))` (R191). -/
def srcBoundsWav (addr : Nat) : Exc := ⟨.srcBounds, BitVec.ofNat 32 addr⟩

/-- Fault entry (R192): CAUSE, FINFO, FCMD and FAULT are written, `cp` is not advanced, nothing
else changes. -/
def State.takeFault (s : State) (e : Exc) : State :=
  { s with cause := causeCode e.cause, finfo := e.info, fcmd := s.currentWord, fault := true }

/-- What the host's reset does in any state (R200): there is no return from a fault (R193), reset
is the only way out of one. The launch inputs are not state (R26, R202) and stay; log entry 5. -/
def State.hostReset (s : State) : State :=
  { State.reset with cmd := s.cmd, pixm := s.pixm, pixc := s.pixc, wav := s.wav }

/-- The host fixes the inputs of the next launch (R202). -/
def State.load (s : State) (cmd : List Word) (pixm : PixMem Sample) (pixc : PixMem Rgb)
    (wav : Memory) : State :=
  { s with cmd := cmd, pixm := pixm, pixc := pixc, wav := wav }

/-! ### How a command ends -/

/-- Run `k` after a body that completed; a raise ends the command at that point. -/
def Result.andThen (r : Result) (k : State → Result) : Result :=
  match r with
  | .done s => k s
  | .raised e s => .raised e s

/-- A completed command advances `cp`; a raised fault takes fault entry (R11, R28, R192). -/
def Result.outcome : Result → Host.Outcome State Fault Refusal
  | .done s => .next s.advance
  | .raised e s => .next (s.takeFault e)

/-- A command whose up-front reads and checks `c` all come before its body `k`. -/
def runChecked {α : Type} (c : Checked α) (k : α → State → Result) (s : State) :
    Host.Outcome State Fault Refusal :=
  match c with
  | .error e => (Result.raised e s).outcome
  | .ok a => (k a s).outcome

/-- `require cond else raise e`. -/
def check (ok : Bool) (e : Exc) : Checked Unit :=
  if ok then .ok () else .error e

/-- `for i in a..a+n-1` (00_scope.md section 6): the body at increasing `i`, `n` times. -/
def forRange (body : Nat → State → Result) : (n a : Nat) → State → Result
  | 0, _, s => .done s
  | n + 1, a, s => (body a s).andThen (forRange body n (a + 1))

/-! ### Pixel memories (spec/20_memory.md R41, R42) -/

/-- The sample at (x, y): none outside the reported rectangle or where the decoder delivered
none. -/
def PixMem.at? {α : Type} (m : PixMem α) (x y : Nat) : Option α :=
  if x < m.w ∧ y < m.h then m.cells.lookup ⟨x, y⟩ else none

/-- The coordinates of a `w` by `h` grid, top row first, each row from `x = 0`. -/
def gridCoords (w h : Nat) : List Coord :=
  (List.range h).flatMap fun y => (List.range w).map fun x => ⟨x, y⟩

/-- The one form of a pixel memory: exactly the coordinates of its rectangle are listed, in the
order of `gridCoords`. -/
def PixMem.wf {α : Type} (m : PixMem α) : Bool :=
  decide (m.cells.map Prod.fst = gridCoords m.w m.h)

/-- The pixel memory of a grid given by rows, as a decoder delivers it. -/
def PixMem.ofGrid {α : Type} (w h : Nat) (f : Nat → Nat → α) : PixMem α where
  w := w
  h := h
  cells := (gridCoords w h).map fun c => (c, f c.x c.y)

/-- `PixM(x, y)` (R41). -/
def State.pixM (s : State) (x y : Nat) : Checked Sample :=
  match s.pixm.at? x y with
  | some v => .ok v
  | none => .error (srcBoundsPix x y)

/-- `PixC(x, y)` (R42). -/
def State.pixC (s : State) (x y : Nat) : Checked Rgb :=
  match s.pixc.at? x y with
  | some v => .ok v
  | none => .error (srcBoundsPix x y)

/-! ### WAV memory (R43 to R46) -/

/-- What an address below WAVLEN that is not listed holds. Log entry 9. -/
def Memory.unlisted : Byte := 0

/-- The byte at an address below WAVLEN. -/
def Memory.byteAt (m : Memory) (a : Nat) : Byte := (m.cells.lookup a).getD Memory.unlisted

/-- `WAV[a]`, none where WAV has no such byte. -/
def Memory.byte? (m : Memory) (a : Nat) : Option Byte :=
  if a < m.len.toNat then some (m.byteAt a) else none

/-- The `n` bytes from `addr` on, least significant first, as one number (R44, R45). -/
def Memory.assemble (m : Memory) : (addr n : Nat) → Nat
  | _, 0 => 0
  | addr, n + 1 => (m.byteAt addr).toNat + 256 * Memory.assemble m (addr + 1) n

/-- `MemRead(addr, n)` (R44). The address is a natural number and does not wrap; no alignment is
asked (R46). -/
def Memory.memRead (m : Memory) (addr n : Nat) : Checked Nat :=
  if m.len.toNat < addr + n then .error (srcBoundsWav addr) else .ok (m.assemble addr n)

/-- The one form of a WAV memory: addresses strictly rising and below WAVLEN, no listed byte equal
to what an unlisted address holds. -/
def Memory.wf (m : Memory) : Bool :=
  decide ((m.cells.map Prod.fst).Pairwise (· < ·)) &&
    m.cells.all fun c => decide (c.1 < m.len.toNat) && decide (c.2 ≠ Memory.unlisted)

/-- Set one byte in a list of cells, keeping its form. -/
def cellsWrite (a : Nat) (b : Byte) : List Host.Cell → List Host.Cell
  | [] => if b = Memory.unlisted then [] else [(a, b)]
  | (k, v) :: t =>
    if a < k then (if b = Memory.unlisted then (k, v) :: t else (a, b) :: (k, v) :: t)
    else if a = k then (if b = Memory.unlisted then t else (a, b) :: t)
    else (k, v) :: cellsWrite a b t

/-- The host's write of one byte while it loads WAV (R202); the block itself writes no memory
(R47). Nothing happens at an address WAV does not have. -/
def Memory.write (m : Memory) (a : Nat) (b : Byte) : Memory :=
  if a < m.len.toNat then { m with cells := cellsWrite a b m.cells } else m

/-- The cells of a sequence of bytes that starts at address `a`. -/
def cellsOfBytes : (a : Nat) → List Byte → List Host.Cell
  | _, [] => []
  | a, b :: t => if b = Memory.unlisted then cellsOfBytes (a + 1) t else (a, b) :: cellsOfBytes (a + 1) t

/-- The WAV memory that holds all bytes of a file of fewer than 2^32 bytes (R43, R203). -/
def Memory.ofBytes (bs : List Byte) : Memory where
  len := BitVec.ofNat 32 bs.length
  cells := cellsOfBytes 0 bs

end Sys2Proof.Machine
end

