-- ==== Sys2Proof/Machine/Operands.lean ====
section
/-! DEFINITION. The operand forms: reads `P[i]` and writes `P[i] <- v` of the parameter registers
(spec/10_state.md R12, R13), the read-only registers (R14), and SETP's legal values
(spec/40_parameter_access.md R80). -/

namespace Sys2Proof.Machine

/-- A read of a register: its value, or Unconfigured if nothing has written it (R13, R183). -/
def needReg {w : Nat} (r : ParamReg) (v : Option (BitVec w)) : Checked (BitVec w) :=
  match v with
  | some x => .ok x
  | none => .error (unconfigured r)

/-- `P[0]`. -/
def rdImgW (s : State) : Checked (BitVec 16) := needReg .imgW s.p.imgW
/-- `P[1]`. -/
def rdImgH (s : State) : Checked (BitVec 16) := needReg .imgH s.p.imgH
/-- `P[2]`. -/
def rdFmtCols (s : State) : Checked (BitVec 16) := needReg .fmtCols s.p.fmtCols
/-- `P[3]`. -/
def rdFmtDigits (s : State) : Checked (BitVec 3) := needReg .fmtDigits s.p.fmtDigits
/-- `P[4]`. -/
def rdFmtTotal (s : State) : Checked (BitVec 32) := needReg .fmtTotal s.p.fmtTotal
/-- `P[5]`. -/
def rdAudChannels (s : State) : Checked (BitVec 16) := needReg .audChannels s.p.audChannels
/-- `P[6]`. -/
def rdAudBits (s : State) : Checked (BitVec 16) := needReg .audBits s.p.audBits
/-- `P[7]`. -/
def rdAudFrame (s : State) : Checked (BitVec 16) := needReg .audFrame s.p.audFrame
/-- `P[8]`. -/
def rdAudNsamp (s : State) : Checked (BitVec 32) := needReg .audNsamp s.p.audNsamp
/-- `P[9]`. -/
def rdAudDataoff (s : State) : Checked (BitVec 32) := needReg .audDataoff s.p.audDataoff
/-- `P[10]`. -/
def rdAudMode (s : State) : Checked (BitVec 4) := needReg .audMode s.p.audMode
/-- `P[11]`. -/
def rdAudRate (s : State) : Checked (BitVec 32) := needReg .audRate s.p.audRate

/-- `P[r]` widened to 32 bits, for GETP (R81). -/
def rdParam (s : State) : ParamReg → Checked Word
  | .imgW => (rdImgW s).map (BitVec.setWidth 32)
  | .imgH => (rdImgH s).map (BitVec.setWidth 32)
  | .fmtCols => (rdFmtCols s).map (BitVec.setWidth 32)
  | .fmtDigits => (rdFmtDigits s).map (BitVec.setWidth 32)
  | .fmtTotal => rdFmtTotal s
  | .audChannels => (rdAudChannels s).map (BitVec.setWidth 32)
  | .audBits => (rdAudBits s).map (BitVec.setWidth 32)
  | .audFrame => (rdAudFrame s).map (BitVec.setWidth 32)
  | .audNsamp => rdAudNsamp s
  | .audDataoff => rdAudDataoff s
  | .audMode => (rdAudMode s).map (BitVec.setWidth 32)
  | .audRate => rdAudRate s

/-- `P[r] <- v`: the register holds the low bits of `v` and is written (R12). -/
def writeParam (p : Params) (r : ParamReg) (v : Word) : Params :=
  match r with
  | .imgW => { p with imgW := some (v.setWidth 16) }
  | .imgH => { p with imgH := some (v.setWidth 16) }
  | .fmtCols => { p with fmtCols := some (v.setWidth 16) }
  | .fmtDigits => { p with fmtDigits := some (v.setWidth 3) }
  | .fmtTotal => { p with fmtTotal := some v }
  | .audChannels => { p with audChannels := some (v.setWidth 16) }
  | .audBits => { p with audBits := some (v.setWidth 16) }
  | .audFrame => { p with audFrame := some (v.setWidth 16) }
  | .audNsamp => { p with audNsamp := some v }
  | .audDataoff => { p with audDataoff := some v }
  | .audMode => { p with audMode := some (v.setWidth 4) }
  | .audRate => { p with audRate := some v }

/-- The register an index names, none from 12 up (R12, R14). -/
def paramOfIndex (i : RegIndex) : Option ParamReg :=
  match i.toNat with
  | 0 => some .imgW
  | 1 => some .imgH
  | 2 => some .fmtCols
  | 3 => some .fmtDigits
  | 4 => some .fmtTotal
  | 5 => some .audChannels
  | 6 => some .audBits
  | 7 => some .audFrame
  | 8 => some .audNsamp
  | 9 => some .audDataoff
  | 10 => some .audMode
  | 11 => some .audRate
  | _ => none

/-- The width of a parameter register (R12). -/
def paramWidth : ParamReg → Nat
  | .imgW => 16
  | .imgH => 16
  | .fmtCols => 16
  | .fmtDigits => 3
  | .fmtTotal => 32
  | .audChannels => 16
  | .audBits => 16
  | .audFrame => 16
  | .audNsamp => 32
  | .audDataoff => 32
  | .audMode => 4
  | .audRate => 32

/-- The values SETP accepts beyond the width: FMT_COLS from 1, FMT_DIGITS 1 to 4, AUD_MODE 8 or 10
(R80). -/
def cfgValueLegal (r : ParamReg) (imm : Nat) : Bool :=
  match r with
  | .fmtCols => decide (imm ≠ 0)
  | .fmtDigits => decide (1 ≤ imm ∧ imm ≤ 4)
  | .audMode => decide (imm = 8 ∨ imm = 10)
  | _ => true

/-- The checks of SETP: the width, then the value (R80, R194). Both raise `CfgRange(p)`. -/
def cfgLegal (r : ParamReg) (imm : Imm) : Bool :=
  decide (imm.toNat < 2 ^ paramWidth r) && cfgValueLegal r imm.toNat

/-- AUD_OUTBITS (R14, R81): read from AUD_BITS, then AUD_MODE. -/
def rdAudOutbits (s : State) : Checked (BitVec 4) := do
  let bits ← rdAudBits s
  let mode ← rdAudMode s
  return if bits = 16 ∧ mode = 10 then 10 else 8

/-- The value of register index `i` for GETP (R81): a parameter register, AUD_OUTBITS, STATUS or
CAUSE. Index 15 does not decode and is refused here as `IllegalCommand(CMD[cp])` (log entry 16). -/
def rdIndex (s : State) (i : RegIndex) : Checked Word :=
  match paramOfIndex i with
  | some r => rdParam s r
  | none =>
    if i = 12 then (rdAudOutbits s).map (BitVec.setWidth 32)
    else if i = 13 then .ok (s.status.setWidth 32)
    else if i = 14 then .ok (s.cause.setWidth 32)
    else .error (illegalCommand s.currentWord)

end Sys2Proof.Machine
end

