-- ==== Sys2Proof/Machine/Formatter.lean ====
section
/-! DEFINITION. Unit HF: the procedures HF.open and HF.write, FMT.OPEN and FMT.WRITE
(spec/41_hex_array_formatter.md). The other units write every element through HF.write. -/

namespace Sys2Proof.Machine

/-! ### Characters (spec/00_scope.md section 6; the codes are ASCII, D7) -/

def chLf : Byte := 0x0A
def chCr : Byte := 0x0D
def chSpace : Byte := 0x20
def chComma : Byte := 0x2C
def chZero : Byte := 0x30
def chX : Byte := 0x78
def chBrace : Byte := 0x7D
def chSemicolon : Byte := 0x3B

/-- What `Emit(LF)` appends under NEWLINE (D7). -/
def newlineChars : Newline → List Byte
  | .lf => [chLf]
  | .crLf => [chCr, chLf]

/-- The fixed indent after a line break (R4, R93). -/
def indentChars : List Byte := [chSpace, chSpace]

/-- `h(n)`: `'0'..'9'`, then lower case `'a'..'f'` (R95). -/
def hexChar (n : BitVec 4) : Byte :=
  if n.toNat < 10 then 0x30 + n.setWidth 8 else 0x57 + n.setWidth 8

/-- `hex_d(v)`: `d` digits, most significant first (R95). -/
def hexDigits : (d : Nat) → (v : Half) → List Byte
  | 0, _ => []
  | d + 1, v => hexChar (v.extractLsb' (4 * d) 4) :: hexDigits d v

/-- The token of one element: `0x` and the digits (R93, R95). -/
def hexToken (d : Nat) (v : Half) : List Byte := chZero :: chX :: hexDigits d v

/-! ### HF.open (R92) -/

/-- `HF.open(t, c, d)`. -/
def hfOpen (t : Word) (c : Half) (d : BitVec 3) (s : State) : State :=
  (s.setHf { state := .opened, total := t, count := 0, cols := c, col := c, digits := d }).setFmtOpen
    true

/-! ### HF.write (R93) -/

/-- Whether a space follows the comma, under SPACE_RULE (R93, D9). -/
def spaceAfterComma (r : SpaceRule) (col cols : Half) : Bool :=
  match r with
  | .beforeWrap => decide (col < cols)
  | .lastOnLine => decide (col.toNat % cols.toNat ≠ cols.toNat - 1)

/-- The characters before an element: the comma and its space, then the line break and indent when
the counter has reached columnsPerLine. -/
def hfSeparator (r : SpaceRule) (nl : Newline) (h : Formatter) : List Byte :=
  (if h.count = 0 then []
    else chComma :: (if spaceAfterComma r h.col h.cols then [chSpace] else []))
  ++ (if h.col = h.cols then newlineChars nl ++ indentChars else [])

/-- The closing: `};`, the line break that ends the line and the one of the blank line (D10). -/
def hfClosing (nl : Newline) : List Byte :=
  [chBrace, chSemicolon] ++ newlineChars nl ++ newlineChars nl

/-- This write is the one that makes the declared count. -/
def hfIsLast (h : Formatter) : Bool := decide (h.count + 1 = h.total)

/-- HF after an element was written. -/
def hfNext (h : Formatter) : Formatter :=
  { h with
    col := (if h.col = h.cols then 0 else h.col) + 1
    count := h.count + 1
    state := if hfIsLast h then .idle else h.state }

/-- All characters one write appends. -/
def hfChars (r : SpaceRule) (nl : Newline) (h : Formatter) (v : Half) : List Byte :=
  hfSeparator r nl h ++ hexToken h.digits.toNat v ++ (if hfIsLast h then hfClosing nl else [])

/-- The state after a write that passed both checks. -/
def hfWritten (v : Half) (s : State) : State :=
  ((s.emit (hfChars Config.spaceRule Config.newline s.hf v)).setHf (hfNext s.hf)).setFmtOpen
    (if hfIsLast s.hf then false else s.fmtOpen)

/-- `HF.write(v)`: both faults come before the first character. -/
def hfWrite (v : Half) (s : State) : Result :=
  if s.hf.state ≠ .opened then .raised fmtStateFault s
  else if 16 ^ s.hf.digits.toNat ≤ v.toNat then .raised (valueRange v) s
  else .done (hfWritten v s)

/-- `HF.write` of each value in order. -/
def hfWriteAll : List Half → State → Result
  | [], s => .done s
  | v :: vs, s => (hfWrite v s).andThen (hfWriteAll vs)

/-- `if HF.STATE = OPEN: raise FmtState(0)`, the first check of FMT.OPEN and of the RUN commands. -/
def needIdle (s : State) : Checked Unit := check (decide (s.hf.state = .idle)) fmtStateFault

/-! ### FMT.OPEN and FMT.WRITE -/

/-- What FMT.OPEN opens with. -/
structure OpenArgs where
  total : Word
  cols : Half
  digits : BitVec 3
  deriving DecidableEq, Repr

/-- The checks and reads of FMT.OPEN, in the order of R91. -/
def fmtOpenChecks (s : State) : Checked OpenArgs := do
  needIdle s
  let t ← rdFmtTotal s
  let c ← rdFmtCols s
  let d ← rdFmtDigits s
  check (decide (t ≠ 0)) zeroCount
  return ⟨t, c, d⟩

/-- FMT.OPEN (R91). -/
def execFmtOpen (s : State) : Host.Outcome State Fault Refusal :=
  runChecked (fmtOpenChecks s) (fun q s => .done (hfOpen q.total q.cols q.digits s)) s

/-- FMT.WRITE (R94). -/
def execFmtWrite (val : Half) (s : State) : Host.Outcome State Fault Refusal :=
  (hfWrite val s).outcome

end Sys2Proof.Machine
end

