-- ==== Sys2Proof/Machine/Audio.lean ====
section
/-! DEFINITION. Unit AR: AR.HDR and AR.RUN (spec/44_audio_pcm_reducer.md). -/

namespace Sys2Proof.Machine

/-! ### AR.HDR (R146 to R150) -/

/-- The characters `RIFF` (R48). -/
def magicRiff : List Byte := [0x52, 0x49, 0x46, 0x46]

/-- The characters `WAVEfmt` and a space (R48). -/
def magicWave : List Byte := [0x57, 0x41, 0x56, 0x45, 0x66, 0x6D, 0x74, 0x20]

/-- WAV holds the given bytes from `a` on; a byte beyond WAVLEN counts as a mismatch (R147). -/
def wavMatches (m : Memory) : (a : Nat) → List Byte → Bool
  | _, [] => true
  | a, b :: t => decide (m.byte? a = some b) && wavMatches m (a + 1) t

/-- The header fields (R148). -/
structure WavHeader where
  chunkSize : Nat
  channels : Nat
  rate : Nat
  frame : Nat
  bits : Nat
  dataSize : Nat
  deriving DecidableEq, Repr

/-- The magic check, the field reads and the zero check, in the order of R146. There is no FmtState
check: R146 calls AR.HDR legal while an array is open, where R52 says that only SETP and GETP can
complete between FMT.WRITE commands (DESIGN CHOICE, log entry 23). -/
def arHdrChecks (s : State) : Checked WavHeader := do
  check (wavMatches s.wav 0 magicRiff) formatError
  check (wavMatches s.wav 8 magicWave) formatError
  let cs ← s.wav.memRead 16 4
  let ch ← s.wav.memRead 22 2
  let rate ← s.wav.memRead 24 4
  let fr ← s.wav.memRead 32 2
  let bits ← s.wav.memRead 34 2
  let ds ← s.wav.memRead (cs + 24) 4
  check (decide (fr ≠ 0)) (divideByZero .audFrame)
  return ⟨cs, ch, rate, fr, bits, ds⟩

/-- The six registers a header loads (R146, R149). -/
def loadHeader (q : WavHeader) (p : Params) : Params :=
  { p with
    audChannels := some (BitVec.ofNat 16 q.channels)
    audBits := some (BitVec.ofNat 16 q.bits)
    audFrame := some (BitVec.ofNat 16 q.frame)
    audRate := some (BitVec.ofNat 32 q.rate)
    audNsamp := some (BitVec.ofNat 32 (q.dataSize / q.frame))
    audDataoff := some (BitVec.ofNat 32 (q.chunkSize + 28)) }

/-- AR.HDR (R146): all checks and reads come before the first register write (R150). It runs while
an array is open too (DESIGN CHOICE, log entry 23) and emits nothing. -/
def execArHdr (s : State) : Host.Outcome State Fault Refusal :=
  runChecked (arHdrChecks s) (fun q s => .done (s.setParams (loadHeader q s.p))) s

/-! ### AR.RUN (R151 to R168) -/

/-- The operands of AR.RUN with the element count. -/
structure AudioArgs where
  ch : Half
  bits : Half
  frame : Half
  n : Word
  off : Word
  mode : BitVec 4
  cols : Half
  cnt : Nat
  deriving DecidableEq, Repr

/-- The 10-bit path applies: a 16-bit source with the switch at 10 (R157). -/
def arTen (bits : Half) (mode : BitVec 4) : Bool := decide (bits = 16 ∧ mode = 10)

/-- The element count (R158). -/
def arCount (ten : Bool) (n : Nat) : Nat := if ten then 5 * ceilDiv n 4 else n

/-- The checks and reads of AR.RUN, in the order of R152. -/
def arRunChecks (s : State) : Checked AudioArgs := do
  needIdle s
  let ch ← rdAudChannels s
  let bits ← rdAudBits s
  let fr ← rdAudFrame s
  let n ← rdAudNsamp s
  let off ← rdAudDataoff s
  let mode ← rdAudMode s
  let c ← rdFmtCols s
  check (decide (bits = 8 ∨ bits = 16)) (unsupportedDepth bits)
  check (decide (ch ≠ 0)) (divideByZero .audChannels)
  check (decide (arCount (arTen bits mode) n.toNat ≠ 0)) zeroCount
  check (decide (arCount (arTen bits mode) n.toNat < 2 ^ 32)) countOverflow
  return ⟨ch, bits, fr, n, off, mode, c, arCount (arTen bits mode) n.toNat⟩

/-- The raw 16-bit pattern converted to unsigned (R153). -/
def unsignedSample (r : Nat) : Nat := if 32768 ≤ r then r - 32768 else r + 32768

/-- The address of channel `c` of frame `i` (R155). -/
def arAddress (q : AudioArgs) (i c : Nat) : Nat :=
  q.off.toNat + i * q.frame.toNat + (if q.bits = 8 then c else 2 * c)

/-- The converted sample of channel `c` of frame `i` (R153 to R155). -/
def arSample (m : Memory) (q : AudioArgs) (i c : Nat) : Checked Nat :=
  if q.bits = 8 then m.memRead (arAddress q i c) 1
  else (m.memRead (arAddress q i c) 2).map unsignedSample

/-- One channel: read, convert, add to AR.SUM (R156). -/
def arChannel (q : AudioArgs) (c : Nat) (s : State) : Result :=
  let s := s.setAr { s.ar with c := BitVec.ofNat 16 c }
  match arSample s.wav q s.ar.i.toNat s.ar.c.toNat with
  | .error e => .raised e s
  | .ok u => .done (s.setAr { s.ar with sum := s.ar.sum + BitVec.ofNat 32 u })

/-- `AR.G[1 + k] <- b` for `k` from 0 to 3 (R162). -/
def groupSetLow (g : Group) (k : Nat) (b : Byte) : Group :=
  match k with
  | 0 => { g with g1 := b }
  | 1 => { g with g2 := b }
  | 2 => { g with g3 := b }
  | 3 => { g with g4 := b }
  | _ => g

/-- The five bytes in the order they are written (R163). -/
def groupBytes (g : Group) : List Half :=
  [g.g0.setWidth 16, g.g1.setWidth 16, g.g2.setWidth 16, g.g3.setWidth 16, g.g4.setWidth 16]

/-- `AR.G[0..4] <- 0 ; AR.K <- 0`. -/
def arClearGroup (s : State) : State := s.setAr { s.ar with g := Group.zero, k := 0 }

/-- Write the five bytes and clear the group (R163). -/
def arFlush (s : State) : Result :=
  (hfWriteAll (groupBytes s.ar.g) s).andThen fun s => .done (arClearGroup s)

/-- Put the 10-bit value `v` into the group (R162). -/
def arPut (v : BitVec 10) (s : State) : State :=
  let g := { s.ar.g with g0 := (s.ar.g.g0 <<< 2) ||| (v.extractLsb' 8 2).setWidth 8 }
  s.setAr
    { s.ar with g := groupSetLow g s.ar.k.toNat (v.extractLsb' 0 8), k := s.ar.k + 1 }

/-- The 10-bit path: accumulate, write the group when it is full (R161 to R163). -/
def arPush (v : BitVec 10) (s : State) : Result :=
  let s := arPut v s
  if s.ar.k = 4 then arFlush s else .done s

/-- The reduction of AR.SUM at the end of a frame (R157 to R161). -/
def arReduce (q : AudioArgs) (s : State) : Result :=
  if q.bits = 8 then hfWrite (BitVec.ofNat 16 (s.ar.sum.toNat / q.ch.toNat)) s
  else if !arTen q.bits q.mode then
    hfWrite (BitVec.ofNat 16 (s.ar.sum.toNat / (q.ch.toNat * 256))) s
  else arPush (BitVec.ofNat 10 (s.ar.sum.toNat / (q.ch.toNat * 64))) s

/-- One frame: sum the channels in file order, then reduce (R151). -/
def arFrame (q : AudioArgs) (i : Nat) (s : State) : Result :=
  (forRange (arChannel q) q.ch.toNat 0
    (s.setAr { s.ar with i := BitVec.ofNat 32 i, sum := 0 })).andThen (arReduce q)

/-- The final shift of byte 0 of a group of `k` samples, under PARTIAL_GROUP (R164, D23). -/
def partialShift (p : PartialGroup) (k : Nat) (g0 : Byte) : Byte :=
  match p with
  | .left => g0 <<< (2 * (4 - k))
  | .asIs => g0

/-- The partial group at the end of the stream (R164). -/
def arTail (q : AudioArgs) (s : State) : Result :=
  if arTen q.bits q.mode ∧ s.ar.k ≠ 0 then
    arFlush (s.setAr
      { s.ar with
        g := { s.ar.g with g0 := partialShift Config.partialGroup s.ar.k.toNat s.ar.g.g0 } })
  else .done s

/-- The walk of AR.RUN: HF.open, the frames in file order, the partial group (R151). -/
def arWalk (q : AudioArgs) (s : State) : Result :=
  (forRange (arFrame q) q.n.toNat 0
    (arClearGroup (hfOpen (BitVec.ofNat 32 q.cnt) q.cols Config.digitsOfByteCell s))).andThen
    (arTail q)

/-- AR.RUN (R151). -/
def execArRun (s : State) : Host.Outcome State Fault Refusal :=
  runChecked (arRunChecks s) arWalk s

end Sys2Proof.Machine
end

