-- ==== Sys2Proof/Machine/Bitmap.lean ====
section
/-! DEFINITION. Unit BP: BP.RUN (spec/42_bitmap_packer.md). -/

namespace Sys2Proof.Machine

/-- The operands of BP.RUN and CQ.RUN with the element count. -/
structure ImageArgs where
  w : Half
  h : Half
  cols : Half
  n : Nat
  deriving DecidableEq, Repr

/-- The checks and reads of BP.RUN and CQ.RUN, in the order of R111 and R131; `count` is the
element count of the unit. -/
def imageChecks (count : Nat → Nat → Nat) (s : State) : Checked ImageArgs := do
  needIdle s
  let w ← rdImgW s
  let h ← rdImgH s
  let c ← rdFmtCols s
  check (decide (count w.toNat h.toNat ≠ 0)) zeroCount
  return ⟨w, h, c, count w.toNat h.toNat⟩

/-- The element count of BP.RUN (R112). -/
def bpCount (w h : Nat) : Nat := ceilDiv w 8 * h

/-- A sample counts as 1 if it is positive (R113). -/
def bpBit (v : Sample) : BitVec 1 := if 0 < v.toNat then 1 else 0

/-- `BP.ACC <- 0 ; BP.NB <- 0`. -/
def bpClear (s : State) : State := s.setBp { s.bp with acc := 0, nb := 0 }

/-- The new bit enters at bit 0 after the accumulator has moved up by one (R114). -/
def bpShiftIn (b : BitVec 1) (s : State) : State :=
  s.setBp { s.bp with acc := (s.bp.acc <<< 1) ||| b.setWidth 8, nb := s.bp.nb + 1 }

/-- One pixel: read, shift in, write the byte when it is full (R113 to R115). This and `bpRowEnd` are
the small steps of R121. -/
def bpPixel (x : Nat) (s : State) : Result :=
  let s := s.setBp { s.bp with x := BitVec.ofNat 16 x }
  match s.pixM s.bp.x.toNat s.bp.y.toNat with
  | .error e => .raised e s
  | .ok v =>
    let s := bpShiftIn (bpBit v) s
    if s.bp.nb = 8 then (hfWrite (s.bp.acc.setWidth 16) s).andThen fun s => .done (bpClear s)
    else .done s

/-- The partial byte at the end of a row, left-aligned (R116). -/
def bpRowEnd (s : State) : Result :=
  if s.bp.nb ≠ 0 then
    (hfWrite ((s.bp.acc <<< (8 - s.bp.nb.toNat)).setWidth 16) s).andThen fun s => .done (bpClear s)
  else .done s

/-- One row, with a fresh accumulator (R117). -/
def bpRow (w : Nat) (y : Nat) (s : State) : Result :=
  (forRange bpPixel w 0 (bpClear (s.setBp { s.bp with y := BitVec.ofNat 16 y }))).andThen bpRowEnd

/-- The walk of BP.RUN: HF.open, then the rows from top to bottom (R111). -/
def bpWalk (q : ImageArgs) (s : State) : Result :=
  forRange (bpRow q.w.toNat) q.h.toNat 0
    (hfOpen (BitVec.ofNat 32 q.n) q.cols Config.digitsOfByteCell s)

/-- BP.RUN (R111). -/
def execBpRun (s : State) : Host.Outcome State Fault Refusal :=
  runChecked (imageChecks bpCount s) bpWalk s

end Sys2Proof.Machine
end

