-- ==== Sys2Proof/Machine/Color.lean ====
section
/-! DEFINITION. Unit CQ: CQ.RUN (spec/43_color_quantizer.md). Its checks are those of BP.RUN with
another element count. -/

namespace Sys2Proof.Machine

/-- The element count of CQ.RUN (R132). -/
def cqCount (w h : Nat) : Nat := w * h

/-- `((R & 0xF8) << 8) | ((G & 0xFC) << 3) | (B >> 3)` (R133). -/
def cqPack (c : Rgb) : Half :=
  ((c.r &&& 0xF8).setWidth 16 <<< 8) ||| ((c.g &&& 0xFC).setWidth 16 <<< 3)
    ||| (c.b >>> 3).setWidth 16

/-- One pixel of the current column: read, pack, write. -/
def cqPixel (y : Nat) (s : State) : Result :=
  let s := s.setCq { s.cq with y := BitVec.ofNat 16 y }
  match s.pixC s.cq.x.toNat s.cq.y.toNat with
  | .error e => .raised e s
  | .ok c => hfWrite (cqPack c) s

/-- One column, top to bottom (R134). -/
def cqColumn (h : Nat) (x : Nat) (s : State) : Result :=
  forRange cqPixel h 0 (s.setCq { s.cq with x := BitVec.ofNat 16 x })

/-- The walk of CQ.RUN: HF.open, CQUSED, then the columns in increasing x (R131, R136). -/
def cqWalk (q : ImageArgs) (s : State) : Result :=
  forRange (cqColumn q.h.toNat) q.w.toNat 0
    ((hfOpen (BitVec.ofNat 32 q.n) q.cols Config.digitsOfHalfCell s).setCqUsed true)

/-- CQ.RUN (R131). -/
def execCqRun (s : State) : Host.Outcome State Fault Refusal :=
  runChecked (imageChecks cqCount s) cqWalk s

/-- The 8-bit value a 5-bit field expands to by bit replication (R137, general knowledge G6). -/
def expand5 (f : BitVec 5) : Byte := (f.setWidth 8 <<< 3) ||| (f.setWidth 8 >>> 2)

/-- The 8-bit value a 6-bit field expands to by bit replication (R137, general knowledge G6). -/
def expand6 (f : BitVec 6) : Byte := (f.setWidth 8 <<< 2) ||| (f.setWidth 8 >>> 4)

end Sys2Proof.Machine
end

