-- ==== Sys2Proof/Machine/Parameter.lean ====
section
/-! DEFINITION. SETP and GETP (spec/40_parameter_access.md). -/

namespace Sys2Proof.Machine

/-- The register and the value SETP writes, or the fault it raises (R80). An index from 12 up does
not decode and is refused here as `IllegalCommand(CMD[cp])` (log entry 16). -/
def setpTarget (p : RegIndex) (imm : Imm) (s : State) : Checked ParamReg :=
  match paramOfIndex p with
  | some r => if cfgLegal r imm then .ok r else .error (cfgRange r)
  | none => .error (illegalCommand s.currentWord)

/-- SETP (R80). -/
def execSetp (p : RegIndex) (imm : Imm) (s : State) : Host.Outcome State Fault Refusal :=
  runChecked (setpTarget p imm s)
    (fun r s => .done (s.setParams (writeParam s.p r (imm.setWidth 32)))) s

/-- GETP (R81). -/
def execGetp (p : RegIndex) (s : State) : Host.Outcome State Fault Refusal :=
  runChecked (rdIndex s p) (fun v s => .done (s.respond v)) s

end Sys2Proof.Machine
end

