-- ==== Sys2Proof/Machine/Dispatch.lean ====
section
/-! DEFINITION. One arm per command (spec/30_encoding.md R62). -/

namespace Sys2Proof.Machine

def exec (i : Instr) (s : State) : Host.Outcome State Fault Refusal :=
  match i with
  | .setp p imm => Sys2Proof.Machine.execSetp p imm s
  | .getp p => Sys2Proof.Machine.execGetp p s
  | .fmtOpen => Sys2Proof.Machine.execFmtOpen s
  | .fmtWrite val => Sys2Proof.Machine.execFmtWrite val s
  | .bpRun => Sys2Proof.Machine.execBpRun s
  | .cqRun => Sys2Proof.Machine.execCqRun s
  | .arHdr => Sys2Proof.Machine.execArHdr s
  | .arRun => Sys2Proof.Machine.execArRun s

end Sys2Proof.Machine
end

