-- ==== Sys2Proof/Machine/Step.lean ====
section
/-! DEFINITION. The step of the block (spec/10_state.md R28). -/

namespace Sys2Proof.Machine

/-- R28: no step when FAULT = 1 or when `cp` is past the last command; otherwise the word at `cp`
is decoded and its command executed as one atomic step, or IllegalCommand takes fault entry
(R64, R65, R181). -/
def step (s : State) : Host.Outcome State Fault Refusal :=
  if s.fault then .fault .halted
  else
    match s.fetch with
    | none => .fault .launchEnded
    | some w =>
      match decode w with
      | .ok i => exec i s
      | .error _ => .next (s.takeFault (illegalCommand w))

/-- `s` with the command word that the low `nbits` bits of `w` spell stored at `CMD[cp]`; a CMD
shorter than `cp` is filled up with zero words. It stands for the host's loading of CMD (R202). -/
def State.withFetchWord (s : State) (nbits w : Nat) : State :=
  { s with
    cmd := s.cmd.take s.cp ++ List.replicate (s.cp - s.cmd.length) 0
      ++ tableWord nbits w :: s.cmd.drop (s.cp + 1) }

end Sys2Proof.Machine
end

