-- ==== Sys2Proof/Machine/Assembler.lean ====
section
/-! DEFINITION. The assembler syntax of spec/30_encoding.md R66: one line of text to at most one
command word. Text is a list of characters. Layout details R66 leaves open: log entry 17. -/

namespace Sys2Proof.Machine

/-- Why a line is refused. -/
inductive AsmError where
  /-- No mnemonic of R62. -/
  | mnemonic
  /-- Not the operands the mnemonic takes. -/
  | operands
  /-- No register of R12 or R14, or one the command cannot reach. -/
  | register
  /-- Not a decimal or `0x` number. -/
  | number
  /-- A number outside the stated range; it is not truncated. -/
  | range
  deriving DecidableEq, Repr

/-- The registers by name, with their indexes (R12, R14). -/
def asmRegisters : List (List Char × RegIndex) :=
  [ (['I', 'M', 'G', '_', 'W'], 0), (['I', 'M', 'G', '_', 'H'], 1),
    (['F', 'M', 'T', '_', 'C', 'O', 'L', 'S'], 2),
    (['F', 'M', 'T', '_', 'D', 'I', 'G', 'I', 'T', 'S'], 3),
    (['F', 'M', 'T', '_', 'T', 'O', 'T', 'A', 'L'], 4),
    (['A', 'U', 'D', '_', 'C', 'H', 'A', 'N', 'N', 'E', 'L', 'S'], 5),
    (['A', 'U', 'D', '_', 'B', 'I', 'T', 'S'], 6),
    (['A', 'U', 'D', '_', 'F', 'R', 'A', 'M', 'E'], 7),
    (['A', 'U', 'D', '_', 'N', 'S', 'A', 'M', 'P'], 8),
    (['A', 'U', 'D', '_', 'D', 'A', 'T', 'A', 'O', 'F', 'F'], 9),
    (['A', 'U', 'D', '_', 'M', 'O', 'D', 'E'], 10),
    (['A', 'U', 'D', '_', 'R', 'A', 'T', 'E'], 11),
    (['A', 'U', 'D', '_', 'O', 'U', 'T', 'B', 'I', 'T', 'S'], 12),
    (['S', 'T', 'A', 'T', 'U', 'S'], 13), (['C', 'A', 'U', 'S', 'E'], 14) ]

/-- The mnemonics (R62). -/
def asmMnemonics : List (List Char × Row) :=
  [ (['S', 'E', 'T', 'P'], .setp), (['G', 'E', 'T', 'P'], .getp),
    (['F', 'M', 'T', '.', 'O', 'P', 'E', 'N'], .fmtOpen),
    (['F', 'M', 'T', '.', 'W', 'R', 'I', 'T', 'E'], .fmtWrite),
    (['B', 'P', '.', 'R', 'U', 'N'], .bpRun), (['C', 'Q', '.', 'R', 'U', 'N'], .cqRun),
    (['A', 'R', '.', 'H', 'D', 'R'], .arHdr), (['A', 'R', '.', 'R', 'U', 'N'], .arRun) ]

/-- The value of a digit, decimal or hexadecimal of either case. -/
def asmDigit (c : Char) : Option Nat :=
  let n := c.toNat
  if 0x30 ≤ n ∧ n ≤ 0x39 then some (n - 0x30)
  else if 0x61 ≤ n ∧ n ≤ 0x66 then some (n - 0x57)
  else if 0x41 ≤ n ∧ n ≤ 0x46 then some (n - 0x37)
  else none

/-- The digits of a number in the given base, most significant first. -/
def asmDigits (base : Nat) : (acc : Nat) → List Char → Option Nat
  | acc, [] => some acc
  | acc, c :: cs =>
    match asmDigit c with
    | some d => if d < base then asmDigits base (base * acc + d) cs else none
    | none => none

/-- A number: decimal, or hexadecimal with the prefix `0x`. -/
def asmNumber : List Char → Option Nat
  | '0' :: 'x' :: c :: cs => asmDigits 16 0 (c :: cs)
  | c :: cs => asmDigits 10 0 (c :: cs)
  | [] => none

/-- A finished word of a line, if it is not empty. -/
def asmWord (w : List Char) : List (List Char) := if w = [] then [] else [w]

/-- The words of a line, a comma being a word of its own; text from `;` on is a comment. -/
def asmWords : (w : List Char) → List Char → List (List Char)
  | w, [] => asmWord w
  | w, c :: cs =>
    if c = ';' then asmWord w
    else if c = ' ' ∨ c = '\t' then asmWord w ++ asmWords [] cs
    else if c = ',' then asmWord w ++ [','] :: asmWords [] cs
    else asmWords (w ++ [c]) cs

/-- A register operand that the command reaches: index at most `top`. -/
def asmReg (top : Nat) (t : List Char) : Except AsmError RegIndex :=
  match asmRegisters.lookup t with
  | some i => if i.toNat ≤ top then .ok i else .error .register
  | none => .error .register

/-- A number operand below `2^bits`. -/
def asmNum (bits : Nat) (t : List Char) : Except AsmError Nat :=
  match asmNumber t with
  | some n => if n < 2 ^ bits then .ok n else .error .range
  | none => .error .number

/-- The command a mnemonic and its operand words spell. -/
def asmInstr (r : Row) (ops : List (List Char)) : Except AsmError Instr :=
  match r with
  | .setp =>
    match ops with
    | [t, [','], n] => do return .setp (← asmReg 11 t) (BitVec.ofNat 24 (← asmNum 24 n))
    | _ => .error .operands
  | .getp =>
    match ops with
    | [t] => do return .getp (← asmReg 14 t)
    | _ => .error .operands
  | .fmtWrite =>
    match ops with
    | [n] => do return .fmtWrite (BitVec.ofNat 16 (← asmNum 16 n))
    | _ => .error .operands
  | .fmtOpen => if ops = [] then .ok .fmtOpen else .error .operands
  | .bpRun => if ops = [] then .ok .bpRun else .error .operands
  | .cqRun => if ops = [] then .ok .cqRun else .error .operands
  | .arHdr => if ops = [] then .ok .arHdr else .error .operands
  | .arRun => if ops = [] then .ok .arRun else .error .operands

/-- One line: the word of its command (R66). A line without a mnemonic, empty or nothing but blanks
and a comment, is accepted and has no word, where R66 is silent (DESIGN CHOICE, log entry 17). -/
def assembleLine (line : List Char) : Except AsmError (Option Word) :=
  match asmWords [] line with
  | [] => .ok none
  | m :: ops =>
    match asmMnemonics.lookup m with
    | some r => (asmInstr r ops).map fun i => some (encode i)
    | none => .error .mnemonic

/-- A program: a plain list of lines (R66). -/
def assemble : List (List Char) → Except AsmError (List Word)
  | [] => .ok []
  | l :: ls => do
    let w ← assembleLine l
    let ws ← assemble ls
    return w.toList ++ ws

end Sys2Proof.Machine
end

