-- ==== Sys2Proof/Machine/ClosedForm.lean ====
section
/-! DEFINITION. The closed forms the spec gives for the text of an array (R96) and for the elements
each RUN command writes (R118, R135, R165). They are written from those rules, in the natural
numbers, and no meaning calls them: statements compare the machine with them. -/

namespace Sys2Proof.Machine

/-! ### Text of an array (R95, R96) -/

/-- `h(n)` by the code of the character (R95). -/
def hexText (n : Nat) : Byte := BitVec.ofNat 8 (if n < 10 then 0x30 + n else 0x61 + (n - 10))

/-- `tok(k) = "0x" ++ hex_d(v)`: digit `j` from the left is `v / 16^(d-1-j) mod 16`. -/
def tokText (d : Nat) (v : Nat) : List Byte :=
  [0x30, 0x78] ++ (List.range d).map fun j => hexText (v / 16 ^ (d - 1 - j) % 16)

/-- `sep(k)`. -/
def sepText (c k : Nat) : List Byte :=
  if k = 0 then [0x0A, 0x20, 0x20]
  else if k % c = 0 then [0x2C, 0x0A, 0x20, 0x20]
  else [0x2C, 0x20]

/-- The separators and tokens of the values from index `k` on. -/
def bodyText (c d : Nat) : (k : Nat) → List Nat → List Byte
  | _, [] => []
  | k, v :: vs => sepText c k ++ tokText d v ++ bodyText c d (k + 1) vs

/-- `"};" ++ LF ++ LF`. -/
def closeText : List Byte := [0x7D, 0x3B, 0x0A, 0x0A]

/-- The text of one complete array of the values `vs`. -/
def arrayText (c d : Nat) (vs : List Nat) : List Byte := bodyText c d 0 vs ++ closeText

/-! ### BP (R118) -/

/-- `bit(x, y)`: 1 if `x < W` and the sample is positive, else 0. -/
def bpBitAt (m : PixMem Sample) (w x y : Nat) : Nat :=
  if x < w ∧ 0 < ((m.at? x y).getD 0).toNat then 1 else 0

/-- `e[y*B + j]`: the sum over `i` of `bit(8*j + i, y) << (7 - i)`. -/
def bpElement (m : PixMem Sample) (w y j : Nat) : Nat :=
  ((List.range 8).map fun i => bpBitAt m w (8 * j + i) y <<< (7 - i)).sum

/-- The elements of BP.RUN in increasing index. -/
def bpElements (m : PixMem Sample) (w h : Nat) : List Nat :=
  (List.range h).flatMap fun y => (List.range (ceilDiv w 8)).map fun j => bpElement m w y j

/-! ### CQ (R135) -/

/-- `((R & 0xF8) << 8) | ((G & 0xFC) << 3) | (B >> 3)` of a triple of naturals. -/
def cqValue (r g b : Nat) : Nat := ((r &&& 0xF8) <<< 8) ||| ((g &&& 0xFC) <<< 3) ||| (b >>> 3)

/-- `e[x*H + y]`. -/
def cqElement (m : PixMem Rgb) (x y : Nat) : Nat :=
  let c := (m.at? x y).getD ⟨0, 0, 0⟩
  cqValue c.r.toNat c.g.toNat c.b.toNat

/-- The elements of CQ.RUN in increasing index: column by column. -/
def cqElements (m : PixMem Rgb) (w h : Nat) : List Nat :=
  (List.range w).flatMap fun x => (List.range h).map fun y => cqElement m x y

/-! ### AR (R165) -/

/-- `u(I, C)`: the converted sample (R153 to R155). -/
def arU (m : Memory) (q : AudioArgs) (i c : Nat) : Nat :=
  if q.bits = 8 then m.assemble (arAddress q i c) 1
  else unsignedSample (m.assemble (arAddress q i c) 2)

/-- `S(I)`: the sum of the converted samples of frame `I`. -/
def arS (m : Memory) (q : AudioArgs) (i : Nat) : Nat :=
  ((List.range q.ch.toNat).map fun c => arU m q i c).sum

/-- `D`: the divisor of the 8-bit-output paths (R157). -/
def arD (q : AudioArgs) : Nat := if q.bits = 8 then q.ch.toNat else q.ch.toNat * 256

/-- `v(I)`: the 10-bit value of frame `I`, 0 from frame `n` on. -/
def arV (m : Memory) (q : AudioArgs) (i : Nat) : Nat :=
  if i < q.n.toNat then arS m q i / (q.ch.toNat * 64) else 0

/-- The five elements of group `g`. -/
def arGroup (m : Memory) (q : AudioArgs) (g : Nat) : List Nat :=
  [ (arV m q (4 * g) / 256 % 4) * 64 + (arV m q (4 * g + 1) / 256 % 4) * 16
      + (arV m q (4 * g + 2) / 256 % 4) * 4 + arV m q (4 * g + 3) / 256 % 4,
    arV m q (4 * g) % 256, arV m q (4 * g + 1) % 256,
    arV m q (4 * g + 2) % 256, arV m q (4 * g + 3) % 256 ]

/-- The elements of the first `k` frames on the 8-bit-output paths. -/
def arByteElements (m : Memory) (q : AudioArgs) (k : Nat) : List Nat :=
  (List.range k).map fun i => arS m q i / arD q

/-- The elements of the first `k` groups on the 10-bit path. -/
def arGroupElements (m : Memory) (q : AudioArgs) (k : Nat) : List Nat :=
  (List.range k).flatMap fun g => arGroup m q g

/-- The elements of AR.RUN in increasing index. -/
def arElements (m : Memory) (q : AudioArgs) : List Nat :=
  if arTen q.bits q.mode then arGroupElements m q (ceilDiv q.n.toNat 4)
  else arByteElements m q q.n.toNat

end Sys2Proof.Machine
end

