-- ==== Sys2Proof/Safety.lean ====
section
/-! DEFINITION. What the spec promises of every state the block can reach, and how the host reads
the end of a launch. -/

namespace Sys2Proof.Machine

/-- The parameter registers hold values SETP accepts where only SETP writes them; AUD_MODE is
never unwritten (R12, R80, R194). -/
def ParamsLegal (p : Params) : Prop :=
  (∀ c, p.fmtCols = some c → c ≠ 0) ∧
  (∀ d, p.fmtDigits = some d → 1 ≤ d.toNat ∧ d.toNat ≤ 4) ∧
  (∀ t, p.fmtTotal = some t → t.toNat < 2 ^ 24) ∧
  (p.audMode = some 8 ∨ p.audMode = some 10)

/-- R97, with the ranges of R20: what holds of HF while an array is open. -/
def FormatterSound (h : Formatter) : Prop :=
  h.state = .opened →
    h.count.toNat < h.total.toNat ∧ 1 ≤ h.cols.toNat ∧ 1 ≤ h.digits.toNat ∧ h.digits.toNat ≤ 4 ∧
    h.col.toNat = if h.count = 0 then h.cols.toNat else (h.count.toNat - 1) % h.cols.toNat + 1

/-- FMTOPEN is 1 exactly while HF.STATE = OPEN (R18). -/
def FlagMirrorsFormatter (s : State) : Prop := s.fmtOpen = true ↔ s.hf.state = .opened

/-- CAUSE, FINFO and FCMD hold 0 until fault entry has written them, and then the cause is one of
the eleven and FCMD is the word at `cp` (R19, R180, R192). -/
def FaultRegistersSound (s : State) : Prop :=
  if s.fault then
    s.cp < s.cmd.length ∧ s.fcmd = s.currentWord ∧ ∃ c : Cause, s.cause = causeCode c
  else s.cause = 0 ∧ s.finfo = 0 ∧ s.fcmd = 0

/-- `cp` never exceeds `len(CMD)` (R11). -/
def PointerInRange (s : State) : Prop := s.cp ≤ s.cmd.length

/-- The invariant of the block. -/
def Inv (s : State) : Prop :=
  PointerInRange s ∧ ParamsLegal s.p ∧ FormatterSound s.hf ∧ FlagMirrorsFormatter s ∧
  FaultRegistersSound s

/-- Every location of every source memory reads the same in both states, and the command sequence
is the same (R47, R54, R56). -/
def SameMemories (s t : State) : Prop :=
  t.cmd = s.cmd ∧ (∀ a, t.wav.byte? a = s.wav.byte? a) ∧ (∀ x y, t.pixM x y = s.pixM x y) ∧
  (∀ x y, t.pixC x y = s.pixC x y)

/-- `t` is `s` after fault entry with cause `c` and information `info`, and nothing else: `cp` and
everything but the fault registers and FAULT are as before (R192). -/
def FaultedOnly (s t : State) (c : Cause) (info : Nat) : Prop :=
  t = { s with cause := causeCode c, finfo := BitVec.ofNat 32 info, fcmd := s.currentWord,
               fault := true }

/-- The host's view of two states agrees: everything but the registers of BP, CQ and AR, and but
the five HF copies while no array is open (R20 to R23, R26). -/
def HostView (s t : State) : Prop :=
  t = { s with hf := t.hf, bp := t.bp, cq := t.cq, ar := t.ar } ∧ t.hf.state = s.hf.state ∧
  (s.hf.state = .opened → t.hf = s.hf)

/-- An outcome with its next state changed by `f`. -/
def mapNext (f : State → State) :
    Host.Outcome State Fault Refusal → Host.Outcome State Fault Refusal
  | .next t => .next (f t)
  | .fault r => .fault r
  | .refused r => .refused r

/-- The values SETP accepts, by register index (R12's column of legal values, R80). -/
def SetpLegal (p imm : Nat) : Prop :=
  (p ≤ 11 ∧ imm < 2 ^ 24) ∧
  (p ∈ [0, 1, 2, 5, 6, 7] → imm < 65536) ∧ (p = 2 → 1 ≤ imm) ∧ (p = 3 → 1 ≤ imm ∧ imm ≤ 4) ∧
  (p = 10 → imm = 8 ∨ imm = 10)

/-- The value GETP answers for a register index, none where the register is unwritten (R81). -/
def getpNat (s : State) (p : Nat) : Option Nat :=
  match p with
  | 0 => s.p.imgW.map BitVec.toNat
  | 1 => s.p.imgH.map BitVec.toNat
  | 2 => s.p.fmtCols.map BitVec.toNat
  | 3 => s.p.fmtDigits.map BitVec.toNat
  | 4 => s.p.fmtTotal.map BitVec.toNat
  | 5 => s.p.audChannels.map BitVec.toNat
  | 6 => s.p.audBits.map BitVec.toNat
  | 7 => s.p.audFrame.map BitVec.toNat
  | 8 => s.p.audNsamp.map BitVec.toNat
  | 9 => s.p.audDataoff.map BitVec.toNat
  | 10 => s.p.audMode.map BitVec.toNat
  | 11 => s.p.audRate.map BitVec.toNat
  | 12 =>
    match s.p.audBits, s.p.audMode with
    | some b, some m => some (if b.toNat = 16 ∧ m.toNat = 10 then 10 else 8)
    | _, _ => none
  | 13 => some (s.fault.toNat + 2 * s.fmtOpen.toNat + 4 * s.cqUsed.toNat)
  | 14 => some s.cause.toNat
  | _ => none

/-- BP.RUN or CQ.RUN may walk: no array open, its three registers written, a legal line length and
a grid of at least one pixel (R111, R131). -/
def ImageOperands (s : State) (w h c : Half) : Prop :=
  s.hf.state = .idle ∧ s.p.imgW = some w ∧ s.p.imgH = some h ∧ s.p.fmtCols = some c ∧
  c ≠ 0 ∧ w ≠ 0 ∧ h ≠ 0

/-- AR.RUN may walk with the operands `q`: every check of R152 passes. -/
def AudioOperands (s : State) (q : AudioArgs) : Prop :=
  s.hf.state = .idle ∧ s.p.audChannels = some q.ch ∧ s.p.audBits = some q.bits ∧
  s.p.audFrame = some q.frame ∧ s.p.audNsamp = some q.n ∧ s.p.audDataoff = some q.off ∧
  s.p.audMode = some q.mode ∧ s.p.fmtCols = some q.cols ∧ q.cols ≠ 0 ∧
  (q.bits = 8 ∨ q.bits = 16) ∧ q.ch ≠ 0 ∧
  q.cnt = arCount (arTen q.bits q.mode) q.n.toNat ∧ q.cnt ≠ 0 ∧ q.cnt < 2 ^ 32

/-- Channel `c` of frame `i` lies inside WAV (R44, R155). -/
def SamplePresent (m : Memory) (q : AudioArgs) (i c : Nat) : Prop :=
  arAddress q i c + (if q.bits = 8 then 1 else 2) ≤ m.len.toNat

/-- WAV holds both magic markers (R147). -/
def MagicPresent (m : Memory) : Prop :=
  (∀ i, i < 4 → m.byte? i = magicRiff[i]?) ∧ (∀ i, i < 8 → m.byte? (8 + i) = magicWave[i]?)

/-- What the host learns at the end of a launch (R210). -/
inductive LaunchEnd where
  /-- FAULT = 0, FMTOPEN = 0: every array that was opened was closed. -/
  | complete
  /-- FAULT = 0, FMTOPEN = 1: the last array is unterminated. -/
  | unterminated
  /-- FAULT = 1, FMTOPEN = 0: halted, OUT holds only complete bodies. -/
  | haltedClosed
  /-- FAULT = 1, FMTOPEN = 1: halted with an array open. -/
  | haltedOpen
  deriving DecidableEq, Repr

/-- The row of R210's table that a state falls under. -/
def launchEnd (s : State) : LaunchEnd :=
  match s.fault, s.fmtOpen with
  | false, false => .complete
  | false, true => .unterminated
  | true, false => .haltedClosed
  | true, true => .haltedOpen

/-- The outcomes of a conversion the block can show (R197); "not an image" is the decoder's. -/
inductive ConversionOutcome where
  | success
  | unfinished
  | notAudio
  | structuralError
  deriving DecidableEq, Repr

/-- How the host classifies the end of a launch: FormatError is "not audio", any other fault is the
outcome the source does not have (R197). -/
def conversionOutcome (s : State) : ConversionOutcome :=
  match launchEnd s with
  | .complete => .success
  | .unterminated => .unfinished
  | _ => if s.cause = causeCode .formatError then .notAudio else .structuralError

end Sys2Proof.Machine
end

