-- ==== Sys2Proof/Certificates/Slice0/Obligations.lean ====
section
/-! DEFINITION. The statements for the provers. Each docstring names the rules of spec/ it
formalises; OBLIGATIONS.json lists them in the same order. -/

open Sys2Proof Sys2Proof.Machine

/-! ### Encoding and decoding -/

/-- R62, R64: every well-formed command is read back from its word, with every operand. -/
def Obligations.DecodeOfEncode : Prop :=
  ∀ i : Instr, i.wellFormed = true → decode (encode i) = .ok i

/-- R62, R64: a word that decodes is the one word of its command, so no bit of it is ignored. -/
def Obligations.EncodeOfDecode : Prop :=
  ∀ (w : Word) (i : Instr), decode w = .ok i → encode i = w ∧ i.wellFormed = true

/-- R62: no word matches two rows; the spec marks the sentence as derived. -/
def Obligations.OpcodeRowsDisjoint : Prop :=
  ∀ (w : Word) (r r' : Row),
    w &&& rowMask r = rowValue r → w &&& rowMask r' = rowValue r' → r = r'

/-- R65's list of the illegal words, in the fields of R60 as numbers. -/
def Obligations.IllegalWordsAreTheListed : Prop :=
  ∀ w : Word,
    let grp := w.toNat / 2 ^ 28
    let sub := w.toNat / 2 ^ 24 % 16
    let imm := w.toNat % 2 ^ 24
    (¬ ∃ i, decode w = .ok i) ↔
      (grp = 0 ∨ 7 ≤ grp ∨ (grp = 1 ∧ 12 ≤ sub) ∨ (grp = 2 ∧ (sub = 15 ∨ imm ≠ 0)) ∨
       (grp = 3 ∧ (2 ≤ sub ∨ (sub = 0 ∧ imm ≠ 0) ∨ (sub = 1 ∧ imm / 2 ^ 16 ≠ 0))) ∨
       ((grp = 4 ∨ grp = 5) ∧ (sub ≠ 0 ∨ imm ≠ 0)) ∨ (grp = 6 ∧ (2 ≤ sub ∨ imm ≠ 0)))

/-- R62, R66, R80: words written out from the encodings decode to the commands they stand for. -/
def Obligations.WrittenOutWordsDecode : Prop :=
  decode 0x1000000A = .ok (.setp 0 10) ∧ decode 0x14FFFFFF = .ok (.setp 4 16777215) ∧
  decode 0x2A000000 = .ok (.getp 10) ∧ decode 0x30000000 = .ok .fmtOpen ∧
  decode 0x3100001F = .ok (.fmtWrite 31) ∧ decode 0x40000000 = .ok .bpRun ∧
  decode 0x50000000 = .ok .cqRun ∧ decode 0x60000000 = .ok .arHdr ∧
  decode 0x61000000 = .ok .arRun

/-- R66: the words of SETP, GETP and FMT.WRITE as sums of their fields; and, of SETP's operands
already split into words, the command they spell or their refusal: an operand outside the stated
range is refused, not truncated. The last clause rests on the model's choices in log entry 17: which
texts are numbers (`asmNumber`, digits of either case), that a comma is a word of its own, and that
a register that is refused is reported before a number that is. Whole lines are in
`AssemblerLines`. -/
def Obligations.AssemblerWords : Prop :=
  (∀ (p : RegIndex) (imm : Imm), p.toNat ≤ 11 →
    (encode (.setp p imm)).toNat = 0x10000000 + p.toNat * 2 ^ 24 + imm.toNat) ∧
  (∀ p : RegIndex, p.toNat ≤ 14 → (encode (.getp p)).toNat = 0x20000000 + p.toNat * 2 ^ 24) ∧
  (∀ v : Half, (encode (.fmtWrite v)).toNat = 0x31000000 + v.toNat) ∧
  (∀ (reg num : List Char) (p : RegIndex) (n : Nat),
    asmRegisters.lookup reg = some p → asmNumber num = some n →
    asmInstr .setp [reg, [','], num] =
      if 11 < p.toNat then .error .register
      else if n < 2 ^ 24 then .ok (.setp p (BitVec.ofNat 24 n)) else .error .range)

/-! ### The step, faults, reset -/

/-- R28, R64: at a word that decodes, the step of a block that is not halted is the command's
`exec`, which itself advances `cp` or takes fault entry. -/
def Obligations.StepRunsDecodedCommand : Prop :=
  ∀ (s : State) (w : Word) (i : Instr),
    s.fault = false → s.fetch = some w → decode w = .ok i → step s = exec i s

/-- R28: the block takes no step exactly when it is halted or `cp` is past the last command; it
never refuses. -/
def Obligations.StepStopsExactlyWhenHaltedOrEnded : Prop :=
  ∀ s : State,
    (step s = .fault .halted ↔ s.fault = true) ∧
    (step s = .fault .launchEnded ↔ s.fault = false ∧ s.cmd.length ≤ s.cp) ∧
    (∀ r, step s ≠ .refused r) ∧
    (s.fault = false → s.cp < s.cmd.length → ∃ t, step s = .next t)

/-- R16: FAULT is sticky until reset, and a block with FAULT = 1 executes nothing. That executing
nothing is answered as the model's own fault `halted` is log entry 6, and that the host's reset
keeps the launch inputs, which the clause on FAULT does not ask, is log entry 5. -/
def Obligations.FaultIsStickyUntilReset : Prop :=
  ∀ s : State, s.fault = true → step s = .fault .halted ∧ s.hostReset.fault = false

/-- R181: a word that does not decode takes fault entry with cause 1, FINFO = FCMD = the word, and
changes nothing else. -/
def Obligations.IllegalWordTakesFaultEntry : Prop :=
  ∀ (s : State) (w : Word),
    s.fault = false → s.fetch = some w → (∀ i, decode w ≠ .ok i) →
    ∃ t, step s = .next t ∧ FaultedOnly s t .illegalCommand w.toNat ∧
      t.cause = 1 ∧ t.finfo = w ∧ t.fcmd = w

/-- R180: the code of every cause, and that no code is 0 or above 11. -/
def Obligations.CauseCodes : Prop :=
  causeCode .illegalCommand = 1 ∧ causeCode .cfgRange = 2 ∧ causeCode .unconfigured = 3 ∧
  causeCode .fmtState = 4 ∧ causeCode .valueRange = 5 ∧ causeCode .zeroCount = 6 ∧
  causeCode .countOverflow = 7 ∧ causeCode .formatError = 8 ∧ causeCode .unsupportedDepth = 9 ∧
  causeCode .divideByZero = 10 ∧ causeCode .srcBounds = 11 ∧
  (∀ c : Cause, 1 ≤ (causeCode c).toNat ∧ (causeCode c).toNat ≤ 11)

/-- R200 with the values of R26: reset in any state gives R26's values, keeps no register, and
discards OUT and RSP. That the launch inputs stay is the model's reading of R202 (log entry 5). -/
def Obligations.HostResetGivesResetValues : Prop :=
  ∀ s : State,
    let t := s.hostReset
    t.cp = 0 ∧
    t.p = { imgW := none, imgH := none, fmtCols := none, fmtDigits := none, fmtTotal := none,
            audChannels := none, audBits := none, audFrame := none, audNsamp := none,
            audDataoff := none, audMode := some 8, audRate := none } ∧
    t.fault = false ∧ t.fmtOpen = false ∧ t.cqUsed = false ∧
    t.cause = 0 ∧ t.finfo = 0 ∧ t.fcmd = 0 ∧ t.hf.state = .idle ∧ t.out = [] ∧ t.rsp = [] ∧
    (∀ s' : State, t = s'.hostReset.load s.cmd s.pixm s.pixc s.wav)

/-- R11, R28, R192: a command of a block that is not halted either completes, with `cp` advanced
by 1 and the fault registers untouched, or takes fault entry, with `cp` unchanged and FCMD the word
at `cp`. Past the end of CMD, where no command executes, that word is the model's 0 (log entry
7). -/
def Obligations.CommandCompletesOrFaults : Prop :=
  ∀ (s : State) (i : Instr), s.fault = false →
    ∃ t, exec i s = .next t ∧
      ((t.fault = false ∧ t.cp = s.cp + 1 ∧ t.cause = s.cause ∧ t.finfo = s.finfo ∧
          t.fcmd = s.fcmd) ∨
       (t.fault = true ∧ t.cp = s.cp ∧ t.fcmd = s.currentWord ∧ ∃ c, t.cause = causeCode c))

/-- R192: a fault other than SrcBounds changes nothing but the fault registers and FAULT, in every
command, in every state whose parameter registers hold legal values (StepKeepsInvariant). -/
def Obligations.OnlySrcBoundsLeavesTraces : Prop :=
  ∀ (s t : State) (i : Instr),
    ParamsLegal s.p → s.fault = false → exec i s = .next t → t.fault = true → t.cause ≠ 11 →
    t = { s with cause := t.cause, finfo := t.finfo, fcmd := s.currentWord, fault := true }

/-! ### Whole-machine rules -/

/-- R11, R18, R19, R97 and the legal values of R12: every step keeps the invariant. The spec marks
R97 as derived from R92 and R93. -/
def Obligations.StepKeepsInvariant : Prop :=
  ∀ s t : State, Inv s → step s = .next t → Inv t

/-- The invariant holds after reset, with whatever inputs the host loads (R26, R202). -/
def Obligations.ResetMeetsInvariant : Prop :=
  Inv State.reset ∧ ∀ cmd pixm pixc wav, Inv (State.reset.load cmd pixm pixc wav)

/-- R24, R25: what was appended to OUT and RSP is never removed or changed, and a step answers at
most one GETP. -/
def Obligations.StreamsOnlyGrow : Prop :=
  ∀ s t : State, step s = .next t →
    ∃ (cs : List Byte) (vs : List Word),
      t.out = s.out ++ cs ∧ t.rsp = s.rsp ++ vs ∧ vs.length ≤ 1

/-- R24, R25, and R52's clause that only HF.write emits: only FMT.WRITE and the RUN commands append
to OUT, and only GETP to RSP. That AR.HDR, too, can complete inside an open array is log entry 23. -/
def Obligations.OnlyWritersEmit : Prop :=
  ∀ (s t : State) (i : Instr), exec i s = .next t →
    ((∀ v, i ≠ .fmtWrite v) → i ≠ .bpRun → i ≠ .cqRun → i ≠ .arRun → t.out = s.out) ∧
    ((∀ p, i ≠ .getp p) → t.rsp = s.rsp)

/-- R47, R54, R56: no step changes the command sequence or any location of a source memory. -/
def Obligations.StepKeepsMemories : Prop :=
  ∀ s t : State, step s = .next t →
    SameMemories s t ∧ t.wav = s.wav ∧ t.pixm = s.pixm ∧ t.pixc = s.pixc

/-- R15, R17, R136: no command clears CQUSED, and only CQ.RUN sets it. -/
def Obligations.CqUsedSetOnlyByColourRun : Prop :=
  ∀ (s t : State) (i : Instr), exec i s = .next t →
    t.cqUsed = s.cqUsed ∨ (i = .cqRun ∧ t.cqUsed = true)

/-- R12: only SETP and AR.HDR write parameter registers, and AR.HDR only its six. -/
def Obligations.ParametersWrittenOnlyBySetpAndHeader : Prop :=
  ∀ (s t : State) (i : Instr), exec i s = .next t →
    ((∀ p imm, i ≠ .setp p imm) → i ≠ .arHdr → t.p = s.p) ∧
    (i = .arHdr → t.p.imgW = s.p.imgW ∧ t.p.imgH = s.p.imgH ∧ t.p.fmtCols = s.p.fmtCols ∧
      t.p.fmtDigits = s.p.fmtDigits ∧ t.p.fmtTotal = s.p.fmtTotal ∧ t.p.audMode = s.p.audMode)

/-- R28: every launch ends or halts: from any state at most one step per remaining command answers a
next state, and the step after it stops. The spec marks the sentence as derived; that the stop is a
`fault` of the model's step is log entry 6. -/
def Obligations.LaunchEndsOrHalts : Prop :=
  ∀ s : State, ∃ r, Host.Core.run Sys2Proof.core (s.cmd.length - s.cp + 1) s = .fault r

/-- R20 to R23, R26: what the registers of BP, CQ and AR, and the HF copies of a closed array, hold
before a step never shows in anything the host sees after it, on completion and on a fault. So no
value the model names for them (log entries 1 to 3) can be relied on; the spec marks the two rows
of R26 as derived. -/
def Obligations.LeftoverRegistersUnobservable : Prop :=
  ∀ s s' : State, HostView s s' →
    match step s, step s' with
    | .next t, .next t' => HostView t t'
    | .fault r, .fault r' => r = r'
    | _, _ => False

/-- R40's table of which command reaches which space: the result of each command does not depend on
the memories it does not reach. -/
def Obligations.CommandsReadOnlyTheirMemories : Prop :=
  ∀ (s : State) (pm : PixMem Sample) (pc : PixMem Rgb) (m : Memory),
    let noWav := fun u : State => { u with wav := m }
    let noPixM := fun u : State => { u with pixm := pm }
    let noPixC := fun u : State => { u with pixc := pc }
    (∀ i, i ≠ .arHdr → i ≠ .arRun → exec i (noWav s) = mapNext noWav (exec i s)) ∧
    (∀ i, i ≠ .bpRun → exec i (noPixM s) = mapNext noPixM (exec i s)) ∧
    (∀ i, i ≠ .cqRun → exec i (noPixC s) = mapNext noPixC (exec i s))

/-! ### SETP and GETP -/

/-- R80: a legal SETP completes: the register holds the value, every other register index reads as
before, nothing else but `cp` changes. -/
def Obligations.SetpWritesLegalValue : Prop :=
  ∀ (s : State) (p : RegIndex) (imm : Imm), SetpLegal p.toNat imm.toNat →
    ∃ t, exec (.setp p imm) s = .next t ∧ getpNat t p.toNat = some imm.toNat ∧
      (∀ q, q ≤ 11 → q ≠ p.toNat → getpNat t q = getpNat s q) ∧
      t = { s with p := t.p, cp := s.cp + 1 } ∧ SameMemories s t

/-- R80, R182: SETP of an illegal value faults CfgRange with the register index and writes
nothing. -/
def Obligations.SetpRefusesIllegalValue : Prop :=
  ∀ (s : State) (p : RegIndex) (imm : Imm), p.toNat ≤ 11 → ¬ SetpLegal p.toNat imm.toNat →
    ∃ t, exec (.setp p imm) s = .next t ∧ FaultedOnly s t .cfgRange p.toNat

/-- R81, R14, R15: GETP of a readable index appends its value, zero-extended, to RSP, and changes
nothing else but `cp`. -/
def Obligations.GetpAppendsValue : Prop :=
  ∀ (s : State) (p : RegIndex) (v : Nat), getpNat s p.toNat = some v →
    ∃ t, exec (.getp p) s = .next t ∧
      t = { s with rsp := s.rsp ++ [BitVec.ofNat 32 v], cp := s.cp + 1 } ∧ v < 2 ^ 32 ∧
      SameMemories s t

/-- R81, R183: GETP of an unwritten register faults Unconfigured with its index; GETP of
AUD_OUTBITS reports index 6 when AUD_BITS is unwritten. -/
def Obligations.GetpFaultsOnUnwritten : Prop :=
  ∀ (s : State) (p : RegIndex),
    (p.toNat ≤ 11 → getpNat s p.toNat = none →
      ∃ t, exec (.getp p) s = .next t ∧ FaultedOnly s t .unconfigured p.toNat) ∧
    (p.toNat = 12 → s.p.audBits = none →
      ∃ t, exec (.getp p) s = .next t ∧ FaultedOnly s t .unconfigured 6)

/-! ### HF -/

/-- R91, R92: FMT.OPEN with its three registers written and a count above 0 opens the array with
copies of them, the column counter full, and emits nothing. -/
def Obligations.FmtOpenOpensArray : Prop :=
  ∀ (s : State) (t : Word) (c : Half) (d : BitVec 3),
    s.hf.state = .idle → s.p.fmtTotal = some t → s.p.fmtCols = some c →
    s.p.fmtDigits = some d → t ≠ 0 →
    ∃ u, exec .fmtOpen s = .next u ∧
      u = { s with
        hf := { state := .opened, total := t, count := 0, cols := c, col := c, digits := d },
        fmtOpen := true, cp := s.cp + 1 } ∧
      SameMemories s u

/-- R91, R194: the faults of FMT.OPEN in the order of its checks. -/
def Obligations.FmtOpenFaultsInOrder : Prop :=
  ∀ s : State,
    (s.hf.state = .opened → ∃ u, exec .fmtOpen s = .next u ∧ FaultedOnly s u .fmtState 0) ∧
    (s.hf.state = .idle →
      (s.p.fmtTotal = none → ∃ u, exec .fmtOpen s = .next u ∧ FaultedOnly s u .unconfigured 4) ∧
      (∀ t, s.p.fmtTotal = some t →
        (s.p.fmtCols = none → ∃ u, exec .fmtOpen s = .next u ∧ FaultedOnly s u .unconfigured 2) ∧
        (∀ c, s.p.fmtCols = some c →
          (s.p.fmtDigits = none →
            ∃ u, exec .fmtOpen s = .next u ∧ FaultedOnly s u .unconfigured 3) ∧
          (∀ d, s.p.fmtDigits = some d → t = 0 →
            ∃ u, exec .fmtOpen s = .next u ∧ FaultedOnly s u .zeroCount 0))))

/-- R93, R94, R96, R97: FMT.WRITE of a value that fits appends the separator and token of element
number COUNT, and the closing when it is the last; it moves the counters and closes the array on
the last write, and changes nothing else. The closed form and the premise are R96 and R97, which the
spec marks as derived from R92 and R93. -/
def Obligations.FmtWriteAppendsElement : Prop :=
  ∀ (s : State) (v : Half),
    FormatterSound s.hf → s.hf.state = .opened → v.toNat < 16 ^ s.hf.digits.toNat →
    ∃ t, exec (.fmtWrite v) s = .next t ∧
      t.out = s.out ++ sepText s.hf.cols.toNat s.hf.count.toNat
        ++ tokText s.hf.digits.toNat v.toNat
        ++ (if s.hf.count.toNat + 1 = s.hf.total.toNat then closeText else []) ∧
      t.hf.total = s.hf.total ∧ t.hf.cols = s.hf.cols ∧ t.hf.digits = s.hf.digits ∧
      t.hf.count.toNat = s.hf.count.toNat + 1 ∧
      t.hf.col.toNat = s.hf.count.toNat % s.hf.cols.toNat + 1 ∧
      (if s.hf.count.toNat + 1 = s.hf.total.toNat then t.hf.state = .idle ∧ t.fmtOpen = false
        else t.hf.state = .opened ∧ t.fmtOpen = s.fmtOpen) ∧
      t = { s with out := t.out, hf := t.hf, fmtOpen := t.fmtOpen, cp := s.cp + 1 } ∧
      SameMemories s t

/-- R94, R184, R185, R194: FMT.WRITE with no array open faults FmtState; a value that needs more
digits than declared faults ValueRange with the value; nothing is emitted. -/
def Obligations.FmtWriteFaultsInOrder : Prop :=
  ∀ (s : State) (v : Half),
    (s.hf.state = .idle → ∃ t, exec (.fmtWrite v) s = .next t ∧ FaultedOnly s t .fmtState 0) ∧
    (s.hf.state = .opened → 16 ^ s.hf.digits.toNat ≤ v.toNat →
      ∃ t, exec (.fmtWrite v) s = .next t ∧ FaultedOnly s t .valueRange v.toNat)

/-- R95: the token is `0x` and the digits by position, `2 + d` characters, lower case. -/
def Obligations.HexTokenIsPositional : Prop :=
  (∀ (d : Nat) (v : Half), 1 ≤ d → d ≤ 4 → v.toNat < 16 ^ d →
    hexToken d v = tokText d v.toNat ∧ (hexToken d v).length = 2 + d) ∧
  hexDigits 2 0 = [0x30, 0x30] ∧ hexDigits 2 31 = [0x31, 0x66] ∧ hexDigits 2 255 = [0x66, 0x66] ∧
  hexDigits 4 2016 = [0x30, 0x37, 0x65, 0x30] ∧ hexDigits 1 15 = [0x66]

/-- R96: HF.open and then the declared number of writes append exactly the text of the closed form,
of the stated length, and leave HF idle. The spec marks R96 as derived from R92 and R93. -/
def Obligations.WholeArrayGivesClosedForm : Prop :=
  (∀ (s : State) (vs : List Half) (t : Word) (c : Half) (d : BitVec 3),
    t.toNat = vs.length → vs ≠ [] → c ≠ 0 → 1 ≤ d.toNat → d.toNat ≤ 4 →
    (∀ v ∈ vs, v.toNat < 16 ^ d.toNat) →
    ∃ u, hfWriteAll vs (hfOpen t c d s) = .done u ∧
      u.out = s.out ++ arrayText c.toNat d.toNat (vs.map BitVec.toNat) ∧
      u.hf.state = .idle ∧ u.fmtOpen = false ∧
      (arrayText c.toNat d.toNat (vs.map BitVec.toNat)).length =
        vs.length * (2 + d.toNat) + 3 + 2 * (vs.length - 1) + 2 * ((vs.length - 1) / c.toNat) + 4) ∧
  (arrayText 12 2 [0, 31, 255]).length = 23

/-- R98, R18: after fewer writes than declared the array stays open and unterminated. -/
def Obligations.ShortArrayStaysOpen : Prop :=
  ∀ (s : State) (vs : List Half) (t : Word) (c : Half) (d : BitVec 3),
    vs.length < t.toNat → c ≠ 0 → 1 ≤ d.toNat → d.toNat ≤ 4 →
    (∀ v ∈ vs, v.toNat < 16 ^ d.toNat) →
    ∃ u, hfWriteAll vs (hfOpen t c d s) = .done u ∧
      u.out = s.out ++ bodyText c.toNat d.toNat 0 (vs.map BitVec.toNat) ∧
      u.hf.state = .opened ∧ u.fmtOpen = true

/-! ### BP and CQ -/

/-- R111, R131, R194: the up-front faults of BP.RUN and CQ.RUN in the order of their checks. -/
def Obligations.ImageRunFaultsInOrder : Prop :=
  ∀ (s : State) (i : Instr), i = .bpRun ∨ i = .cqRun →
    (s.hf.state = .opened → ∃ t, exec i s = .next t ∧ FaultedOnly s t .fmtState 0) ∧
    (s.hf.state = .idle →
      (s.p.imgW = none → ∃ t, exec i s = .next t ∧ FaultedOnly s t .unconfigured 0) ∧
      (∀ w, s.p.imgW = some w →
        (s.p.imgH = none → ∃ t, exec i s = .next t ∧ FaultedOnly s t .unconfigured 1) ∧
        (∀ h, s.p.imgH = some h →
          (s.p.fmtCols = none → ∃ t, exec i s = .next t ∧ FaultedOnly s t .unconfigured 2) ∧
          (∀ c, s.p.fmtCols = some c → (w = 0 ∨ h = 0) →
            ∃ t, exec i s = .next t ∧ FaultedOnly s t .zeroCount 0))))

/-- R111, R118, R120: BP.RUN over a grid PIXM holds completes; OUT gains the text of the closed
form, HF is idle, and nothing else but BP's own registers and `cp` changes. The closed form is R118,
which the spec marks as derived from R111 to R117. -/
def Obligations.BpRunPacksImage : Prop :=
  ∀ (s : State) (w h c : Half), ImageOperands s w h c →
    (∀ x y, x < w.toNat → y < h.toNat → (s.pixm.at? x y).isSome = true) →
    ∃ t, exec .bpRun s = .next t ∧
      t.out = s.out ++ arrayText c.toNat 2 (bpElements s.pixm w.toNat h.toNat) ∧
      (bpElements s.pixm w.toNat h.toNat).length = bpCount w.toNat h.toNat ∧
      t.hf.state = .idle ∧ t.fmtOpen = false ∧
      t = { s with out := t.out, hf := t.hf, bp := t.bp, fmtOpen := false, cp := s.cp + 1 } ∧
      SameMemories s t

/-- R111, R191: at the first pixel PIXM does not hold, in walk order, BP.RUN faults SrcBounds with
its coordinate; the elements complete before it stay in OUT and the array stays open. -/
def Obligations.BpRunStopsAtMissingPixel : Prop :=
  ∀ (s : State) (w h c : Half) (x0 y0 : Nat), ImageOperands s w h c →
    x0 < w.toNat → y0 < h.toNat → s.pixm.at? x0 y0 = none →
    (∀ x y, x < w.toNat → (y < y0 ∨ (y = y0 ∧ x < x0)) → (s.pixm.at? x y).isSome = true) →
    ∃ t, exec .bpRun s = .next t ∧
      t.fault = true ∧ t.cause = 11 ∧ t.finfo.toNat = y0 * 65536 + x0 ∧ t.fcmd = s.currentWord ∧
      t.fmtOpen = true ∧ t.hf.state = .opened ∧
      t.out = s.out ++ bodyText c.toNat 2 0
        ((bpElements s.pixm w.toNat h.toNat).take (y0 * ceilDiv w.toNat 8 + x0 / 8)) ∧
      t = { s with out := t.out, hf := t.hf, bp := t.bp, fmtOpen := true, fault := true,
                   cause := t.cause, finfo := t.finfo, fcmd := t.fcmd } ∧
      SameMemories s t

/-- R118, last sentence, which the spec marks as derived: every pixel is recovered from the
elements. -/
def Obligations.BpElementsUnpack : Prop :=
  ∀ (m : PixMem Sample) (w h x y : Nat), x < w → y < h →
    ((bpElements m w h)[y * ceilDiv w 8 + x / 8]?.getD 0) / 2 ^ (7 - x % 8) % 2
      = if ((m.at? x y).getD 0) ≠ 0 then 1 else 0

/-- R131, R135, R136, R139: CQ.RUN over a grid PIXC holds completes; OUT gains the text of the
column-major closed form, CQUSED is 1, HF is idle, and nothing else but CQ's own registers and `cp`
changes. The text is R96 and the completion with HF idle is R139, which the spec marks as derived;
the form of PIXC is log entry 8. -/
def Obligations.CqRunQuantizesImage : Prop :=
  ∀ (s : State) (w h c : Half), ImageOperands s w h c →
    (∀ x y, x < w.toNat → y < h.toNat → (s.pixc.at? x y).isSome = true) →
    ∃ t, exec .cqRun s = .next t ∧
      t.out = s.out ++ arrayText c.toNat 4 (cqElements s.pixc w.toNat h.toNat) ∧
      (cqElements s.pixc w.toNat h.toNat).length = w.toNat * h.toNat ∧
      t.hf.state = .idle ∧ t.fmtOpen = false ∧ t.cqUsed = true ∧
      t = { s with out := t.out, hf := t.hf, cq := t.cq, fmtOpen := false, cqUsed := true,
                   cp := s.cp + 1 } ∧
      SameMemories s t

/-- R131, R136, R191: at the first pixel PIXC does not hold, in column-major walk order, CQ.RUN
faults SrcBounds; the elements before it stay in OUT, FMTOPEN and CQUSED are 1. -/
def Obligations.CqRunStopsAtMissingPixel : Prop :=
  ∀ (s : State) (w h c : Half) (x0 y0 : Nat), ImageOperands s w h c →
    x0 < w.toNat → y0 < h.toNat → s.pixc.at? x0 y0 = none →
    (∀ x y, y < h.toNat → (x < x0 ∨ (x = x0 ∧ y < y0)) → (s.pixc.at? x y).isSome = true) →
    ∃ t, exec .cqRun s = .next t ∧
      t.fault = true ∧ t.cause = 11 ∧ t.finfo.toNat = y0 * 65536 + x0 ∧ t.fcmd = s.currentWord ∧
      t.fmtOpen = true ∧ t.cqUsed = true ∧ t.hf.state = .opened ∧
      t.out = s.out ++ bodyText c.toNat 4 0
        ((cqElements s.pixc w.toNat h.toNat).take (x0 * h.toNat + y0)) ∧
      t = { s with out := t.out, hf := t.hf, cq := t.cq, fmtOpen := true, cqUsed := true,
                   fault := true, cause := t.cause, finfo := t.finfo, fcmd := t.fcmd } ∧
      SameMemories s t

/-- R133: the packed word bit field by bit field, as the formula, as a sum, and the examples. The
spec marks the sum and the bound as derived. -/
def Obligations.ColourPacking : Prop :=
  (∀ c : Rgb,
    (cqPack c).toNat = cqValue c.r.toNat c.g.toNat c.b.toNat ∧
    (cqPack c).extractLsb' 11 5 = c.r.extractLsb' 3 5 ∧
    (cqPack c).extractLsb' 5 6 = c.g.extractLsb' 2 6 ∧
    (cqPack c).extractLsb' 0 5 = c.b.extractLsb' 3 5 ∧
    (cqPack c).toNat = c.r.toNat / 8 * 2048 + c.g.toNat / 4 * 32 + c.b.toNat / 8 ∧
    (cqPack c).toNat ≤ 0xFFFF) ∧
  cqPack ⟨255, 255, 255⟩ = 0xFFFF ∧ cqPack ⟨255, 0, 0⟩ = 0xF800 ∧ cqPack ⟨0, 255, 0⟩ = 0x07E0 ∧
  cqPack ⟨0, 0, 255⟩ = 0x001F ∧ cqPack ⟨7, 3, 7⟩ = 0 ∧ cqPack ⟨8, 4, 8⟩ = 0x0821 ∧
  cqPack ⟨0x12, 0x34, 0x56⟩ = 0x11AA ∧ cqPack ⟨0x80, 0x80, 0x80⟩ = 0x8410

/-- R137: quantize, then expand by bit replication: the error is at most 7 for red and blue and at
most 3 for green, and both bounds are reached. The expansion is the spec's general knowledge G6 (log
entry 18), the maxima are marked as derived. -/
def Obligations.QuantizationErrorBound : Prop :=
  let err := fun a b : Byte => ((a.toNat : Int) - (b.toNat : Int)).natAbs
  let red := fun c : Rgb => err c.r (expand5 ((cqPack c).extractLsb' 11 5))
  let green := fun c : Rgb => err c.g (expand6 ((cqPack c).extractLsb' 5 6))
  let blue := fun c : Rgb => err c.b (expand5 ((cqPack c).extractLsb' 0 5))
  (∀ c : Rgb, red c ≤ 7 ∧ green c ≤ 3 ∧ blue c ≤ 7) ∧
  (∃ c : Rgb, red c = 7) ∧ (∃ c : Rgb, green c = 3) ∧ (∃ c : Rgb, blue c = 7)

/-- R112, R132: the element counts of BP.RUN and CQ.RUN always fit HF.TOTAL; the spec marks the
bounds as derived. -/
def Obligations.ImageCountsFit : Prop :=
  ∀ w h : Half,
    bpCount w.toNat h.toNat = (w.toNat + 7) / 8 * h.toNat ∧ bpCount w.toNat h.toNat ≤ 536862720 ∧
    cqCount w.toNat h.toNat = w.toNat * h.toNat ∧ cqCount w.toNat h.toNat ≤ 4294836225 ∧
    4294836225 < 2 ^ 32

/-! ### AR -/

/-- R146, R148, R149: AR.HDR of a file with the magic markers, whose fields lie inside WAV and whose
frame size is not 0, loads the six registers and changes nothing else but `cp`. That the two
computed values fit their registers is marked as derived in R149; that an open array does not matter
is log entry 23 (R146 against R52). -/
def Obligations.ArHdrLoadsRegisters : Prop :=
  ∀ s : State,
    let le := fun a n => s.wav.assemble a n
    MagicPresent s.wav → 36 ≤ s.wav.len.toNat → le 16 4 + 28 ≤ s.wav.len.toNat → le 32 2 ≠ 0 →
    ∃ t, exec .arHdr s = .next t ∧
      t.p.audChannels.map BitVec.toNat = some (le 22 2) ∧
      t.p.audBits.map BitVec.toNat = some (le 34 2) ∧
      t.p.audFrame.map BitVec.toNat = some (le 32 2) ∧
      t.p.audRate.map BitVec.toNat = some (le 24 4) ∧
      t.p.audNsamp.map BitVec.toNat = some (le (le 16 4 + 24) 4 / le 32 2) ∧
      t.p.audDataoff.map BitVec.toNat = some (le 16 4 + 28) ∧
      t = { s with
        p := { s.p with audChannels := t.p.audChannels, audBits := t.p.audBits,
                        audFrame := t.p.audFrame, audRate := t.p.audRate,
                        audNsamp := t.p.audNsamp, audDataoff := t.p.audDataoff },
        cp := s.cp + 1 } ∧
      SameMemories s t

/-- R146, R147, R194: the faults of AR.HDR in the order of its checks: the magic, each field in
turn, the zero frame size. That none is FmtState, even with an array open, is log entry 23. -/
def Obligations.ArHdrFaultsInOrder : Prop :=
  ∀ s : State,
    let n := s.wav.len.toNat
    let cs := s.wav.assemble 16 4
    let ends := fun (c : Cause) (info : Nat) =>
      ∃ t, exec .arHdr s = .next t ∧ FaultedOnly s t c info
    (¬ MagicPresent s.wav → ends .formatError 0) ∧
    (MagicPresent s.wav →
      (n < 20 → ends .srcBounds 16) ∧ (20 ≤ n → n < 24 → ends .srcBounds 22) ∧
      (24 ≤ n → n < 28 → ends .srcBounds 24) ∧ (28 ≤ n → n < 34 → ends .srcBounds 32) ∧
      (34 ≤ n → n < 36 → ends .srcBounds 34) ∧
      (36 ≤ n → n < cs + 28 → ends .srcBounds (cs + 24)) ∧
      (36 ≤ n → cs + 28 ≤ n → s.wav.assemble 32 2 = 0 → ends .divideByZero 7))

/-- R150: a faulting AR.HDR leaves every parameter register as it was; indeed it leaves everything
but the fault registers and FAULT. -/
def Obligations.ArHdrAllOrNothing : Prop :=
  ∀ s t : State, s.fault = false → exec .arHdr s = .next t → t.fault = true →
    t.p = s.p ∧
    t = { s with cause := t.cause, finfo := t.finfo, fcmd := t.fcmd, fault := true }

/-- R151, R152, R194: the up-front faults of AR.RUN in the order of its checks. The bound of
CountOverflow is marked as derived in R152. -/
def Obligations.ArRunFaultsInOrder : Prop :=
  ∀ s : State,
    let ends := fun (c : Cause) (info : Nat) =>
      ∃ t, exec .arRun s = .next t ∧ FaultedOnly s t c info
    (s.hf.state = .opened → ends .fmtState 0) ∧
    (s.hf.state = .idle →
      (s.p.audChannels = none → ends .unconfigured 5) ∧
      ∀ ch, s.p.audChannels = some ch →
        (s.p.audBits = none → ends .unconfigured 6) ∧
        ∀ bits, s.p.audBits = some bits →
          (s.p.audFrame = none → ends .unconfigured 7) ∧
          ∀ fr, s.p.audFrame = some fr →
            (s.p.audNsamp = none → ends .unconfigured 8) ∧
            ∀ n, s.p.audNsamp = some n →
              (s.p.audDataoff = none → ends .unconfigured 9) ∧
              ∀ off, s.p.audDataoff = some off →
                (s.p.audMode = none → ends .unconfigured 10) ∧
                ∀ mode, s.p.audMode = some mode →
                  (s.p.fmtCols = none → ends .unconfigured 2) ∧
                  ∀ c, s.p.fmtCols = some c →
                    (bits ≠ 8 → bits ≠ 16 → ends .unsupportedDepth bits.toNat) ∧
                    (bits = 8 ∨ bits = 16 →
                      (ch = 0 → ends .divideByZero 5) ∧
                      (ch ≠ 0 →
                        (n = 0 → ends .zeroCount 0) ∧
                        (bits = 16 → mode = 10 → 3435973836 < n.toNat →
                          ends .countOverflow 0))))

/-- R151, R157 to R160, R165, R168: on the 8-bit-output paths AR.RUN over samples WAV holds
completes; OUT gains the text of the elements `S(I) / D`, HF is idle, and nothing else but AR's own
registers and `cp` changes. The closed form is R165, which the spec marks as derived; the byte order
and the channel interleaving of samples are its general knowledge (log entry 18). -/
def Obligations.ArRunReducesToBytes : Prop :=
  ∀ (s : State) (q : AudioArgs), AudioOperands s q → arTen q.bits q.mode = false →
    (∀ i c, i < q.n.toNat → c < q.ch.toNat → SamplePresent s.wav q i c) →
    ∃ t, exec .arRun s = .next t ∧
      t.out = s.out ++ arrayText q.cols.toNat 2 (arByteElements s.wav q q.n.toNat) ∧
      (∀ i, i < q.n.toNat → arS s.wav q i / arD q ≤ 255) ∧
      t.hf.state = .idle ∧ t.fmtOpen = false ∧
      t = { s with out := t.out, hf := t.hf, ar := t.ar, fmtOpen := false, cp := s.cp + 1 } ∧
      SameMemories s t

/-- R151, R161 to R165, R168: on the 10-bit path AR.RUN over samples WAV holds completes; OUT gains
the text of the five-byte groups, the last one filled up with zero samples. The closed form is R165,
which the spec marks as derived; PARTIAL_GROUP is at its default (log entry 11), and the byte order
and interleaving of samples are the spec's general knowledge (log entry 18). -/
def Obligations.ArRunPacksTenBitGroups : Prop :=
  ∀ (s : State) (q : AudioArgs), AudioOperands s q → arTen q.bits q.mode = true →
    (∀ i c, i < q.n.toNat → c < q.ch.toNat → SamplePresent s.wav q i c) →
    ∃ t, exec .arRun s = .next t ∧
      t.out = s.out ++
        arrayText q.cols.toNat 2 (arGroupElements s.wav q (ceilDiv q.n.toNat 4)) ∧
      (arGroupElements s.wav q (ceilDiv q.n.toNat 4)).length = q.cnt ∧
      (∀ i, arV s.wav q i ≤ 1023) ∧
      t.hf.state = .idle ∧ t.fmtOpen = false ∧
      t = { s with out := t.out, hf := t.hf, ar := t.ar, fmtOpen := false, cp := s.cp + 1 } ∧
      SameMemories s t

/-- R151, R191: at the first sample WAV does not hold, in walk order, AR.RUN faults SrcBounds with
its truncated address; the elements of the frames, or of the full groups, before it stay in OUT and
the array stays open. The elements are R165's, which the spec marks as derived; log entry 18. -/
def Obligations.ArRunStopsAtMissingSample : Prop :=
  ∀ (s : State) (q : AudioArgs) (i0 c0 : Nat), AudioOperands s q →
    i0 < q.n.toNat → c0 < q.ch.toNat → ¬ SamplePresent s.wav q i0 c0 →
    (∀ i c, c < q.ch.toNat → (i < i0 ∨ (i = i0 ∧ c < c0)) → SamplePresent s.wav q i c) →
    ∃ t, exec .arRun s = .next t ∧
      t.fault = true ∧ t.cause = 11 ∧ t.finfo.toNat = arAddress q i0 c0 % 2 ^ 32 ∧
      t.fcmd = s.currentWord ∧ t.fmtOpen = true ∧ t.hf.state = .opened ∧
      t.out = s.out ++ bodyText q.cols.toNat 2 0
        (if arTen q.bits q.mode then arGroupElements s.wav q (i0 / 4)
          else arByteElements s.wav q i0) ∧
      t = { s with out := t.out, hf := t.hf, ar := t.ar, fmtOpen := true, fault := true,
                   cause := t.cause, finfo := t.finfo, fcmd := t.fcmd } ∧
      SameMemories s t

/-- R165, last sentence, which the spec marks as derived: every 10-bit sample is recovered from the
elements. -/
def Obligations.TenBitSamplesUnpack : Prop :=
  ∀ (m : Memory) (q : AudioArgs) (i : Nat), i < q.n.toNat → q.ch ≠ 0 → q.bits = 16 →
    let e := arGroupElements m q (ceilDiv q.n.toNat 4)
    arS m q i / (q.ch.toNat * 64) =
      (e[5 * (i / 4)]?.getD 0) / 2 ^ (6 - 2 * (i % 4)) % 4 * 256
        + e[5 * (i / 4) + 1 + i % 4]?.getD 0

/-- R153: the sign conversion in its three forms, its range, which the spec marks as derived, and the
examples. -/
def Obligations.SignConversion : Prop :=
  (∀ r : Half,
    unsignedSample r.toNat =
      (if 32768 ≤ r.toNat then r.toNat - 32768 else r.toNat + 32768) ∧
    unsignedSample r.toNat = (r ^^^ 0x8000).toNat ∧
    (unsignedSample r.toNat : Int) = r.toInt + 32768 ∧ unsignedSample r.toNat ≤ 65535) ∧
  unsignedSample 0x8000 = 0 ∧ unsignedSample 0 = 32768 ∧ unsignedSample 0x7FFF = 65535 ∧
  unsignedSample 0xFFFF = 32767

/-- R156, R159 to R161: the sum of a frame fits AR.SUM and every reduced value fits its cell; the spec
marks these bounds as derived. -/
def Obligations.ReducedValuesFit : Prop :=
  ∀ (m : Memory) (q : AudioArgs) (i : Nat), q.ch ≠ 0 →
    arS m q i < 2 ^ 32 ∧ (q.bits = 8 → arS m q i / q.ch.toNat ≤ 255) ∧
    arS m q i / (q.ch.toNat * 256) ≤ 255 ∧ arS m q i / (q.ch.toNat * 64) ≤ 1023

/-! ### Source memories -/

/-- R44: MemRead answers the little-endian number of the bytes, below `256^n`, when they all lie
inside WAV, and SrcBounds with the truncated address otherwise; an address of 2^32 or more is
always out of bounds. -/
def Obligations.MemReadIsLittleEndian : Prop :=
  ∀ (m : Memory) (addr n : Nat), n = 1 ∨ n = 2 ∨ n = 4 →
    (m.len.toNat < addr + n →
      m.memRead addr n = .error ⟨.srcBounds, BitVec.ofNat 32 (addr % 2 ^ 32)⟩) ∧
    (addr + n ≤ m.len.toNat →
      ∃ v, m.memRead addr n = .ok v ∧ v < 256 ^ n ∧
        v = ((List.range n).map fun k => ((m.byte? (addr + k)).getD 0).toNat * 256 ^ k).sum) ∧
    (2 ^ 32 ≤ addr → m.len.toNat < addr + n)

/-- R43: the WAV memory loaded from a file's bytes has WAVLEN of their number, holds each at its
address and nothing beyond, and is in the one form of a memory; the form is the model's (log entry
9). -/
def Obligations.LoadedFileReadsBack : Prop :=
  ∀ bs : List Byte, bs.length < 2 ^ 32 →
    (Memory.ofBytes bs).len.toNat = bs.length ∧ (Memory.ofBytes bs).wf = true ∧
    ∀ a, (Memory.ofBytes bs).byte? a = bs[a]?

/-- The host's write of one byte while it loads WAV (R202): that byte reads back, every other
address reads as before, and the form of the memory is kept. The operation is the model's, log
entry 9. -/
def Obligations.MemoryWriteReadsBack : Prop :=
  ∀ (m : Memory) (a : Nat) (b : Byte), m.wf = true → a < m.len.toNat →
    (m.write a b).wf = true ∧ (m.write a b).byte? a = some b ∧
    ∀ a', a' ≠ a → (m.write a b).byte? a' = m.byte? a'

/-- R41, R42: a pixel memory loaded from a decoder's grid is defined exactly on its rectangle; the
form `wf` is the model's (log entry 8). -/
def Obligations.LoadedGridReadsBack : Prop :=
  ∀ (w h : Nat) (f : Nat → Nat → Rgb) (g : Nat → Nat → Sample) (x y : Nat),
    (PixMem.ofGrid w h f).at? x y = (if x < w ∧ y < h then some (f x y) else none) ∧
    (PixMem.ofGrid w h g).at? x y = (if x < w ∧ y < h then some (g x y) else none) ∧
    (PixMem.ofGrid w h f).wf = true ∧ (PixMem.ofGrid w h g).wf = true

/-! ### Lines of the assembler -/

/-- R66, line by line, for all eight mnemonics: a line, with or without a comment after it, assembles
to the word of R66's table, with the register's index and the number in their places; an operand
outside the stated range is refused, not truncated; and a number is read as decimal, or as
hexadecimal after `0x`. Log entry 17 (DESIGN CHOICE) names what R66 leaves open and these lines fix:
that an empty line and a line of a comment alone are accepted and have no word, the blanks shown,
the comma as a word of its own, which texts `asmNumber` takes beyond those of the last clause, and
which refusal is reported. -/
def Obligations.AssemblerLines : Prop :=
  ∀ (reg num comment : List Char) (p : RegIndex) (n : Nat),
    asmRegisters.lookup reg = some p → asmNumber num = some n →
    (comment = [] ∨ ∃ text, comment = ';' :: text) →
    (assembleLine (['S', 'E', 'T', 'P', ' '] ++ reg ++ [',', ' '] ++ num ++ comment) =
      if 11 < p.toNat then .error .register
      else if n < 2 ^ 24 then .ok (some (BitVec.ofNat 32 (0x10000000 + p.toNat * 2 ^ 24 + n)))
      else .error .range) ∧
    (assembleLine (['G', 'E', 'T', 'P', ' '] ++ reg ++ comment) =
      .ok (some (BitVec.ofNat 32 (0x20000000 + p.toNat * 2 ^ 24)))) ∧
    (assembleLine (['F', 'M', 'T', '.', 'W', 'R', 'I', 'T', 'E', ' '] ++ num ++ comment) =
      if n < 2 ^ 16 then .ok (some (BitVec.ofNat 32 (0x31000000 + n))) else .error .range) ∧
    assembleLine (['F', 'M', 'T', '.', 'O', 'P', 'E', 'N'] ++ comment) = .ok (some 0x30000000) ∧
    assembleLine (['B', 'P', '.', 'R', 'U', 'N'] ++ comment) = .ok (some 0x40000000) ∧
    assembleLine (['C', 'Q', '.', 'R', 'U', 'N'] ++ comment) = .ok (some 0x50000000) ∧
    assembleLine (['A', 'R', '.', 'H', 'D', 'R'] ++ comment) = .ok (some 0x60000000) ∧
    assembleLine (['A', 'R', '.', 'R', 'U', 'N'] ++ comment) = .ok (some 0x61000000) ∧
    assembleLine comment = .ok none ∧
    (∀ k : Nat, asmNumber (Nat.toDigits 10 k) = some k ∧
      asmNumber ('0' :: 'x' :: Nat.toDigits 16 k) = some k)

/-! ### Inside an open array -/

/-- R52, R184: while an array is open, no command but FMT.WRITE emits to OUT or touches HF and
FMTOPEN; FMT.OPEN and the RUN commands fault FmtState and change nothing else; so besides FMT.WRITE
only SETP, GETP and AR.HDR can complete. R52 names SETP and GETP alone: that AR.HDR is among them is
R146, log entry 23 (DESIGN CHOICE). -/
def Obligations.OpenArrayBodyIsContiguous : Prop :=
  ∀ (s t : State) (i : Instr), s.hf.state = .opened → exec i s = .next t →
    ((∀ v, i ≠ .fmtWrite v) → t.out = s.out ∧ t.hf = s.hf ∧ t.fmtOpen = s.fmtOpen) ∧
    (i = .fmtOpen ∨ i = .bpRun ∨ i = .cqRun ∨ i = .arRun → FaultedOnly s t .fmtState 0) ∧
    (t.fault = false →
      (∃ p imm, i = .setp p imm) ∨ (∃ p, i = .getp p) ∨ (∃ v, i = .fmtWrite v) ∨ i = .arHdr)
end

