-- ==== Sys2Proof/Laws/Assembler.lean ====
section
/-! SUPPORT. How a line of R66 falls into words: what `asmWords` does with a word, a blank, a comma
and a comment, and which characters register names and numbers are made of. -/

namespace Sys2Proof.Machine

/-- A character that belongs to a word: no blank, no comma, no comment sign. -/
def asmPlain (c : Char) : Prop := c ≠ ';' ∧ c ≠ ' ' ∧ c ≠ '\t' ∧ c ≠ ','

theorem asmWord_ne_nil {w : List Char} (h : w ≠ []) : asmWord w = [w] := by simp [asmWord, h]

@[simp] theorem asmWord_nil : asmWord [] = [] := rfl

/-- Characters of a word are collected. -/
theorem asmWords_plain {l : List Char} (h : ∀ c ∈ l, asmPlain c) :
    ∀ (w rest : List Char), asmWords w (l ++ rest) = asmWords (w ++ l) rest := by
  induction l with
  | nil => intro w rest; simp
  | cons c l ih =>
    intro w rest
    obtain ⟨h1, h2, h3, h4⟩ := h c (by simp)
    simp only [List.cons_append, asmWords, h1, h2, h3, h4, or_self, if_false]
    rw [ih fun x hx => h x (by simp [hx])]
    simp

@[simp] theorem asmWords_nil (w : List Char) : asmWords w [] = asmWord w := rfl

@[simp] theorem asmWords_space (w rest : List Char) :
    asmWords w (' ' :: rest) = asmWord w ++ asmWords [] rest := by simp [asmWords]

@[simp] theorem asmWords_comma (w rest : List Char) :
    asmWords w (',' :: rest) = asmWord w ++ [','] :: asmWords [] rest := by simp [asmWords]

@[simp] theorem asmWords_comment (w rest : List Char) :
    asmWords w (';' :: rest) = asmWord w := by simp [asmWords]

/-- A comment, or nothing, ends the word before it. -/
theorem asmWords_end {w e : List Char} (h : e = [] ∨ ∃ t, e = ';' :: t) :
    asmWords w e = asmWord w := by
  rcases h with rfl | ⟨t, rfl⟩ <;> simp

/-- The name of a register is one word, and its index is at most 14 (R12, R14). -/
theorem asmRegisters_word {reg : List Char} {p : RegIndex}
    (h : asmRegisters.lookup reg = some p) :
    reg ≠ [] ∧ (∀ c ∈ reg, asmPlain c) ∧ p.toNat ≤ 14 := by
  have key : ∀ e ∈ asmRegisters, e.1 ≠ [] ∧ (∀ c ∈ e.1, asmPlain c) ∧ e.2.toNat ≤ 14 := by
    simp [asmRegisters, asmPlain]
  obtain ⟨l, m, he, -⟩ := List.lookup_eq_some_iff.mp h
  exact key (reg, p) (by simp [he])

/-- A digit is part of a word. -/
theorem asmPlain_of_digit {c : Char} {d : Nat} (h : asmDigit c = some d) : asmPlain c := by
  refine ⟨?_, ?_, ?_, ?_⟩ <;> rintro rfl <;> simp [asmDigit] at h

theorem asmDigits_plain {base : Nat} {l : List Char} :
    ∀ {acc n : Nat}, asmDigits base acc l = some n → ∀ c ∈ l, asmPlain c := by
  induction l with
  | nil => intro acc n _ c hc; simp at hc
  | cons x l ih =>
    intro acc n h c hc
    simp only [asmDigits] at h
    split at h
    · rename_i d hd
      split at h
      · rcases List.mem_cons.mp hc with rfl | hc
        · exact asmPlain_of_digit hd
        · exact ih h c hc
      · simp at h
    · simp at h

/-- A number is one word. -/
theorem asmNumber_word {num : List Char} {n : Nat} (h : asmNumber num = some n) :
    num ≠ [] ∧ ∀ c ∈ num, asmPlain c := by
  unfold asmNumber at h
  split at h
  · refine ⟨by simp, fun x hx => ?_⟩
    rcases List.mem_cons.mp hx with rfl | hx
    · unfold asmPlain; decide
    · rcases List.mem_cons.mp hx with rfl | hx
      · unfold asmPlain; decide
      · exact asmDigits_plain h x hx
  · exact ⟨by simp, asmDigits_plain h⟩
  · simp at h

end Sys2Proof.Machine
end

