-- ==== Sys2Proof/Laws/State.lean ====
section
/-! SUPPORT. Every update of the state, field by field, so that no later proof unfolds a record
update. -/

namespace Sys2Proof.Machine

variable (s : State)

/-! `State.setFmtOpen` -/

@[simp] theorem State.setFmtOpen_cp (b : Bool) : (s.setFmtOpen b).cp = s.cp := rfl
@[simp] theorem State.setFmtOpen_p (b : Bool) : (s.setFmtOpen b).p = s.p := rfl
@[simp] theorem State.setFmtOpen_fault (b : Bool) : (s.setFmtOpen b).fault = s.fault := rfl
@[simp] theorem State.setFmtOpen_fmtOpen (b : Bool) : (s.setFmtOpen b).fmtOpen = b := rfl
@[simp] theorem State.setFmtOpen_cqUsed (b : Bool) : (s.setFmtOpen b).cqUsed = s.cqUsed := rfl
@[simp] theorem State.setFmtOpen_cause (b : Bool) : (s.setFmtOpen b).cause = s.cause := rfl
@[simp] theorem State.setFmtOpen_finfo (b : Bool) : (s.setFmtOpen b).finfo = s.finfo := rfl
@[simp] theorem State.setFmtOpen_fcmd (b : Bool) : (s.setFmtOpen b).fcmd = s.fcmd := rfl
@[simp] theorem State.setFmtOpen_hf (b : Bool) : (s.setFmtOpen b).hf = s.hf := rfl
@[simp] theorem State.setFmtOpen_bp (b : Bool) : (s.setFmtOpen b).bp = s.bp := rfl
@[simp] theorem State.setFmtOpen_cq (b : Bool) : (s.setFmtOpen b).cq = s.cq := rfl
@[simp] theorem State.setFmtOpen_ar (b : Bool) : (s.setFmtOpen b).ar = s.ar := rfl
@[simp] theorem State.setFmtOpen_out (b : Bool) : (s.setFmtOpen b).out = s.out := rfl
@[simp] theorem State.setFmtOpen_rsp (b : Bool) : (s.setFmtOpen b).rsp = s.rsp := rfl
@[simp] theorem State.setFmtOpen_cmd (b : Bool) : (s.setFmtOpen b).cmd = s.cmd := rfl
@[simp] theorem State.setFmtOpen_pixm (b : Bool) : (s.setFmtOpen b).pixm = s.pixm := rfl
@[simp] theorem State.setFmtOpen_pixc (b : Bool) : (s.setFmtOpen b).pixc = s.pixc := rfl
@[simp] theorem State.setFmtOpen_wav (b : Bool) : (s.setFmtOpen b).wav = s.wav := rfl

/-! `State.setCqUsed` -/

@[simp] theorem State.setCqUsed_cp (b : Bool) : (s.setCqUsed b).cp = s.cp := rfl
@[simp] theorem State.setCqUsed_p (b : Bool) : (s.setCqUsed b).p = s.p := rfl
@[simp] theorem State.setCqUsed_fault (b : Bool) : (s.setCqUsed b).fault = s.fault := rfl
@[simp] theorem State.setCqUsed_fmtOpen (b : Bool) : (s.setCqUsed b).fmtOpen = s.fmtOpen := rfl
@[simp] theorem State.setCqUsed_cqUsed (b : Bool) : (s.setCqUsed b).cqUsed = b := rfl
@[simp] theorem State.setCqUsed_cause (b : Bool) : (s.setCqUsed b).cause = s.cause := rfl
@[simp] theorem State.setCqUsed_finfo (b : Bool) : (s.setCqUsed b).finfo = s.finfo := rfl
@[simp] theorem State.setCqUsed_fcmd (b : Bool) : (s.setCqUsed b).fcmd = s.fcmd := rfl
@[simp] theorem State.setCqUsed_hf (b : Bool) : (s.setCqUsed b).hf = s.hf := rfl
@[simp] theorem State.setCqUsed_bp (b : Bool) : (s.setCqUsed b).bp = s.bp := rfl
@[simp] theorem State.setCqUsed_cq (b : Bool) : (s.setCqUsed b).cq = s.cq := rfl
@[simp] theorem State.setCqUsed_ar (b : Bool) : (s.setCqUsed b).ar = s.ar := rfl
@[simp] theorem State.setCqUsed_out (b : Bool) : (s.setCqUsed b).out = s.out := rfl
@[simp] theorem State.setCqUsed_rsp (b : Bool) : (s.setCqUsed b).rsp = s.rsp := rfl
@[simp] theorem State.setCqUsed_cmd (b : Bool) : (s.setCqUsed b).cmd = s.cmd := rfl
@[simp] theorem State.setCqUsed_pixm (b : Bool) : (s.setCqUsed b).pixm = s.pixm := rfl
@[simp] theorem State.setCqUsed_pixc (b : Bool) : (s.setCqUsed b).pixc = s.pixc := rfl
@[simp] theorem State.setCqUsed_wav (b : Bool) : (s.setCqUsed b).wav = s.wav := rfl

/-! `State.setParams` -/

@[simp] theorem State.setParams_cp (q : Params) : (s.setParams q).cp = s.cp := rfl
@[simp] theorem State.setParams_p (q : Params) : (s.setParams q).p = q := rfl
@[simp] theorem State.setParams_fault (q : Params) : (s.setParams q).fault = s.fault := rfl
@[simp] theorem State.setParams_fmtOpen (q : Params) : (s.setParams q).fmtOpen = s.fmtOpen := rfl
@[simp] theorem State.setParams_cqUsed (q : Params) : (s.setParams q).cqUsed = s.cqUsed := rfl
@[simp] theorem State.setParams_cause (q : Params) : (s.setParams q).cause = s.cause := rfl
@[simp] theorem State.setParams_finfo (q : Params) : (s.setParams q).finfo = s.finfo := rfl
@[simp] theorem State.setParams_fcmd (q : Params) : (s.setParams q).fcmd = s.fcmd := rfl
@[simp] theorem State.setParams_hf (q : Params) : (s.setParams q).hf = s.hf := rfl
@[simp] theorem State.setParams_bp (q : Params) : (s.setParams q).bp = s.bp := rfl
@[simp] theorem State.setParams_cq (q : Params) : (s.setParams q).cq = s.cq := rfl
@[simp] theorem State.setParams_ar (q : Params) : (s.setParams q).ar = s.ar := rfl
@[simp] theorem State.setParams_out (q : Params) : (s.setParams q).out = s.out := rfl
@[simp] theorem State.setParams_rsp (q : Params) : (s.setParams q).rsp = s.rsp := rfl
@[simp] theorem State.setParams_cmd (q : Params) : (s.setParams q).cmd = s.cmd := rfl
@[simp] theorem State.setParams_pixm (q : Params) : (s.setParams q).pixm = s.pixm := rfl
@[simp] theorem State.setParams_pixc (q : Params) : (s.setParams q).pixc = s.pixc := rfl
@[simp] theorem State.setParams_wav (q : Params) : (s.setParams q).wav = s.wav := rfl

/-! `State.setHf` -/

@[simp] theorem State.setHf_cp (h : Formatter) : (s.setHf h).cp = s.cp := rfl
@[simp] theorem State.setHf_p (h : Formatter) : (s.setHf h).p = s.p := rfl
@[simp] theorem State.setHf_fault (h : Formatter) : (s.setHf h).fault = s.fault := rfl
@[simp] theorem State.setHf_fmtOpen (h : Formatter) : (s.setHf h).fmtOpen = s.fmtOpen := rfl
@[simp] theorem State.setHf_cqUsed (h : Formatter) : (s.setHf h).cqUsed = s.cqUsed := rfl
@[simp] theorem State.setHf_cause (h : Formatter) : (s.setHf h).cause = s.cause := rfl
@[simp] theorem State.setHf_finfo (h : Formatter) : (s.setHf h).finfo = s.finfo := rfl
@[simp] theorem State.setHf_fcmd (h : Formatter) : (s.setHf h).fcmd = s.fcmd := rfl
@[simp] theorem State.setHf_hf (h : Formatter) : (s.setHf h).hf = h := rfl
@[simp] theorem State.setHf_bp (h : Formatter) : (s.setHf h).bp = s.bp := rfl
@[simp] theorem State.setHf_cq (h : Formatter) : (s.setHf h).cq = s.cq := rfl
@[simp] theorem State.setHf_ar (h : Formatter) : (s.setHf h).ar = s.ar := rfl
@[simp] theorem State.setHf_out (h : Formatter) : (s.setHf h).out = s.out := rfl
@[simp] theorem State.setHf_rsp (h : Formatter) : (s.setHf h).rsp = s.rsp := rfl
@[simp] theorem State.setHf_cmd (h : Formatter) : (s.setHf h).cmd = s.cmd := rfl
@[simp] theorem State.setHf_pixm (h : Formatter) : (s.setHf h).pixm = s.pixm := rfl
@[simp] theorem State.setHf_pixc (h : Formatter) : (s.setHf h).pixc = s.pixc := rfl
@[simp] theorem State.setHf_wav (h : Formatter) : (s.setHf h).wav = s.wav := rfl

/-! `State.setBp` -/

@[simp] theorem State.setBp_cp (b : Packer) : (s.setBp b).cp = s.cp := rfl
@[simp] theorem State.setBp_p (b : Packer) : (s.setBp b).p = s.p := rfl
@[simp] theorem State.setBp_fault (b : Packer) : (s.setBp b).fault = s.fault := rfl
@[simp] theorem State.setBp_fmtOpen (b : Packer) : (s.setBp b).fmtOpen = s.fmtOpen := rfl
@[simp] theorem State.setBp_cqUsed (b : Packer) : (s.setBp b).cqUsed = s.cqUsed := rfl
@[simp] theorem State.setBp_cause (b : Packer) : (s.setBp b).cause = s.cause := rfl
@[simp] theorem State.setBp_finfo (b : Packer) : (s.setBp b).finfo = s.finfo := rfl
@[simp] theorem State.setBp_fcmd (b : Packer) : (s.setBp b).fcmd = s.fcmd := rfl
@[simp] theorem State.setBp_hf (b : Packer) : (s.setBp b).hf = s.hf := rfl
@[simp] theorem State.setBp_bp (b : Packer) : (s.setBp b).bp = b := rfl
@[simp] theorem State.setBp_cq (b : Packer) : (s.setBp b).cq = s.cq := rfl
@[simp] theorem State.setBp_ar (b : Packer) : (s.setBp b).ar = s.ar := rfl
@[simp] theorem State.setBp_out (b : Packer) : (s.setBp b).out = s.out := rfl
@[simp] theorem State.setBp_rsp (b : Packer) : (s.setBp b).rsp = s.rsp := rfl
@[simp] theorem State.setBp_cmd (b : Packer) : (s.setBp b).cmd = s.cmd := rfl
@[simp] theorem State.setBp_pixm (b : Packer) : (s.setBp b).pixm = s.pixm := rfl
@[simp] theorem State.setBp_pixc (b : Packer) : (s.setBp b).pixc = s.pixc := rfl
@[simp] theorem State.setBp_wav (b : Packer) : (s.setBp b).wav = s.wav := rfl

/-! `State.setCq` -/

@[simp] theorem State.setCq_cp (q : Quantizer) : (s.setCq q).cp = s.cp := rfl
@[simp] theorem State.setCq_p (q : Quantizer) : (s.setCq q).p = s.p := rfl
@[simp] theorem State.setCq_fault (q : Quantizer) : (s.setCq q).fault = s.fault := rfl
@[simp] theorem State.setCq_fmtOpen (q : Quantizer) : (s.setCq q).fmtOpen = s.fmtOpen := rfl
@[simp] theorem State.setCq_cqUsed (q : Quantizer) : (s.setCq q).cqUsed = s.cqUsed := rfl
@[simp] theorem State.setCq_cause (q : Quantizer) : (s.setCq q).cause = s.cause := rfl
@[simp] theorem State.setCq_finfo (q : Quantizer) : (s.setCq q).finfo = s.finfo := rfl
@[simp] theorem State.setCq_fcmd (q : Quantizer) : (s.setCq q).fcmd = s.fcmd := rfl
@[simp] theorem State.setCq_hf (q : Quantizer) : (s.setCq q).hf = s.hf := rfl
@[simp] theorem State.setCq_bp (q : Quantizer) : (s.setCq q).bp = s.bp := rfl
@[simp] theorem State.setCq_cq (q : Quantizer) : (s.setCq q).cq = q := rfl
@[simp] theorem State.setCq_ar (q : Quantizer) : (s.setCq q).ar = s.ar := rfl
@[simp] theorem State.setCq_out (q : Quantizer) : (s.setCq q).out = s.out := rfl
@[simp] theorem State.setCq_rsp (q : Quantizer) : (s.setCq q).rsp = s.rsp := rfl
@[simp] theorem State.setCq_cmd (q : Quantizer) : (s.setCq q).cmd = s.cmd := rfl
@[simp] theorem State.setCq_pixm (q : Quantizer) : (s.setCq q).pixm = s.pixm := rfl
@[simp] theorem State.setCq_pixc (q : Quantizer) : (s.setCq q).pixc = s.pixc := rfl
@[simp] theorem State.setCq_wav (q : Quantizer) : (s.setCq q).wav = s.wav := rfl

/-! `State.setAr` -/

@[simp] theorem State.setAr_cp (a : Reducer) : (s.setAr a).cp = s.cp := rfl
@[simp] theorem State.setAr_p (a : Reducer) : (s.setAr a).p = s.p := rfl
@[simp] theorem State.setAr_fault (a : Reducer) : (s.setAr a).fault = s.fault := rfl
@[simp] theorem State.setAr_fmtOpen (a : Reducer) : (s.setAr a).fmtOpen = s.fmtOpen := rfl
@[simp] theorem State.setAr_cqUsed (a : Reducer) : (s.setAr a).cqUsed = s.cqUsed := rfl
@[simp] theorem State.setAr_cause (a : Reducer) : (s.setAr a).cause = s.cause := rfl
@[simp] theorem State.setAr_finfo (a : Reducer) : (s.setAr a).finfo = s.finfo := rfl
@[simp] theorem State.setAr_fcmd (a : Reducer) : (s.setAr a).fcmd = s.fcmd := rfl
@[simp] theorem State.setAr_hf (a : Reducer) : (s.setAr a).hf = s.hf := rfl
@[simp] theorem State.setAr_bp (a : Reducer) : (s.setAr a).bp = s.bp := rfl
@[simp] theorem State.setAr_cq (a : Reducer) : (s.setAr a).cq = s.cq := rfl
@[simp] theorem State.setAr_ar (a : Reducer) : (s.setAr a).ar = a := rfl
@[simp] theorem State.setAr_out (a : Reducer) : (s.setAr a).out = s.out := rfl
@[simp] theorem State.setAr_rsp (a : Reducer) : (s.setAr a).rsp = s.rsp := rfl
@[simp] theorem State.setAr_cmd (a : Reducer) : (s.setAr a).cmd = s.cmd := rfl
@[simp] theorem State.setAr_pixm (a : Reducer) : (s.setAr a).pixm = s.pixm := rfl
@[simp] theorem State.setAr_pixc (a : Reducer) : (s.setAr a).pixc = s.pixc := rfl
@[simp] theorem State.setAr_wav (a : Reducer) : (s.setAr a).wav = s.wav := rfl

/-! `State.emit` -/

@[simp] theorem State.emit_cp (cs : List Byte) : (s.emit cs).cp = s.cp := rfl
@[simp] theorem State.emit_p (cs : List Byte) : (s.emit cs).p = s.p := rfl
@[simp] theorem State.emit_fault (cs : List Byte) : (s.emit cs).fault = s.fault := rfl
@[simp] theorem State.emit_fmtOpen (cs : List Byte) : (s.emit cs).fmtOpen = s.fmtOpen := rfl
@[simp] theorem State.emit_cqUsed (cs : List Byte) : (s.emit cs).cqUsed = s.cqUsed := rfl
@[simp] theorem State.emit_cause (cs : List Byte) : (s.emit cs).cause = s.cause := rfl
@[simp] theorem State.emit_finfo (cs : List Byte) : (s.emit cs).finfo = s.finfo := rfl
@[simp] theorem State.emit_fcmd (cs : List Byte) : (s.emit cs).fcmd = s.fcmd := rfl
@[simp] theorem State.emit_hf (cs : List Byte) : (s.emit cs).hf = s.hf := rfl
@[simp] theorem State.emit_bp (cs : List Byte) : (s.emit cs).bp = s.bp := rfl
@[simp] theorem State.emit_cq (cs : List Byte) : (s.emit cs).cq = s.cq := rfl
@[simp] theorem State.emit_ar (cs : List Byte) : (s.emit cs).ar = s.ar := rfl
@[simp] theorem State.emit_out (cs : List Byte) : (s.emit cs).out = s.out ++ cs := rfl
@[simp] theorem State.emit_rsp (cs : List Byte) : (s.emit cs).rsp = s.rsp := rfl
@[simp] theorem State.emit_cmd (cs : List Byte) : (s.emit cs).cmd = s.cmd := rfl
@[simp] theorem State.emit_pixm (cs : List Byte) : (s.emit cs).pixm = s.pixm := rfl
@[simp] theorem State.emit_pixc (cs : List Byte) : (s.emit cs).pixc = s.pixc := rfl
@[simp] theorem State.emit_wav (cs : List Byte) : (s.emit cs).wav = s.wav := rfl

/-! `State.respond` -/

@[simp] theorem State.respond_cp (v : Word) : (s.respond v).cp = s.cp := rfl
@[simp] theorem State.respond_p (v : Word) : (s.respond v).p = s.p := rfl
@[simp] theorem State.respond_fault (v : Word) : (s.respond v).fault = s.fault := rfl
@[simp] theorem State.respond_fmtOpen (v : Word) : (s.respond v).fmtOpen = s.fmtOpen := rfl
@[simp] theorem State.respond_cqUsed (v : Word) : (s.respond v).cqUsed = s.cqUsed := rfl
@[simp] theorem State.respond_cause (v : Word) : (s.respond v).cause = s.cause := rfl
@[simp] theorem State.respond_finfo (v : Word) : (s.respond v).finfo = s.finfo := rfl
@[simp] theorem State.respond_fcmd (v : Word) : (s.respond v).fcmd = s.fcmd := rfl
@[simp] theorem State.respond_hf (v : Word) : (s.respond v).hf = s.hf := rfl
@[simp] theorem State.respond_bp (v : Word) : (s.respond v).bp = s.bp := rfl
@[simp] theorem State.respond_cq (v : Word) : (s.respond v).cq = s.cq := rfl
@[simp] theorem State.respond_ar (v : Word) : (s.respond v).ar = s.ar := rfl
@[simp] theorem State.respond_out (v : Word) : (s.respond v).out = s.out := rfl
@[simp] theorem State.respond_rsp (v : Word) : (s.respond v).rsp = s.rsp ++ [v] := rfl
@[simp] theorem State.respond_cmd (v : Word) : (s.respond v).cmd = s.cmd := rfl
@[simp] theorem State.respond_pixm (v : Word) : (s.respond v).pixm = s.pixm := rfl
@[simp] theorem State.respond_pixc (v : Word) : (s.respond v).pixc = s.pixc := rfl
@[simp] theorem State.respond_wav (v : Word) : (s.respond v).wav = s.wav := rfl

/-! `State.advance` -/

@[simp] theorem State.advance_cp : (s.advance).cp = s.cp + 1 := rfl
@[simp] theorem State.advance_p : (s.advance).p = s.p := rfl
@[simp] theorem State.advance_fault : (s.advance).fault = s.fault := rfl
@[simp] theorem State.advance_fmtOpen : (s.advance).fmtOpen = s.fmtOpen := rfl
@[simp] theorem State.advance_cqUsed : (s.advance).cqUsed = s.cqUsed := rfl
@[simp] theorem State.advance_cause : (s.advance).cause = s.cause := rfl
@[simp] theorem State.advance_finfo : (s.advance).finfo = s.finfo := rfl
@[simp] theorem State.advance_fcmd : (s.advance).fcmd = s.fcmd := rfl
@[simp] theorem State.advance_hf : (s.advance).hf = s.hf := rfl
@[simp] theorem State.advance_bp : (s.advance).bp = s.bp := rfl
@[simp] theorem State.advance_cq : (s.advance).cq = s.cq := rfl
@[simp] theorem State.advance_ar : (s.advance).ar = s.ar := rfl
@[simp] theorem State.advance_out : (s.advance).out = s.out := rfl
@[simp] theorem State.advance_rsp : (s.advance).rsp = s.rsp := rfl
@[simp] theorem State.advance_cmd : (s.advance).cmd = s.cmd := rfl
@[simp] theorem State.advance_pixm : (s.advance).pixm = s.pixm := rfl
@[simp] theorem State.advance_pixc : (s.advance).pixc = s.pixc := rfl
@[simp] theorem State.advance_wav : (s.advance).wav = s.wav := rfl

/-! `State.takeFault` -/

@[simp] theorem State.takeFault_cp (e : Exc) : (s.takeFault e).cp = s.cp := rfl
@[simp] theorem State.takeFault_p (e : Exc) : (s.takeFault e).p = s.p := rfl
@[simp] theorem State.takeFault_fault (e : Exc) : (s.takeFault e).fault = true := rfl
@[simp] theorem State.takeFault_fmtOpen (e : Exc) : (s.takeFault e).fmtOpen = s.fmtOpen := rfl
@[simp] theorem State.takeFault_cqUsed (e : Exc) : (s.takeFault e).cqUsed = s.cqUsed := rfl
@[simp] theorem State.takeFault_cause (e : Exc) : (s.takeFault e).cause = causeCode e.cause := rfl
@[simp] theorem State.takeFault_finfo (e : Exc) : (s.takeFault e).finfo = e.info := rfl
@[simp] theorem State.takeFault_fcmd (e : Exc) : (s.takeFault e).fcmd = s.currentWord := rfl
@[simp] theorem State.takeFault_hf (e : Exc) : (s.takeFault e).hf = s.hf := rfl
@[simp] theorem State.takeFault_bp (e : Exc) : (s.takeFault e).bp = s.bp := rfl
@[simp] theorem State.takeFault_cq (e : Exc) : (s.takeFault e).cq = s.cq := rfl
@[simp] theorem State.takeFault_ar (e : Exc) : (s.takeFault e).ar = s.ar := rfl
@[simp] theorem State.takeFault_out (e : Exc) : (s.takeFault e).out = s.out := rfl
@[simp] theorem State.takeFault_rsp (e : Exc) : (s.takeFault e).rsp = s.rsp := rfl
@[simp] theorem State.takeFault_cmd (e : Exc) : (s.takeFault e).cmd = s.cmd := rfl
@[simp] theorem State.takeFault_pixm (e : Exc) : (s.takeFault e).pixm = s.pixm := rfl
@[simp] theorem State.takeFault_pixc (e : Exc) : (s.takeFault e).pixc = s.pixc := rfl
@[simp] theorem State.takeFault_wav (e : Exc) : (s.takeFault e).wav = s.wav := rfl

/-! `State.load` -/

@[simp] theorem State.load_cp (cmd : List Word) (pm : PixMem Sample) (pc : PixMem Rgb) (m : Memory) :
    (s.load cmd pm pc m).cp = s.cp := rfl
@[simp] theorem State.load_p (cmd : List Word) (pm : PixMem Sample) (pc : PixMem Rgb) (m : Memory) :
    (s.load cmd pm pc m).p = s.p := rfl
@[simp] theorem State.load_fault (cmd : List Word) (pm : PixMem Sample) (pc : PixMem Rgb) (m : Memory) :
    (s.load cmd pm pc m).fault = s.fault := rfl
@[simp] theorem State.load_fmtOpen (cmd : List Word) (pm : PixMem Sample) (pc : PixMem Rgb) (m : Memory) :
    (s.load cmd pm pc m).fmtOpen = s.fmtOpen := rfl
@[simp] theorem State.load_cqUsed (cmd : List Word) (pm : PixMem Sample) (pc : PixMem Rgb) (m : Memory) :
    (s.load cmd pm pc m).cqUsed = s.cqUsed := rfl
@[simp] theorem State.load_cause (cmd : List Word) (pm : PixMem Sample) (pc : PixMem Rgb) (m : Memory) :
    (s.load cmd pm pc m).cause = s.cause := rfl
@[simp] theorem State.load_finfo (cmd : List Word) (pm : PixMem Sample) (pc : PixMem Rgb) (m : Memory) :
    (s.load cmd pm pc m).finfo = s.finfo := rfl
@[simp] theorem State.load_fcmd (cmd : List Word) (pm : PixMem Sample) (pc : PixMem Rgb) (m : Memory) :
    (s.load cmd pm pc m).fcmd = s.fcmd := rfl
@[simp] theorem State.load_hf (cmd : List Word) (pm : PixMem Sample) (pc : PixMem Rgb) (m : Memory) :
    (s.load cmd pm pc m).hf = s.hf := rfl
@[simp] theorem State.load_bp (cmd : List Word) (pm : PixMem Sample) (pc : PixMem Rgb) (m : Memory) :
    (s.load cmd pm pc m).bp = s.bp := rfl
@[simp] theorem State.load_cq (cmd : List Word) (pm : PixMem Sample) (pc : PixMem Rgb) (m : Memory) :
    (s.load cmd pm pc m).cq = s.cq := rfl
@[simp] theorem State.load_ar (cmd : List Word) (pm : PixMem Sample) (pc : PixMem Rgb) (m : Memory) :
    (s.load cmd pm pc m).ar = s.ar := rfl
@[simp] theorem State.load_out (cmd : List Word) (pm : PixMem Sample) (pc : PixMem Rgb) (m : Memory) :
    (s.load cmd pm pc m).out = s.out := rfl
@[simp] theorem State.load_rsp (cmd : List Word) (pm : PixMem Sample) (pc : PixMem Rgb) (m : Memory) :
    (s.load cmd pm pc m).rsp = s.rsp := rfl
@[simp] theorem State.load_cmd (cmd : List Word) (pm : PixMem Sample) (pc : PixMem Rgb) (m : Memory) :
    (s.load cmd pm pc m).cmd = cmd := rfl
@[simp] theorem State.load_pixm (cmd : List Word) (pm : PixMem Sample) (pc : PixMem Rgb) (m : Memory) :
    (s.load cmd pm pc m).pixm = pm := rfl
@[simp] theorem State.load_pixc (cmd : List Word) (pm : PixMem Sample) (pc : PixMem Rgb) (m : Memory) :
    (s.load cmd pm pc m).pixc = pc := rfl
@[simp] theorem State.load_wav (cmd : List Word) (pm : PixMem Sample) (pc : PixMem Rgb) (m : Memory) :
    (s.load cmd pm pc m).wav = m := rfl

/-! `State.hostReset` -/

@[simp] theorem State.hostReset_cp : s.hostReset.cp = State.reset.cp := rfl
@[simp] theorem State.hostReset_p : s.hostReset.p = State.reset.p := rfl
@[simp] theorem State.hostReset_fault : s.hostReset.fault = State.reset.fault := rfl
@[simp] theorem State.hostReset_fmtOpen : s.hostReset.fmtOpen = State.reset.fmtOpen := rfl
@[simp] theorem State.hostReset_cqUsed : s.hostReset.cqUsed = State.reset.cqUsed := rfl
@[simp] theorem State.hostReset_cause : s.hostReset.cause = State.reset.cause := rfl
@[simp] theorem State.hostReset_finfo : s.hostReset.finfo = State.reset.finfo := rfl
@[simp] theorem State.hostReset_fcmd : s.hostReset.fcmd = State.reset.fcmd := rfl
@[simp] theorem State.hostReset_hf : s.hostReset.hf = State.reset.hf := rfl
@[simp] theorem State.hostReset_bp : s.hostReset.bp = State.reset.bp := rfl
@[simp] theorem State.hostReset_cq : s.hostReset.cq = State.reset.cq := rfl
@[simp] theorem State.hostReset_ar : s.hostReset.ar = State.reset.ar := rfl
@[simp] theorem State.hostReset_out : s.hostReset.out = State.reset.out := rfl
@[simp] theorem State.hostReset_rsp : s.hostReset.rsp = State.reset.rsp := rfl
@[simp] theorem State.hostReset_cmd : s.hostReset.cmd = s.cmd := rfl
@[simp] theorem State.hostReset_pixm : s.hostReset.pixm = s.pixm := rfl
@[simp] theorem State.hostReset_pixc : s.hostReset.pixc = s.pixc := rfl
@[simp] theorem State.hostReset_wav : s.hostReset.wav = s.wav := rfl

/-! What the updates do not move -/

@[simp] theorem State.setFmtOpen_fetch (b : Bool) : (s.setFmtOpen b).fetch = s.fetch := rfl
@[simp] theorem State.setFmtOpen_currentWord (b : Bool) :
    (s.setFmtOpen b).currentWord = s.currentWord := rfl
@[simp] theorem State.setCqUsed_fetch (b : Bool) : (s.setCqUsed b).fetch = s.fetch := rfl
@[simp] theorem State.setCqUsed_currentWord (b : Bool) :
    (s.setCqUsed b).currentWord = s.currentWord := rfl
@[simp] theorem State.setParams_fetch (q : Params) : (s.setParams q).fetch = s.fetch := rfl
@[simp] theorem State.setParams_currentWord (q : Params) :
    (s.setParams q).currentWord = s.currentWord := rfl
@[simp] theorem State.setHf_fetch (h : Formatter) : (s.setHf h).fetch = s.fetch := rfl
@[simp] theorem State.setHf_currentWord (h : Formatter) :
    (s.setHf h).currentWord = s.currentWord := rfl
@[simp] theorem State.setBp_fetch (b : Packer) : (s.setBp b).fetch = s.fetch := rfl
@[simp] theorem State.setBp_currentWord (b : Packer) :
    (s.setBp b).currentWord = s.currentWord := rfl
@[simp] theorem State.setCq_fetch (q : Quantizer) : (s.setCq q).fetch = s.fetch := rfl
@[simp] theorem State.setCq_currentWord (q : Quantizer) :
    (s.setCq q).currentWord = s.currentWord := rfl
@[simp] theorem State.setAr_fetch (a : Reducer) : (s.setAr a).fetch = s.fetch := rfl
@[simp] theorem State.setAr_currentWord (a : Reducer) :
    (s.setAr a).currentWord = s.currentWord := rfl
@[simp] theorem State.emit_fetch (cs : List Byte) : (s.emit cs).fetch = s.fetch := rfl
@[simp] theorem State.emit_currentWord (cs : List Byte) :
    (s.emit cs).currentWord = s.currentWord := rfl
@[simp] theorem State.respond_fetch (v : Word) : (s.respond v).fetch = s.fetch := rfl
@[simp] theorem State.respond_currentWord (v : Word) :
    (s.respond v).currentWord = s.currentWord := rfl
@[simp] theorem State.takeFault_fetch (e : Exc) : (s.takeFault e).fetch = s.fetch := rfl
@[simp] theorem State.takeFault_currentWord (e : Exc) :
    (s.takeFault e).currentWord = s.currentWord := rfl
@[simp] theorem State.setFmtOpen_pixM (b : Bool) (x y : Nat) : (s.setFmtOpen b).pixM x y = s.pixM x y := rfl
@[simp] theorem State.setFmtOpen_pixC (b : Bool) (x y : Nat) : (s.setFmtOpen b).pixC x y = s.pixC x y := rfl
@[simp] theorem State.setCqUsed_pixM (b : Bool) (x y : Nat) : (s.setCqUsed b).pixM x y = s.pixM x y := rfl
@[simp] theorem State.setCqUsed_pixC (b : Bool) (x y : Nat) : (s.setCqUsed b).pixC x y = s.pixC x y := rfl
@[simp] theorem State.setParams_pixM (q : Params) (x y : Nat) : (s.setParams q).pixM x y = s.pixM x y := rfl
@[simp] theorem State.setParams_pixC (q : Params) (x y : Nat) : (s.setParams q).pixC x y = s.pixC x y := rfl
@[simp] theorem State.setHf_pixM (h : Formatter) (x y : Nat) : (s.setHf h).pixM x y = s.pixM x y := rfl
@[simp] theorem State.setHf_pixC (h : Formatter) (x y : Nat) : (s.setHf h).pixC x y = s.pixC x y := rfl
@[simp] theorem State.setBp_pixM (b : Packer) (x y : Nat) : (s.setBp b).pixM x y = s.pixM x y := rfl
@[simp] theorem State.setBp_pixC (b : Packer) (x y : Nat) : (s.setBp b).pixC x y = s.pixC x y := rfl
@[simp] theorem State.setCq_pixM (q : Quantizer) (x y : Nat) : (s.setCq q).pixM x y = s.pixM x y := rfl
@[simp] theorem State.setCq_pixC (q : Quantizer) (x y : Nat) : (s.setCq q).pixC x y = s.pixC x y := rfl
@[simp] theorem State.setAr_pixM (a : Reducer) (x y : Nat) : (s.setAr a).pixM x y = s.pixM x y := rfl
@[simp] theorem State.setAr_pixC (a : Reducer) (x y : Nat) : (s.setAr a).pixC x y = s.pixC x y := rfl
@[simp] theorem State.emit_pixM (cs : List Byte) (x y : Nat) : (s.emit cs).pixM x y = s.pixM x y := rfl
@[simp] theorem State.emit_pixC (cs : List Byte) (x y : Nat) : (s.emit cs).pixC x y = s.pixC x y := rfl
@[simp] theorem State.respond_pixM (v : Word) (x y : Nat) : (s.respond v).pixM x y = s.pixM x y := rfl
@[simp] theorem State.respond_pixC (v : Word) (x y : Nat) : (s.respond v).pixC x y = s.pixC x y := rfl
@[simp] theorem State.advance_pixM  (x y : Nat) : (s.advance).pixM x y = s.pixM x y := rfl
@[simp] theorem State.advance_pixC  (x y : Nat) : (s.advance).pixC x y = s.pixC x y := rfl
@[simp] theorem State.takeFault_pixM (e : Exc) (x y : Nat) : (s.takeFault e).pixM x y = s.pixM x y := rfl
@[simp] theorem State.takeFault_pixC (e : Exc) (x y : Nat) : (s.takeFault e).pixC x y = s.pixC x y := rfl

end Sys2Proof.Machine
end

