-- ==== Sys2Proof/Laws/Ops.lean ====
section
/-! SUPPORT. What each shared operation can do, said once: checks and register reads, the way a
command ends, the loop of the pseudocode, pixel reads and MemRead. -/

namespace Sys2Proof.Machine

/-! ### Checks and register reads -/

@[simp] theorem check_true (e : Exc) : check true e = .ok () := rfl
@[simp] theorem check_false (e : Exc) : check false e = .error e := rfl
@[simp] theorem needReg_some {w : Nat} (r : ParamReg) (x : BitVec w) :
    needReg r (some x) = .ok x := rfl
@[simp] theorem needReg_none {w : Nat} (r : ParamReg) :
    needReg r (none : Option (BitVec w)) = .error (unconfigured r) := rfl

theorem check_ok_iff {b : Bool} {e : Exc} {u : Unit} : check b e = .ok u ↔ b = true := by
  cases b <;> simp

theorem check_error_iff {b : Bool} {e e' : Exc} : check b e = .error e' ↔ b = false ∧ e' = e := by
  cases b <;> simp [eq_comm]

theorem needReg_ok_iff {w : Nat} {r : ParamReg} {v : Option (BitVec w)} {x : BitVec w} :
    needReg r v = .ok x ↔ v = some x := by
  cases v <;> simp

theorem needReg_error_iff {w : Nat} {r : ParamReg} {v : Option (BitVec w)} {e : Exc} :
    needReg r v = .error e ↔ v = none ∧ e = unconfigured r := by
  cases v <;> simp [eq_comm]

/-! ### Sequencing of checks -/

@[simp] theorem except_ok_bind {ε α β : Type} (a : α) (f : α → Except ε β) :
    ((Except.ok a : Except ε α) >>= f) = f a := rfl
@[simp] theorem except_error_bind {ε α β : Type} (e : ε) (f : α → Except ε β) :
    ((Except.error e : Except ε α) >>= f) = .error e := rfl
@[simp] theorem except_pure {ε α : Type} (a : α) : (pure a : Except ε α) = .ok a := rfl

theorem except_bind_eq_ok_iff {ε α β : Type} {x : Except ε α} {f : α → Except ε β} {b : β} :
    (x >>= f) = .ok b ↔ ∃ a, x = .ok a ∧ f a = .ok b := by
  cases x <;> simp

/-! ### How a command ends -/

@[simp] theorem Result.andThen_done (s : State) (k : State → Result) :
    (Result.done s).andThen k = k s := rfl
@[simp] theorem Result.andThen_raised (e : Exc) (s : State) (k : State → Result) :
    (Result.raised e s).andThen k = .raised e s := rfl
@[simp] theorem Result.outcome_done (s : State) : (Result.done s).outcome = .next s.advance := rfl
@[simp] theorem Result.outcome_raised (e : Exc) (s : State) :
    (Result.raised e s).outcome = .next (s.takeFault e) := rfl

theorem Result.andThen_eq_done {r : Result} {k : State → Result} {t : State} :
    r.andThen k = .done t ↔ ∃ u, r = .done u ∧ k u = .done t := by
  cases r <;> simp

theorem Result.andThen_eq_raised {r : Result} {k : State → Result} {e : Exc} {t : State} :
    r.andThen k = .raised e t ↔ r = .raised e t ∨ ∃ u, r = .done u ∧ k u = .raised e t := by
  cases r <;> simp

/-- A command's body answers a next state always: it completes or takes fault entry. -/
theorem Result.outcome_cases (r : Result) :
    (∃ s, r = .done s ∧ r.outcome = .next s.advance) ∨
      (∃ e s, r = .raised e s ∧ r.outcome = .next (s.takeFault e)) := by
  cases r with
  | done s => exact .inl ⟨s, rfl, rfl⟩
  | raised e s => exact .inr ⟨e, s, rfl, rfl⟩

@[simp] theorem runChecked_ok {α : Type} (a : α) (k : α → State → Result) (s : State) :
    runChecked (.ok a) k s = (k a s).outcome := rfl
@[simp] theorem runChecked_error {α : Type} (e : Exc) (k : α → State → Result) (s : State) :
    runChecked (.error e) k s = .next (s.takeFault e) := rfl

/-- Everything a command with up-front checks can do. -/
theorem runChecked_cases {α : Type} (c : Checked α) (k : α → State → Result) (s : State) :
    (∃ e, c = .error e ∧ runChecked c k s = .next (s.takeFault e)) ∨
      (∃ a u, c = .ok a ∧ k a s = .done u ∧ runChecked c k s = .next u.advance) ∨
      (∃ a e u, c = .ok a ∧ k a s = .raised e u ∧ runChecked c k s = .next (u.takeFault e)) := by
  cases c with
  | error e => exact .inl ⟨e, rfl, rfl⟩
  | ok a =>
    cases h : k a s with
    | done u => exact .inr (.inl ⟨a, u, rfl, h, by simp [h]⟩)
    | raised e u => exact .inr (.inr ⟨a, e, u, rfl, h, by simp [h]⟩)

/-! ### The loop -/

@[simp] theorem forRange_zero (body : Nat → State → Result) (a : Nat) (s : State) :
    forRange body 0 a s = .done s := rfl

theorem forRange_succ (body : Nat → State → Result) (n a : Nat) (s : State) :
    forRange body (n + 1) a s = (body a s).andThen (forRange body n (a + 1)) := rfl

/-- The induction of every loop: `P` holds before each index, `Q` of a state a raise ends in. -/
theorem forRange_induct {body : Nat → State → Result} (P : Nat → State → Prop)
    (Q : Exc → State → Prop) :
    ∀ {n a : Nat} {s : State}, P a s →
      (∀ i s, a ≤ i → i < a + n → P i s →
        (∃ t, body i s = .done t ∧ P (i + 1) t) ∨ ∃ e t, body i s = .raised e t ∧ Q e t) →
      (∃ t, forRange body n a s = .done t ∧ P (a + n) t) ∨
        ∃ e t, forRange body n a s = .raised e t ∧ Q e t := by
  intro n
  induction n with
  | zero => intro a s h _; exact .inl ⟨s, rfl, h⟩
  | succ n ih =>
    intro a s h hb
    rcases hb a s (le_refl _) (by omega) h with ⟨t, ht, hp⟩ | ⟨e, t, ht, hq⟩
    · have := ih (a := a + 1) (s := t) hp fun i s hi hn => hb i s (by omega) (by omega)
      simpa [forRange_succ, ht, Nat.add_comm, Nat.add_left_comm] using this
    · exact .inr ⟨e, t, by simp [forRange_succ, ht], hq⟩

/-- A loop whose body always completes. -/
theorem forRange_done {body : Nat → State → Result} (P : Nat → State → Prop) {n a : Nat}
    {s : State} (h : P a s)
    (hb : ∀ i s, a ≤ i → i < a + n → P i s → ∃ t, body i s = .done t ∧ P (i + 1) t) :
    ∃ t, forRange body n a s = .done t ∧ P (a + n) t := by
  rcases forRange_induct P (fun _ _ => False) h fun i s hi hn hp => .inl (hb i s hi hn hp) with
    h | ⟨_, _, _, h⟩
  · exact h
  · exact h.elim

/-- A loop that completes `k` rounds and raises in the next. -/
theorem forRange_raised {body : Nat → State → Result} (P : Nat → State → Prop)
    (Q : Exc → State → Prop) {n k a : Nat} {s : State} (hk : k < n) (h : P a s)
    (hb : ∀ i s, a ≤ i → i < a + k → P i s → ∃ t, body i s = .done t ∧ P (i + 1) t)
    (hq : ∀ s, P (a + k) s → ∃ e t, body (a + k) s = .raised e t ∧ Q e t) :
    ∃ e t, forRange body n a s = .raised e t ∧ Q e t := by
  induction k generalizing a s n with
  | zero =>
    obtain ⟨n, rfl⟩ : ∃ m, n = m + 1 := ⟨n - 1, by omega⟩
    obtain ⟨e, t, ht, hQ⟩ := hq s h
    exact ⟨e, t, by rw [forRange_succ, show body a s = _ from ht]; rfl, hQ⟩
  | succ k ih =>
    obtain ⟨n, rfl⟩ : ∃ m, n = m + 1 := ⟨n - 1, by omega⟩
    obtain ⟨t, ht, hp⟩ := hb a s (le_refl _) (by omega) h
    have e1 : a + 1 + k = a + (k + 1) := by omega
    obtain ⟨e, u, hu, hQ⟩ := ih (n := n) (a := a + 1) (s := t) (by omega) hp
      (fun i s hi hn => hb i s (by omega) (by omega)) (e1 ▸ hq)
    exact ⟨e, u, by rw [forRange_succ, ht]; exact hu, hQ⟩

/-- How two results compare, state by state. -/
def Result.Rel (R : State → State → Prop) : Result → Result → Prop
  | .done s, .done t => R s t
  | .raised e s, .raised e' t => e = e' ∧ R s t
  | _, _ => False

theorem Result.Rel.andThen {R R' : State → State → Prop} {r r' : Result} {k k' : State → Result}
    (h : Result.Rel R r r') (hr : ∀ s t, R s t → R' s t)
    (hk : ∀ s t, R s t → Result.Rel R' (k s) (k' t)) :
    Result.Rel R' (r.andThen k) (r'.andThen k') := by
  cases r <;> cases r' <;> simp only [Result.Rel] at h
  · exact hk _ _ h
  · exact ⟨h.1, hr _ _ h.2⟩

/-- Two runs of one loop from related states stay related. -/
theorem forRange_rel {R : State → State → Prop} {body body' : Nat → State → Result} {n : Nat} :
    ∀ {a : Nat} {s t : State}, R s t →
      (∀ i s t, R s t → Result.Rel R (body i s) (body' i t)) →
      Result.Rel R (forRange body n a s) (forRange body' n a t) := by
  induction n with
  | zero => intro a s t h _; exact h
  | succ n ih =>
    intro a s t h hb
    exact (hb a s t h).andThen (fun _ _ h => h) fun _ _ h => ih h hb

/-! ### Reads of the source memories -/

theorem pixM_cases (s : State) (x y : Nat) :
    (∃ v, s.pixm.at? x y = some v ∧ s.pixM x y = .ok v) ∨
      (s.pixm.at? x y = none ∧ s.pixM x y = .error (srcBoundsPix x y)) := by
  unfold State.pixM
  cases h : s.pixm.at? x y <;> simp

theorem pixC_cases (s : State) (x y : Nat) :
    (∃ v, s.pixc.at? x y = some v ∧ s.pixC x y = .ok v) ∨
      (s.pixc.at? x y = none ∧ s.pixC x y = .error (srcBoundsPix x y)) := by
  unfold State.pixC
  cases h : s.pixc.at? x y <;> simp

theorem memRead_inside {m : Memory} {addr n : Nat} (h : addr + n ≤ m.len.toNat) :
    m.memRead addr n = .ok (m.assemble addr n) := by
  simp [Memory.memRead, Nat.not_lt.mpr h]

theorem memRead_outside {m : Memory} {addr n : Nat} (h : m.len.toNat < addr + n) :
    m.memRead addr n = .error (srcBoundsWav addr) := by
  simp [Memory.memRead, h]

/-- The information of a pixel's SrcBounds, for coordinates of 16 bits. -/
theorem srcBoundsPix_info {x y : Nat} (hx : x < 65536) (hy : y < 65536) :
    (srcBoundsPix x y).info.toNat = y * 65536 + x := by
  have h : y <<< 16 ||| x = y * 65536 + x := by
    rw [← Nat.shiftLeft_add_eq_or_of_lt (by simpa using hx), Nat.shiftLeft_eq]
  simp only [srcBoundsPix, h, BitVec.toNat_ofNat]
  omega

end Sys2Proof.Machine
end

