-- ==== Sys2Proof/Laws/Formatter.lean ====
section
/-! SUPPORT. What HF.open and HF.write can do, and the one predicate that says how far an array has
been written (R92, R93, R96, R97). -/

namespace Sys2Proof.Machine

/-! ### Rendering -/

@[simp] theorem hexDigits_length (d : Nat) (v : Half) : (hexDigits d v).length = d := by
  induction d with
  | zero => rfl
  | succ d ih => simp [hexDigits, ih]

/-- The character of a nibble is the character of its number (R95). -/
theorem hexChar_eq (n : BitVec 4) : hexChar n = hexText n.toNat := by
  revert n; decide

/-- The `d` digits by position (R95). -/
theorem hexDigits_eq (d : Nat) (v : Half) :
    hexDigits d v = (List.range d).map fun j => hexText (v.toNat / 16 ^ (d - 1 - j) % 16) := by
  induction d with
  | zero => rfl
  | succ d ih =>
    have h : (v.extractLsb' (4 * d) 4).toNat = v.toNat / 16 ^ d % 16 := by
      rw [BitVec.extractLsb'_toNat, Nat.shiftRight_eq_div_pow, pow_mul]
      norm_num
    simp only [hexDigits, hexChar_eq, h, ih, List.range_succ_eq_map, List.map_cons, List.map_map]
    congr 1
    apply List.map_congr_left
    intro j hj
    simp only [Function.comp, Nat.succ_eq_add_one]
    congr 4
    omega

/-- The token of HF.write is the token of the closed form. -/
theorem hexToken_eq (d : Nat) (v : Half) : hexToken d v = tokText d v.toNat := by
  simp [hexToken, tokText, hexDigits_eq, chZero, chX]

@[simp] theorem tokText_length (d v : Nat) : (tokText d v).length = 2 + d := by
  simp [tokText]; omega

theorem bodyText_append (c d : Nat) (vs us : List Nat) (k : Nat) :
    bodyText c d k (vs ++ us) = bodyText c d k vs ++ bodyText c d (k + vs.length) us := by
  induction vs generalizing k with
  | nil => simp [bodyText]
  | cons v vs ih => simp [bodyText, ih, Nat.add_assoc, Nat.add_comm 1]

/-! ### HF.open -/

section
variable (t : Word) (c : Half) (d : BitVec 3) (s : State)
@[simp] theorem hfOpen_hf :
    (hfOpen t c d s).hf =
      { state := .opened, total := t, count := 0, cols := c, col := c, digits := d } := rfl
@[simp] theorem hfOpen_fmtOpen : (hfOpen t c d s).fmtOpen = true := rfl
@[simp] theorem hfOpen_out : (hfOpen t c d s).out = s.out := rfl
@[simp] theorem hfOpen_bp : (hfOpen t c d s).bp = s.bp := rfl
@[simp] theorem hfOpen_cq : (hfOpen t c d s).cq = s.cq := rfl
@[simp] theorem hfOpen_ar : (hfOpen t c d s).ar = s.ar := rfl
@[simp] theorem hfOpen_wav : (hfOpen t c d s).wav = s.wav := rfl
@[simp] theorem hfOpen_pixm : (hfOpen t c d s).pixm = s.pixm := rfl
@[simp] theorem hfOpen_pixc : (hfOpen t c d s).pixc = s.pixc := rfl
end

/-! ### HF.write -/

/-- Everything HF.write can do. -/
theorem hfWrite_cases (v : Half) (s : State) :
    (s.hf.state = .idle ∧ hfWrite v s = .raised fmtStateFault s) ∨
      (s.hf.state = .opened ∧ 16 ^ s.hf.digits.toNat ≤ v.toNat ∧
        hfWrite v s = .raised (valueRange v) s) ∨
      (s.hf.state = .opened ∧ v.toNat < 16 ^ s.hf.digits.toNat ∧
        hfWrite v s = .done (hfWritten v s)) := by
  unfold hfWrite
  cases h : s.hf.state
  · simp
  · by_cases hv : 16 ^ s.hf.digits.toNat ≤ v.toNat
    · simp [hv]
    · simp [hv, Nat.lt_of_not_le hv]

/-- A write that passes both checks changes OUT, HF and FMTOPEN only. -/
theorem hfWritten_frame (v : Half) (s : State) :
    hfWritten v s = { s with
      out := (hfWritten v s).out, hf := (hfWritten v s).hf, fmtOpen := (hfWritten v s).fmtOpen } :=
  rfl

@[simp] theorem hfWritten_out (v : Half) (s : State) :
    (hfWritten v s).out = s.out ++ hfChars Config.spaceRule Config.newline s.hf v := rfl
@[simp] theorem hfWritten_hf (v : Half) (s : State) : (hfWritten v s).hf = hfNext s.hf := rfl
@[simp] theorem hfWritten_fmtOpen (v : Half) (s : State) :
    (hfWritten v s).fmtOpen = if hfIsLast s.hf then false else s.fmtOpen := rfl

/-- The column counter as a function of the number of elements written (R97). -/
def colAfter (c k : Nat) : Nat := if k = 0 then c else (k - 1) % c + 1

/-- Where HF stands after `k` of `t` elements, `k < t` (R97). -/
def HfAt (h : Formatter) (t c d k : Nat) : Prop :=
  h.state = .opened ∧ h.total.toNat = t ∧ h.count.toNat = k ∧ h.cols.toNat = c ∧
  h.digits.toNat = d ∧ h.col.toNat = colAfter c k ∧ 1 ≤ c ∧ k < t

theorem colAfter_eq_iff {c k : Nat} (hc : 1 ≤ c) : colAfter c k = c ↔ k % c = 0 := by
  unfold colAfter
  split
  · simp_all
  · obtain ⟨j, rfl⟩ : ∃ j, k = j + 1 := ⟨k - 1, by omega⟩
    have hlt := Nat.mod_lt j hc
    rcases Nat.lt_or_ge (j % c + 1) c with h | h
    · have : (j + 1) % c = j % c + 1 := by
        rw [Nat.add_mod, Nat.mod_eq_of_lt (a := 1) (by omega), Nat.mod_eq_of_lt h]
      simp [this]; omega
    · have hj : j % c + 1 = c := by omega
      have : (j + 1) % c = 0 := by
        rw [← Nat.mod_add_mod, hj, Nat.mod_self]
      simp [this, hj]

theorem colAfter_le {c k : Nat} (hc : 1 ≤ c) : colAfter c k ≤ c := by
  unfold colAfter
  split
  · omega
  · have := Nat.mod_lt (k - 1) hc; omega

theorem colAfter_succ {c k : Nat} (hc : 1 ≤ c) :
    colAfter c (k + 1) = (if k % c = 0 then 0 else colAfter c k) + 1 := by
  by_cases h : k % c = 0
  · simp [colAfter, h]
  · have hne : ¬ colAfter c k = c := by rwa [colAfter_eq_iff hc]
    have hk : k ≠ 0 := by rintro rfl; simp at h
    obtain ⟨j, rfl⟩ : ∃ j, k = j + 1 := ⟨k - 1, by omega⟩
    have hlt := Nat.mod_lt j hc
    have h1 : j % c + 1 < c := by
      rcases Nat.lt_or_ge (j % c + 1) c with h1 | h1
      · exact h1
      · exact absurd (by simp [colAfter]; omega) hne
    have : (j + 1) % c = j % c + 1 := by
      rw [Nat.add_mod, Nat.mod_eq_of_lt (a := 1) (by omega), Nat.mod_eq_of_lt h1]
    simp [colAfter, this]

/-- HF.open starts an array of `t` elements at element 0 (R92). -/
theorem hfOpen_at {t : Word} {c : Half} {d : BitVec 3} {s : State} (ht : t ≠ 0) (hc : c ≠ 0) :
    HfAt (hfOpen t c d s).hf t.toNat c.toNat d.toNat 0 := by
  have h1 : t.toNat ≠ 0 := fun h => ht (BitVec.eq_of_toNat_eq (by simpa using h))
  have h2 : c.toNat ≠ 0 := fun h => hc (BitVec.eq_of_toNat_eq (by simpa using h))
  exact ⟨rfl, rfl, rfl, rfl, rfl, rfl, by omega, by omega⟩

/-- Adding 1 below the top of the width (R6). -/
theorem toNat_add_one {w : Nat} {x : BitVec w} {k : Nat} (hk : x.toNat = k) (h : k + 1 < 2 ^ w) :
    (x + 1).toNat = k + 1 := by
  have hw : 1 % 2 ^ w = 1 := Nat.mod_eq_of_lt (by omega)
  rw [BitVec.toNat_add, hk, show (1 : BitVec w).toNat = 1 from by
    simp [BitVec.toNat_ofNat, hw], Nat.mod_eq_of_lt h]

theorem hfIsLast_at {h : Formatter} {t c d k : Nat} (H : HfAt h t c d k) :
    hfIsLast h = decide (k + 1 = t) := by
  obtain ⟨_, ht, hk, _, _, _, _, hlt⟩ := H
  have := h.total.isLt
  simp only [hfIsLast, decide_eq_decide]
  rw [BitVec.toNat_eq, toNat_add_one hk (by omega), ht]

/-- The characters of element `k` (R93 against R96). -/
theorem hfChars_at {h : Formatter} {t c d k : Nat} (H : HfAt h t c d k) (v : Half) :
    hfChars .beforeWrap .lf h v =
      sepText c k ++ tokText d v.toNat ++ (if k + 1 = t then closeText else []) := by
  have hl := hfIsLast_at H
  obtain ⟨_, ht, hk, hc, hd, hcol, hc1, hlt⟩ := H
  have e1 : (h.count = 0) = (k = 0) := by
    rw [BitVec.toNat_eq, hk]; rfl
  have e2 : (h.col = h.cols) = (k % c = 0) := by
    rw [BitVec.toNat_eq, hcol, hc, eq_iff_iff, colAfter_eq_iff hc1]
  have e3 : (h.col < h.cols) = ¬ (k % c = 0) := by
    rw [BitVec.lt_def, hcol, hc, eq_iff_iff, ← colAfter_eq_iff hc1]
    have := colAfter_le (k := k) hc1; omega
  simp only [hfChars, hl, hexToken_eq, hd, hfSeparator, spaceAfterComma, e1, e2, e3, sepText]
  by_cases h0 : k = 0
  · subst h0
    by_cases h1 : 0 + 1 = t <;> simp [h1, newlineChars, indentChars, hfClosing, closeText, chLf,
      chSpace, chBrace, chSemicolon]
  · by_cases hm : k % c = 0 <;> by_cases h1 : k + 1 = t <;>
      simp [h0, hm, h1, newlineChars, indentChars, hfClosing, closeText, chLf, chSpace, chBrace,
        chSemicolon, chComma]

theorem hfNext_fields (h : Formatter) :
    (hfNext h).total = h.total ∧ (hfNext h).cols = h.cols ∧ (hfNext h).digits = h.digits ∧
      (hfNext h).count = h.count + 1 ∧
      (hfNext h).state = if hfIsLast h then .idle else h.state :=
  ⟨rfl, rfl, rfl, rfl, rfl⟩

theorem hfNext_count_at {h : Formatter} {t c d k : Nat} (H : HfAt h t c d k) :
    (hfNext h).count.toNat = k + 1 := by
  obtain ⟨_, ht, hk, _, _, _, _, hlt⟩ := H
  have := h.total.isLt
  exact toNat_add_one hk (by omega)

theorem hfNext_col_at {h : Formatter} {t c d k : Nat} (H : HfAt h t c d k) :
    (hfNext h).col.toNat = colAfter c (k + 1) := by
  obtain ⟨_, _, _, hc, _, hcol, hc1, _⟩ := H
  have hb := h.cols.isLt
  have hle := colAfter_le (k := k) hc1
  have e2 : (h.col = h.cols) = (k % c = 0) := by
    rw [BitVec.toNat_eq, hcol, hc, eq_iff_iff, colAfter_eq_iff hc1]
  rw [colAfter_succ hc1]
  simp only [hfNext, e2]
  by_cases hm : k % c = 0
  · simp [hm]
  · have hne : colAfter c k ≠ c := by rwa [Ne, colAfter_eq_iff hc1]
    simp only [hm, if_false]
    exact toNat_add_one hcol (by omega)

/-- After a write that is not the last, HF stands one element further (R97). -/
theorem hfNext_at {h : Formatter} {t c d k : Nat} (H : HfAt h t c d k) (hk : k + 1 ≠ t) :
    HfAt (hfNext h) t c d (k + 1) := by
  have hl := hfIsLast_at H
  refine ⟨?_, H.2.1, hfNext_count_at H, H.2.2.2.1, H.2.2.2.2.1, hfNext_col_at H,
    H.2.2.2.2.2.2.1, ?_⟩
  · simp [hfNext, hl, hk, H.1]
  · have := H.2.2.2.2.2.2.2; omega

/-! ### How far an array has been written -/

/-- `s` is the state reached from OUT = `o` by opening an array of `t` elements with `c` columns and
`d` digits and writing `vs`: open while elements are missing, closed once all are there. -/
def Written (o : List Byte) (t c d : Nat) (vs : List Nat) (s : State) : Prop :=
  (vs.length < t ∧ HfAt s.hf t c d vs.length ∧ s.fmtOpen = true ∧
    s.out = o ++ bodyText c d 0 vs) ∨
  (vs.length = t ∧ s.hf.state = .idle ∧ s.fmtOpen = false ∧ s.out = o ++ arrayText c d vs)

theorem Written.opened {o : List Byte} {t c d : Nat} {vs : List Nat} {s : State}
    (h : Written o t c d vs s) (hl : vs.length < t) :
    HfAt s.hf t c d vs.length ∧ s.fmtOpen = true ∧ s.out = o ++ bodyText c d 0 vs := by
  rcases h with h | h
  · exact h.2
  · omega

theorem Written.closed {o : List Byte} {t c d : Nat} {vs : List Nat} {s : State}
    (h : Written o t c d vs s) (hl : vs.length = t) :
    s.hf.state = .idle ∧ s.fmtOpen = false ∧ s.out = o ++ arrayText c d vs := by
  rcases h with h | h
  · omega
  · exact h.2

/-- `Written` reads only OUT, HF and FMTOPEN. -/
theorem Written.congr {o : List Byte} {t c d : Nat} {vs : List Nat} {s u : State}
    (h : Written o t c d vs s) (h1 : u.hf = s.hf) (h2 : u.fmtOpen = s.fmtOpen)
    (h3 : u.out = s.out) : Written o t c d vs u := by
  unfold Written at *
  rw [h1, h2, h3]; exact h

theorem written_open {t : Word} {c : Half} {d : BitVec 3} (s : State) (ht : t ≠ 0) (hc : c ≠ 0) :
    Written s.out t.toNat c.toNat d.toNat [] (hfOpen t c d s) := by
  have H := hfOpen_at (d := d) (s := s) ht hc
  exact .inl ⟨H.2.2.2.2.2.2.2, H, rfl, by simp [bodyText]⟩

/-- One more write of a value that fits: it never faults while elements are missing, and it changes
OUT, HF and FMTOPEN only (R93, R96). -/
theorem Written.write {o : List Byte} {t c d : Nat} {vs : List Nat} {s : State} {v : Half}
    (h : Written o t c d vs s) (hl : vs.length < t) (hv : v.toNat < 16 ^ d) :
    ∃ u, hfWrite v s = .done u ∧ Written o t c d (vs ++ [v.toNat]) u ∧
      u = { s with out := u.out, hf := u.hf, fmtOpen := u.fmtOpen } := by
  obtain ⟨H, hf, ho⟩ := h.opened hl
  have hd := H.2.2.2.2.1
  rcases hfWrite_cases v s with h1 | h1 | h1
  · exact absurd (h1.1.symm.trans H.1) (by decide)
  · rw [hd] at h1; omega
  refine ⟨_, h1.2.2, ?_, hfWritten_frame v s⟩
  have hlast := hfIsLast_at H
  have hch := hfChars_at H v
  have hout : (hfWritten v s).out = o ++ bodyText c d 0 (vs ++ [v.toNat])
      ++ (if vs.length + 1 = t then closeText else []) := by
    rw [hfWritten_out, ho]
    simp only [Config.spaceRule, Config.newline, hch, bodyText_append, bodyText]
    simp [List.append_assoc]
  by_cases hk : vs.length + 1 = t
  · right
    refine ⟨by simpa using hk, ?_, ?_, ?_⟩
    · simp [hfNext, hlast, hk]
    · simp [hlast, hk]
    · rw [hout]; simp [hk, arrayText, List.append_assoc]
  · left
    refine ⟨by simp; omega, ?_, ?_, ?_⟩
    · simpa using hfNext_at H hk
    · simp [hlast, hk, hf]
    · rw [hout]; simp [hk]

/-- Several writes in order. -/
theorem Written.writeAll {o : List Byte} {t c d : Nat} {us : List Half} :
    ∀ {vs : List Nat} {s : State}, Written o t c d vs s → vs.length + us.length ≤ t →
      (∀ v ∈ us, v.toNat < 16 ^ d) →
      ∃ u, hfWriteAll us s = .done u ∧ Written o t c d (vs ++ us.map BitVec.toNat) u ∧
        u = { s with out := u.out, hf := u.hf, fmtOpen := u.fmtOpen } := by
  induction us with
  | nil => intro vs s h _ _; exact ⟨s, rfl, by simpa using h, rfl⟩
  | cons v us ih =>
    intro vs s h hl hv
    simp only [List.length_cons] at hl
    obtain ⟨u, hu, hw, hfr⟩ := h.write (v := v) (by omega) (hv v (by simp))
    obtain ⟨w, hw1, hw2, hw3⟩ := ih hw (by simp; omega) fun x hx => hv x (by simp [hx])
    refine ⟨w, by simp [hfWriteAll, hu, hw1], by simpa using hw2, ?_⟩
    rw [hw3, hfr]

end Sys2Proof.Machine
end

