-- ==== Sys2Proof/Laws/Audio.lean ====
section
/-! SUPPORT. What the loops of AR.RUN do: the sum of a frame, the reduction, the groups, against the
elements of the closed form (R151 to R165). -/

namespace Sys2Proof.Machine

/-! ### Samples and sums -/

theorem assemble_lt (m : Memory) (n : Nat) : ∀ addr, m.assemble addr n < 256 ^ n := by
  induction n with
  | zero => intro addr; simp [Memory.assemble]
  | succ n ih =>
    intro addr
    have h1 := ih (addr + 1)
    have h2 := (m.byteAt addr).isLt
    simp only [Memory.assemble, pow_succ]
    omega

theorem unsignedSample_le {r : Nat} (h : r < 65536) : unsignedSample r ≤ 65535 := by
  unfold unsignedSample; split <;> omega

/-- A converted sample fits its depth (R153, R154). -/
theorem arU_le (m : Memory) (q : AudioArgs) (i c : Nat) :
    arU m q i c ≤ if q.bits = 8 then 255 else 65535 := by
  unfold arU
  by_cases h : q.bits = 8
  · have := assemble_lt m 1 (arAddress q i c)
    simp only [h, if_true]; omega
  · have := assemble_lt m 2 (arAddress q i c)
    simp only [h, if_false]
    exact unsignedSample_le (by omega)

theorem sum_range_le {f : Nat → Nat} {b : Nat} (hf : ∀ c, f c ≤ b) :
    ∀ n, ((List.range n).map f).sum ≤ n * b := by
  intro n
  induction n with
  | zero => simp
  | succ n ih =>
    have := hf n
    rw [List.range_succ, List.map_append, List.sum_append, Nat.succ_mul]
    simp only [List.map_cons, List.map_nil, List.sum_cons, List.sum_nil]
    omega

/-- The sum of the first `c` channels of frame `i` (R156). -/
def arPartial (m : Memory) (q : AudioArgs) (i c : Nat) : Nat :=
  ((List.range c).map fun c => arU m q i c).sum

theorem arPartial_succ (m : Memory) (q : AudioArgs) (i c : Nat) :
    arPartial m q i (c + 1) = arPartial m q i c + arU m q i c := by
  simp [arPartial, List.range_succ]

theorem arPartial_le (m : Memory) (q : AudioArgs) (i c : Nat) :
    arPartial m q i c ≤ c * 65535 :=
  sum_range_le (fun c => (arU_le m q i c).trans (by split <;> omega)) c

/-- The sum of a frame fits AR.SUM (R156). -/
theorem arPartial_lt {m : Memory} {q : AudioArgs} {i c : Nat} (h : c ≤ 65535) :
    arPartial m q i c < 2 ^ 32 := by
  have h1 := arPartial_le m q i c
  have h2 : c * 65535 ≤ 65535 * 65535 := Nat.mul_le_mul_right _ h
  omega

theorem arS_eq (m : Memory) (q : AudioArgs) (i : Nat) : arS m q i = arPartial m q i q.ch.toNat :=
  rfl

/-- A sample inside WAV reads as the closed form says; one outside raises SrcBounds. -/
theorem arSample_present {m : Memory} {q : AudioArgs} {i c : Nat} (h : SamplePresent m q i c) :
    arSample m q i c = .ok (arU m q i c) := by
  unfold SamplePresent at h
  unfold arSample arU
  split at h
  · next hb => simp only [hb, if_true]; exact memRead_inside h
  · next hb => simp only [hb, if_false, memRead_inside h]; rfl

theorem arSample_missing {m : Memory} {q : AudioArgs} {i c : Nat} (h : ¬ SamplePresent m q i c) :
    arSample m q i c = .error (srcBoundsWav (arAddress q i c)) := by
  unfold SamplePresent at h
  unfold arSample
  split at h
  · next hb => simp only [hb, if_true]; exact memRead_outside (by omega)
  · next hb => simp only [hb, if_false, memRead_outside (Nat.lt_of_not_le h)]; rfl

/-! ### The channels of one frame -/

/-- `t` is `s` with other AR.I, AR.C and AR.SUM. -/
def SumFrame (s t : State) : Prop :=
  t = { s with ar := { s.ar with i := t.ar.i, c := t.ar.c, sum := t.ar.sum } }

/-- Where AR stands before channel `c` of frame `i`. -/
structure SumAt (s0 : State) (q : AudioArgs) (i c : Nat) (s : State) : Prop where
  frame : SumFrame s0 s
  index : s.ar.i.toNat = i
  sum : s.ar.sum.toNat = arPartial s0.wav q i c

theorem SumAt.start (s0 : State) (q : AudioArgs) {i : Nat} (hi : i < 2 ^ 32) :
    SumAt s0 q i 0 (s0.setAr { s0.ar with i := BitVec.ofNat 32 i, sum := 0 }) := by
  refine ⟨rfl, ?_, rfl⟩
  show (BitVec.ofNat 32 i).toNat = i
  simp; omega

theorem SumFrame.wav {s t : State} (h : SumFrame s t) : t.wav = s.wav := by rw [h]

theorem arChannel_present {s0 s : State} {q : AudioArgs} {i c : Nat} (H : SumAt s0 q i c s)
    (hc : c < q.ch.toNat) (hp : SamplePresent s0.wav q i c) :
    ∃ u, arChannel q c s = .done u ∧ SumAt s0 q i (c + 1) u := by
  have hlt := q.ch.isLt
  have hc' : (BitVec.ofNat 16 c).toNat = c := by simp; omega
  have hs : arSample s.wav q s.ar.i.toNat c = .ok (arU s0.wav q i c) := by
    rw [H.frame.wav, H.index]; exact arSample_present hp
  have hb := arPartial_lt (m := s0.wav) (q := q) (i := i) (c := c + 1) (by omega)
  rw [arPartial_succ] at hb
  refine ⟨_, by simp only [arChannel, State.setAr_ar, hc', State.setAr_wav, hs]; rfl, ?_, ?_, ?_⟩
  · have F := H.frame
    unfold SumFrame at F ⊢
    rw [F]; rfl
  · exact H.index
  · show (s.ar.sum + BitVec.ofNat 32 (arU s0.wav q i c)).toNat = _
    rw [BitVec.toNat_add, H.sum, BitVec.toNat_ofNat, arPartial_succ,
      Nat.mod_eq_of_lt (a := arU s0.wav q i c) (by omega), Nat.mod_eq_of_lt hb]

theorem arChannel_missing {s0 s : State} {q : AudioArgs} {i c : Nat} (H : SumAt s0 q i c s)
    (hc : c < q.ch.toNat) (hp : ¬ SamplePresent s0.wav q i c) :
    ∃ u, arChannel q c s = .raised (srcBoundsWav (arAddress q i c)) u ∧ SumFrame s0 u := by
  have hlt := q.ch.isLt
  have hc' : (BitVec.ofNat 16 c).toNat = c := by simp; omega
  have hs : arSample s.wav q s.ar.i.toNat c = .error (srcBoundsWav (arAddress q i c)) := by
    rw [H.frame.wav, H.index]; exact arSample_missing hp
  refine ⟨_, by simp only [arChannel, State.setAr_ar, hc', State.setAr_wav, hs]; rfl, ?_⟩
  have F := H.frame
  unfold SumFrame at F ⊢
  rw [F]; rfl

/-- The channels of a frame that WAV holds: AR.SUM is `S(i)`. -/
theorem arChannels_present (s0 : State) (q : AudioArgs) {i : Nat} (hi : i < 2 ^ 32)
    (hp : ∀ c, c < q.ch.toNat → SamplePresent s0.wav q i c) :
    ∃ u, forRange (arChannel q) q.ch.toNat 0
        (s0.setAr { s0.ar with i := BitVec.ofNat 32 i, sum := 0 }) = .done u ∧
      SumFrame s0 u ∧ u.ar.sum.toNat = arS s0.wav q i := by
  obtain ⟨u, hu, H⟩ := forRange_done (fun c t => SumAt s0 q i c t) (n := q.ch.toNat)
    (SumAt.start s0 q hi) (fun c t _ hc H => arChannel_present H (by omega) (hp c (by omega)))
  rw [Nat.zero_add] at H
  exact ⟨u, hu, H.frame, H.sum⟩

/-- The channels of a frame of which WAV lacks one. -/
theorem arChannels_missing (s0 : State) (q : AudioArgs) {i c0 : Nat} (hi : i < 2 ^ 32)
    (hc : c0 < q.ch.toNat) (hm : ¬ SamplePresent s0.wav q i c0)
    (hp : ∀ c, c < c0 → SamplePresent s0.wav q i c) :
    ∃ u, forRange (arChannel q) q.ch.toNat 0
        (s0.setAr { s0.ar with i := BitVec.ofNat 32 i, sum := 0 }) =
          .raised (srcBoundsWav (arAddress q i c0)) u ∧ SumFrame s0 u := by
  obtain ⟨e, u, hu, he, hf⟩ := forRange_raised (fun c t => SumAt s0 q i c t)
    (fun e t => e = srcBoundsWav (arAddress q i c0) ∧ SumFrame s0 t) hc (SumAt.start s0 q hi)
    (fun c t _ hc' H => arChannel_present H (by omega) (hp c (by omega)))
    (fun t H => by
      rw [Nat.zero_add] at H ⊢
      obtain ⟨u, h1, h2⟩ := arChannel_missing H hc hm
      exact ⟨_, u, h1, rfl, h2⟩)
  exact ⟨u, he ▸ hu, hf⟩

/-! ### The reduction -/

theorem div_le_of_le_mul {s ch k b : Nat} (h : s ≤ ch * b) :
    s / (ch * k) ≤ b / k := by
  rw [← Nat.div_div_eq_div_mul]
  exact Nat.div_le_div_right (Nat.div_le_of_le_mul h)

theorem arS_le (m : Memory) (q : AudioArgs) (i : Nat) : arS m q i ≤ q.ch.toNat * 65535 :=
  arPartial_le m q i _

theorem arS_le_byte {m : Memory} {q : AudioArgs} {i : Nat} (h : q.bits = 8) :
    arS m q i ≤ q.ch.toNat * 255 :=
  sum_range_le (fun c => by simpa [h] using arU_le m q i c) _

/-- On the 8-bit-output paths the element fits a byte (R159, R160). -/
theorem arD_le {m : Memory} {q : AudioArgs} (i : Nat) :
    arS m q i / arD q ≤ 255 := by
  unfold arD
  split
  · next h => exact Nat.div_le_of_le_mul (arS_le_byte h)
  · exact (div_le_of_le_mul (arS_le m q i)).trans (by norm_num)

/-- On the 10-bit path the value fits 10 bits (R161). -/
theorem arV_le {m : Memory} {q : AudioArgs} (i : Nat) :
    arV m q i ≤ 1023 := by
  unfold arV
  split
  · exact (div_le_of_le_mul (arS_le m q i)).trans (by norm_num)
  · omega

/-! ### Groups -/

/-- The 10-bit value of frame `i` as the bits AR.RUN puts into the group. -/
def arV10 (m : Memory) (q : AudioArgs) (i : Nat) : BitVec 10 := BitVec.ofNat 10 (arV m q i)

/-- AR.G after the first `r` samples of group `g` (R162). -/
def groupAfter (m : Memory) (q : AudioArgs) (g : Nat) : Nat → Group
  | 0 => Group.zero
  | r + 1 =>
    let v := arV10 m q (4 * g + r)
    let a := groupAfter m q g r
    groupSetLow { a with g0 := (a.g0 <<< 2) ||| (v.extractLsb' 8 2).setWidth 8 } r
      (v.extractLsb' 0 8)

theorem pushTop_toNat (a : BitVec 8) (b : BitVec 2) (h : a.toNat < 64) :
    ((a <<< 2) ||| b.setWidth 8).toNat = 4 * a.toNat + b.toNat := by
  revert a b; decide

theorem arV10_top {m : Memory} {q : AudioArgs} (i : Nat) :
    ((arV10 m q i).extractLsb' 8 2).toNat = arV m q i / 256 % 4 := by
  have := arV_le (m := m) (q := q) i
  rw [BitVec.extractLsb'_toNat, arV10, BitVec.toNat_ofNat, Nat.shiftRight_eq_div_pow,
    Nat.mod_eq_of_lt (a := arV m q i) (by omega)]

theorem arV10_low (m : Memory) (q : AudioArgs) (i : Nat) :
    ((arV10 m q i).extractLsb' 0 8).toNat = arV m q i % 256 := by
  rw [BitVec.extractLsb'_toNat, arV10, BitVec.toNat_ofNat, Nat.shiftRight_eq_div_pow]
  omega

/-- The top-bits byte after `r` samples, `r` at most 4 (R162). -/
def topAfter (m : Memory) (q : AudioArgs) (g : Nat) : Nat → Nat
  | 0 => 0
  | r + 1 => 4 * topAfter m q g r + arV m q (4 * g + r) / 256 % 4

theorem topAfter_lt (m : Memory) (q : AudioArgs) (g r : Nat) : topAfter m q g r < 4 ^ r := by
  induction r with
  | zero => simp [topAfter]
  | succ r ih => simp only [topAfter, pow_succ]; omega

theorem groupSetLow_g0 (g : Group) (k : Nat) (b : Byte) : (groupSetLow g k b).g0 = g.g0 := by
  unfold groupSetLow; split <;> rfl

theorem groupAfter_g0 {m : Memory} {q : AudioArgs} (g : Nat) :
    ∀ r, r ≤ 4 → (groupAfter m q g r).g0.toNat = topAfter m q g r := by
  intro r
  induction r with
  | zero => intro _; rfl
  | succ r ih =>
    intro hr
    have h1 := ih (by omega)
    have h2 := topAfter_lt m q g r
    have h3 : (4 : Nat) ^ r ≤ 4 ^ 3 := Nat.pow_le_pow_right (by omega) (by omega)
    simp only [groupAfter, groupSetLow_g0]
    rw [pushTop_toNat _ _ (by rw [h1]; omega), arV10_top _, h1, topAfter]

theorem setWidth16_toNat (b : Byte) : (b.setWidth 16).toNat = b.toNat := by
  simp; omega

/-- A full group is the group of the closed form (R163). -/
theorem groupAfter_full {m : Memory} {q : AudioArgs} (g : Nat) :
    (groupBytes (groupAfter m q g 4)).map BitVec.toNat = arGroup m q g := by
  have h0 := groupAfter_g0 (m := m) (q := q) g 4 (le_refl _)
  simp only [groupBytes, List.map_cons, List.map_nil, setWidth16_toNat, h0, arGroup]
  have h1 := arV10_low m q (4 * g)
  have h2 := arV10_low m q (4 * g + 1)
  have h3 := arV10_low m q (4 * g + 2)
  have h4 := arV10_low m q (4 * g + 3)
  simp only [groupAfter, groupSetLow, Nat.add_zero, h1, h2, h3, h4, topAfter]
  congr 1
  omega

/-- A partial group, its top-bits byte aligned, is the group that zero samples would fill up
(R164). -/
theorem groupAfter_partial {m : Memory} {q : AudioArgs} {g r : Nat}
    (h1 : 1 ≤ r) (h3 : r ≤ 3) (hz : ∀ i, 4 * g + r ≤ i → arV m q i = 0) :
    (groupBytes { groupAfter m q g r with
        g0 := partialShift .left r (groupAfter m q g r).g0 }).map BitVec.toNat = arGroup m q g := by
  have h0 := groupAfter_g0 (m := m) (q := q) g r (by omega)
  have hs : ((groupAfter m q g r).g0 <<< (2 * (4 - r))).toNat
      = topAfter m q g r * 2 ^ (2 * (4 - r)) := by
    rw [BitVec.toNat_shiftLeft, Nat.shiftLeft_eq, h0]
    apply Nat.mod_eq_of_lt
    have hl := topAfter_lt m q g r
    calc topAfter m q g r * 2 ^ (2 * (4 - r)) < 4 ^ r * 2 ^ (2 * (4 - r)) :=
          Nat.mul_lt_mul_of_pos_right hl (by positivity)
      _ = 2 ^ 8 := by
          rw [show (4 : Nat) = 2 ^ 2 from rfl, ← pow_mul, ← pow_add]; congr 1; omega
  simp only [groupBytes, partialShift, List.map_cons, List.map_nil, setWidth16_toNat, hs, arGroup]
  have v1 := arV10_low m q (4 * g)
  have v2 := arV10_low m q (4 * g + 1)
  have v3 := arV10_low m q (4 * g + 2)
  have z1 := hz (4 * g + 1)
  have z2 := hz (4 * g + 2)
  have z3 := hz (4 * g + 3)
  interval_cases r
  · rw [z1 (by omega), z2 (by omega), z3 (by omega)]
    simp [groupAfter, groupSetLow, v1, topAfter, Group.zero]
  · rw [z2 (by omega), z3 (by omega)]
    simp [groupAfter, groupSetLow, v1, v2, topAfter, Group.zero]
    omega
  · rw [z3 (by omega)]
    simp [groupAfter, groupSetLow, v1, v2, v3, topAfter, Group.zero]
    omega

/-! ### Frames -/

/-- `t` differs from `s` in OUT, HF, FMTOPEN and AR only. -/
def ArFrame (s t : State) : Prop :=
  t = { s with out := t.out, hf := t.hf, fmtOpen := t.fmtOpen, ar := t.ar }

theorem ArFrame.wav {s t : State} (h : ArFrame s t) : t.wav = s.wav := by rw [h]

theorem ArFrame.sum {s t u : State} (h : ArFrame s t) (h2 : SumFrame t u) : ArFrame s u := by
  unfold ArFrame at *
  unfold SumFrame at h2
  rw [h2, h]

theorem SumFrame.written {s u : State} (h : SumFrame s u) {o : List Byte} {t c d : Nat}
    {vs : List Nat} (W : Written o t c d vs s) : Written o t c d vs u := by
  apply W.congr <;> rw [h]

@[simp] theorem arByteElements_length (m : Memory) (q : AudioArgs) (k : Nat) :
    (arByteElements m q k).length = k := by
  simp [arByteElements]

theorem arByteElements_succ (m : Memory) (q : AudioArgs) (k : Nat) :
    arByteElements m q (k + 1) = arByteElements m q k ++ [arS m q k / arD q] := by
  simp [arByteElements, List.range_succ]

@[simp] theorem arGroupElements_length (m : Memory) (q : AudioArgs) (k : Nat) :
    (arGroupElements m q k).length = 5 * k := by
  simp [arGroupElements, List.length_flatMap, arGroup, Nat.mul_comm]

theorem arGroupElements_succ (m : Memory) (q : AudioArgs) (k : Nat) :
    arGroupElements m q (k + 1) = arGroupElements m q k ++ arGroup m q k := by
  simp [arGroupElements, List.range_succ, List.flatMap_append]

/-- One frame that WAV holds, on the 8-bit-output paths (R159, R160). -/
theorem arFrame_byte {s0 s : State} {q : AudioArgs} {o : List Byte} {t c i : Nat}
    (hten : arTen q.bits q.mode = false) (hi : i < 2 ^ 32) (ht : i < t)
    (hp : ∀ c, c < q.ch.toNat → SamplePresent s0.wav q i c)
    (W : Written o t c 2 (arByteElements s0.wav q i) s) (F : ArFrame s0 s) :
    ∃ u, arFrame q i s = .done u ∧ Written o t c 2 (arByteElements s0.wav q (i + 1)) u ∧
      ArFrame s0 u := by
  obtain ⟨u, hu, hf, hs⟩ := arChannels_present s q hi (F.wav ▸ hp)
  have hle := arD_le (m := s0.wav) (q := q) i
  have hv : (BitVec.ofNat 16 (arS s0.wav q i / arD q)).toNat = arS s0.wav q i / arD q := by
    rw [BitVec.toNat_ofNat]
    exact Nat.mod_eq_of_lt (by omega)
  rw [F.wav] at hs
  have hred : arReduce q u = hfWrite (BitVec.ofNat 16 (arS s0.wav q i / arD q)) u := by
    unfold arReduce arD
    rw [hs, hten]
    split <;> rfl
  obtain ⟨w, hw, hwr, hfr⟩ := (hf.written W).write
    (v := BitVec.ofNat 16 (arS s0.wav q i / arD q)) (by simpa using ht) (by rw [hv]; omega)
  refine ⟨w, by simp only [arFrame, hu, Result.andThen_done, hred, hw], ?_, ?_⟩
  · rw [arByteElements_succ, ← hv]; exact hwr
  · have := F.sum hf
    unfold ArFrame at this ⊢
    rw [hfr, this]

/-- Where AR stands before frame `i` on the 10-bit path. -/
structure TenAt (s0 : State) (q : AudioArgs) (o : List Byte) (t c i : Nat) (s : State) : Prop where
  written : Written o t c 2 (arGroupElements s0.wav q (i / 4)) s
  frame : ArFrame s0 s
  k : s.ar.k.toNat = i % 4
  g : s.ar.g = groupAfter s0.wav q (i / 4) (i % 4)

/-- Writing the five bytes of the group (R163). -/
theorem arFlush_spec {s0 s : State} {o : List Byte} {t c : Nat} {vs gs : List Nat}
    (W : Written o t c 2 vs s) (F : ArFrame s0 s) (hl : vs.length + 5 ≤ t)
    (hg : (groupBytes s.ar.g).map BitVec.toNat = gs) :
    ∃ u, arFlush s = .done u ∧ Written o t c 2 (vs ++ gs) u ∧ ArFrame s0 u ∧
      u.ar.k = 0 ∧ u.ar.g = Group.zero := by
  obtain ⟨u, hu, hw, hf⟩ := W.writeAll (us := groupBytes s.ar.g)
    (by simpa [groupBytes] using hl) (by
      intro v hv
      simp only [groupBytes, List.mem_cons, List.not_mem_nil, or_false] at hv
      rcases hv with h | h | h | h | h <;> subst h <;> rw [setWidth16_toNat] <;>
        exact BitVec.isLt _)
  refine ⟨arClearGroup u, by simp [arFlush, hu], ?_, ?_, rfl, rfl⟩
  · rw [← hg]; exact hw.congr rfl rfl rfl
  · unfold ArFrame at F ⊢
    simp only [arClearGroup]
    rw [hf, F]; rfl

/-- One frame that WAV holds, on the 10-bit path (R161 to R163). -/
theorem arFrame_ten {s0 s : State} {q : AudioArgs} {o : List Byte} {t c i : Nat}
    (hten : arTen q.bits q.mode = true) (hi : i < q.n.toNat)
    (ht : t = 5 * ceilDiv q.n.toNat 4)
    (hp : ∀ c, c < q.ch.toNat → SamplePresent s0.wav q i c) (H : TenAt s0 q o t c i s) :
    ∃ u, arFrame q i s = .done u ∧ TenAt s0 q o t c (i + 1) u := by
  have hi32 : i < 2 ^ 32 := hi.trans q.n.isLt
  obtain ⟨u, hu, hf, hs⟩ := arChannels_present s q hi32 (H.frame.wav ▸ hp)
  have hb : ¬ q.bits = 8 := by
    intro h; simp [arTen, h] at hten
  rw [H.frame.wav] at hs
  have hv : BitVec.ofNat 10 (u.ar.sum.toNat / (q.ch.toNat * 64)) = arV10 s0.wav q i := by
    simp [arV10, arV, hi, hs]
  have h4 : i % 4 < 4 := Nat.mod_lt _ (by omega)
  have e4 : 4 * (i / 4) + i % 4 = i := Nat.div_add_mod i 4
  have ug : u.ar.g = s.ar.g := by rw [hf]
  have uk : u.ar.k = s.ar.k := by rw [hf]
  set p := arPut (arV10 s0.wav q i) u with hpdef
  have pk : p.ar.k.toNat = i % 4 + 1 := by
    show (u.ar.k + 1).toNat = _
    exact toNat_add_one (uk ▸ H.k) (by omega)
  have pg : p.ar.g = groupAfter s0.wav q (i / 4) (i % 4 + 1) := by
    show groupSetLow _ u.ar.k.toNat _ = _
    rw [ug, uk, H.k, H.g, groupAfter, e4]
  have pW : Written o t c 2 (arGroupElements s0.wav q (i / 4)) p :=
    (hf.written H.written).congr rfl rfl rfl
  have pF : ArFrame s0 p := by
    have := H.frame.sum hf
    unfold ArFrame at this ⊢
    rw [hpdef, this]; rfl
  have hrun : arFrame q i s = if p.ar.k = 4 then arFlush p else .done p := by
    simp only [arFrame, hu, Result.andThen_done, arReduce, hb, hten, hv]
    rfl
  have hk4 : (p.ar.k = 4) = (i % 4 = 3) := by
    rw [BitVec.toNat_eq, pk]
    show (i % 4 + 1 = 4) = _
    simp
  by_cases h3 : i % 4 = 3
  · have hlen : (arGroupElements s0.wav q (i / 4)).length + 5 ≤ t := by
      rw [arGroupElements_length, ht]
      unfold ceilDiv
      omega
    obtain ⟨w, hw, hW, hF, wk, wg⟩ := arFlush_spec pW pF hlen
      (gs := arGroup s0.wav q (i / 4)) (by rw [pg, h3]; exact groupAfter_full _)
    refine ⟨w, by rw [hrun, if_pos (hk4 ▸ h3), hw], ?_, hF, ?_, ?_⟩
    · rw [show (i + 1) / 4 = i / 4 + 1 by omega, arGroupElements_succ]; exact hW
    · rw [wk]; show 0 = _; omega
    · rw [wg, show (i + 1) % 4 = 0 by omega]; rfl
  · refine ⟨p, by rw [hrun, if_neg (hk4 ▸ h3)], ?_, pF, ?_, ?_⟩
    · rw [show (i + 1) / 4 = i / 4 by omega]; exact pW
    · rw [pk]; omega
    · rw [pg, show (i + 1) / 4 = i / 4 by omega, show (i + 1) % 4 = i % 4 + 1 by omega]

/-- A frame of which WAV lacks a sample raises SrcBounds before it writes anything. -/
theorem arFrame_missing {s0 s : State} {q : AudioArgs} {i c0 : Nat} (hi : i < 2 ^ 32)
    (hc : c0 < q.ch.toNat) (hm : ¬ SamplePresent s0.wav q i c0)
    (hp : ∀ c, c < c0 → SamplePresent s0.wav q i c) (F : ArFrame s0 s) :
    ∃ u, arFrame q i s = .raised (srcBoundsWav (arAddress q i c0)) u ∧ SumFrame s u ∧
      ArFrame s0 u := by
  obtain ⟨u, hu, hf⟩ := arChannels_missing s q hi hc (F.wav ▸ hm) (F.wav ▸ hp)
  exact ⟨u, by simp only [arFrame, hu, Result.andThen_raised], hf, F.sum hf⟩

end Sys2Proof.Machine
end

