-- ==== Sys2Proof/Laws/Bitmap.lean ====
section
/-! SUPPORT. What the loops of BP.RUN do: one pixel, one row, the grid, against the elements of the
closed form (R111 to R118). -/

namespace Sys2Proof.Machine

/-- The value in BP.ACC after the first `r` bits of the byte that starts at column `b` (R114). -/
def accValue (m : PixMem Sample) (w y b : Nat) : Nat → Nat
  | 0 => 0
  | r + 1 => 2 * accValue m w y b r + bpBitAt m w (b + r) y

theorem bpBitAt_le (m : PixMem Sample) (w x y : Nat) : bpBitAt m w x y ≤ 1 := by
  unfold bpBitAt; split <;> omega

theorem accValue_lt (m : PixMem Sample) (w y b r : Nat) : accValue m w y b r < 2 ^ r := by
  induction r with
  | zero => simp [accValue]
  | succ r ih =>
    have := bpBitAt_le m w (b + r) y
    simp only [accValue, pow_succ]; omega

/-- Eight bits make the element of the closed form (R115). -/
theorem accValue_full (m : PixMem Sample) (w y j : Nat) :
    accValue m w y (8 * j) 8 = bpElement m w y j := by
  simp only [bpElement, accValue, List.range_succ, List.range_zero, Nat.shiftLeft_eq]
  simp
  omega

/-- The left-aligned partial byte is the element of the closed form (R116). -/
theorem accValue_partial (m : PixMem Sample) {w y j r : Nat} (hr : r < 8) (hw : 8 * j + r = w) :
    accValue m w y (8 * j) r * 2 ^ (8 - r) = bpElement m w y j := by
  have hz : ∀ i, r ≤ i → bpBitAt m w (8 * j + i) y = 0 := by
    intro i hi; simp [bpBitAt]; omega
  rw [← accValue_full]
  interval_cases r <;>
    simp only [accValue, Nat.reduceSub, Nat.reducePow] <;>
    simp only [hz 0, hz 1, hz 2, hz 3, hz 4, hz 5, hz 6, hz 7, Nat.le_refl, Nat.reduceLeDiff] <;>
    omega

/-- Shifting a bit into the accumulator (R114). -/
theorem shiftIn_toNat (a : BitVec 8) (b : BitVec 1) (h : a.toNat < 128) :
    ((a <<< 1) ||| b.setWidth 8).toNat = 2 * a.toNat + b.toNat := by
  revert a b; decide

/-- The left alignment of a partial byte (R116). -/
theorem alignLeft_toNat (a : BitVec 8) (r : Nat) (hr : r ≤ 8) (h : a.toNat < 2 ^ r) :
    (a <<< (8 - r)).toNat = a.toNat * 2 ^ (8 - r) := by
  rw [BitVec.toNat_shiftLeft, Nat.shiftLeft_eq]
  apply Nat.mod_eq_of_lt
  calc a.toNat * 2 ^ (8 - r) < 2 ^ r * 2 ^ (8 - r) :=
        Nat.mul_lt_mul_of_pos_right h (by positivity)
    _ = 2 ^ 8 := by rw [← pow_add]; congr 1; omega

theorem bpBit_toNat (v : Sample) : (bpBit v).toNat = if 0 < v.toNat then 1 else 0 := by
  unfold bpBit; split <;> rfl

/-- `t` differs from `s` in OUT, HF, FMTOPEN and BP only. -/
def BpFrame (s t : State) : Prop :=
  t = { s with out := t.out, hf := t.hf, fmtOpen := t.fmtOpen, bp := t.bp }

/-- The elements of the rows above `y` and of the first `j` bytes of row `y`. -/
def bpPrefix (m : PixMem Sample) (w y j : Nat) : List Nat :=
  bpElements m w y ++ (List.range j).map fun j => bpElement m w y j

@[simp] theorem bpElements_length (m : PixMem Sample) (w h : Nat) :
    (bpElements m w h).length = h * ceilDiv w 8 := by
  simp [bpElements, List.length_flatMap]

@[simp] theorem bpPrefix_length (m : PixMem Sample) (w y j : Nat) :
    (bpPrefix m w y j).length = y * ceilDiv w 8 + j := by
  simp [bpPrefix]

theorem bpPrefix_row (m : PixMem Sample) (w y : Nat) :
    bpPrefix m w y (ceilDiv w 8) = bpElements m w (y + 1) := by
  simp [bpPrefix, bpElements, List.range_succ, List.flatMap_append]

theorem bpPrefix_succ (m : PixMem Sample) (w y j : Nat) :
    bpPrefix m w y (j + 1) = bpPrefix m w y j ++ [bpElement m w y j] := by
  simp [bpPrefix, List.range_succ]

/-- Where BP stands before column `x` of row `y`. -/
structure BpAt (s0 : State) (o : List Byte) (n c w y x : Nat) (s : State) : Prop where
  written : Written o n c 2 (bpPrefix s0.pixm w y (x / 8)) s
  frame : BpFrame s0 s
  row : s.bp.y.toNat = y
  nb : s.bp.nb.toNat = x % 8
  acc : s.bp.acc.toNat = accValue s0.pixm w y (8 * (x / 8)) (x % 8)

theorem BpFrame.pixM {s t : State} (h : BpFrame s t) (x y : Nat) : t.pixM x y = s.pixM x y := by
  rw [h]; rfl

/-- A pixel that PIXM does not hold raises SrcBounds and writes nothing but BP.X. -/
theorem bpPixel_missing {s0 s : State} {o : List Byte} {n c w y x : Nat}
    (H : BpAt s0 o n c w y x s) (hx : x < 65536) (hp : s0.pixm.at? x y = none) :
    ∃ u, bpPixel x s = .raised (srcBoundsPix x y) u ∧
      Written o n c 2 (bpPrefix s0.pixm w y (x / 8)) u ∧ BpFrame s0 u := by
  have hx' : (BitVec.ofNat 16 x).toNat = x := by simp; omega
  refine ⟨s.setBp { s.bp with x := BitVec.ofNat 16 x }, ?_, H.written.congr rfl rfl rfl, ?_⟩
  · have : s.pixM x y = .error (srcBoundsPix x y) := by
      rw [H.frame.pixM]; simp [State.pixM, hp]
    simp only [bpPixel, State.setBp_bp, hx', H.row, State.setBp_pixM, this]
  · have := H.frame
    unfold BpFrame at this ⊢
    rw [this]; rfl

/-- One pixel that PIXM holds (R113 to R115). -/
theorem bpPixel_present {s0 s : State} {o : List Byte} {n c w y x : Nat} {v : Sample}
    (H : BpAt s0 o n c w y x s) (hw : x < w) (hx : x < 65536)
    (hp : s0.pixm.at? x y = some v) (hn : y * ceilDiv w 8 + x / 8 < n) :
    ∃ u, bpPixel x s = .done u ∧ BpAt s0 o n c w y (x + 1) u := by
  have hx' : (BitVec.ofNat 16 x).toNat = x := by simp; omega
  have hpix : s.pixM x y = .ok v := by rw [H.frame.pixM]; simp [State.pixM, hp]
  have hbit : bpBitAt s0.pixm w x y = (bpBit v).toNat := by
    simp [bpBitAt, hp, hw, bpBit_toNat]
  have hlt := accValue_lt s0.pixm w y (8 * (x / 8)) (x % 8)
  have h8 : x % 8 < 8 := Nat.mod_lt _ (by omega)
  have hpow : (2 : Nat) ^ (x % 8) ≤ 128 := by
    calc (2 : Nat) ^ (x % 8) ≤ 2 ^ 7 := Nat.pow_le_pow_right (by omega) (by omega)
      _ = 128 := by norm_num
  have hacc := shiftIn_toNat s.bp.acc (bpBit v) (by rw [H.acc]; omega)
  have hnb : (s.bp.nb + 1).toNat = x % 8 + 1 := toNat_add_one H.nb (by omega)
  have hval : accValue s0.pixm w y (8 * (x / 8)) (x % 8 + 1)
      = 2 * s.bp.acc.toNat + (bpBit v).toNat := by
    simp only [accValue, H.acc, ← hbit]
    congr 2; omega
  set s1 := bpShiftIn (bpBit v) (s.setBp { s.bp with x := BitVec.ofNat 16 x }) with hs1
  have e1 : s1.bp.nb = s.bp.nb + 1 := rfl
  have e2 : s1.bp.acc.toNat = accValue s0.pixm w y (8 * (x / 8)) (x % 8 + 1) := by
    rw [hval, ← hacc]; rfl
  have e3 : s1.bp.y = s.bp.y := rfl
  have W : Written o n c 2 (bpPrefix s0.pixm w y (x / 8)) s1 := H.written.congr rfl rfl rfl
  have F : BpFrame s0 s1 := by
    have := H.frame
    unfold BpFrame at this ⊢
    rw [hs1, this]; rfl
  have hrun : bpPixel x s = if s1.bp.nb = 8 then
      (hfWrite (s1.bp.acc.setWidth 16) s1).andThen fun s => .done (bpClear s) else .done s1 := by
    simp only [bpPixel, State.setBp_bp, hx', H.row, State.setBp_pixM, hpix]
    rfl
  have h88 : (s1.bp.nb = 8) = (x % 8 = 7) := by
    rw [BitVec.toNat_eq, e1, hnb]
    show (x % 8 + 1 = 8) = _
    simp
  by_cases h7 : x % 8 = 7
  · have hfull : s1.bp.acc.toNat = bpElement s0.pixm w y (x / 8) := by
      rw [e2, h7, accValue_full]
    have hset : (s1.bp.acc.setWidth 16).toNat = s1.bp.acc.toNat := by
      simp; omega
    obtain ⟨u, hu, hwr, hfr⟩ := W.write (v := s1.bp.acc.setWidth 16) (by simpa using hn)
      (by rw [hset]; exact s1.bp.acc.isLt)
    refine ⟨bpClear u, by rw [hrun, if_pos (h88 ▸ h7), hu]; rfl, ?_, ?_, ?_, ?_, ?_⟩
    · have : (x + 1) / 8 = x / 8 + 1 := by omega
      rw [this, bpPrefix_succ, ← hfull, ← hset]
      exact hwr.congr rfl rfl rfl
    · unfold BpFrame at F ⊢
      simp only [bpClear]
      rw [hfr, F]; rfl
    · show u.bp.y.toNat = y
      rw [hfr]; exact H.row
    · show (0 : Nat) = _
      omega
    · have : (x + 1) % 8 = 0 := by omega
      rw [this]; rfl
  · have hd : (x + 1) / 8 = x / 8 := by omega
    have hm : (x + 1) % 8 = x % 8 + 1 := by omega
    refine ⟨s1, by rw [hrun, if_neg (h88 ▸ h7)], ?_, F, H.row, ?_, ?_⟩
    · rw [hd]; exact W
    · rw [e1, hnb, hm]
    · rw [e2, hd, hm]

/-- A row starts with a fresh accumulator (R117). -/
theorem BpAt.start {s0 s : State} {o : List Byte} {n c w y : Nat} (hy : y < 65536)
    (W : Written o n c 2 (bpElements s0.pixm w y) s) (F : BpFrame s0 s) :
    BpAt s0 o n c w y 0 (bpClear (s.setBp { s.bp with y := BitVec.ofNat 16 y })) := by
  refine ⟨?_, ?_, ?_, rfl, rfl⟩
  · have : bpPrefix s0.pixm w y (0 / 8) = bpElements s0.pixm w y := by simp [bpPrefix]
    rw [this]
    exact W.congr rfl rfl rfl
  · unfold BpFrame at F ⊢
    rw [F]; rfl
  · show (BitVec.ofNat 16 y).toNat = y
    simp; omega

/-- One row that PIXM holds. -/
theorem bpRow_present {s0 s : State} {o : List Byte} {n c w h y : Nat} (hy : y < h)
    (hh : h < 65536) (hw : w < 65536) (hn : n = h * ceilDiv w 8)
    (hp : ∀ x, x < w → (s0.pixm.at? x y).isSome = true)
    (W : Written o n c 2 (bpElements s0.pixm w y) s) (F : BpFrame s0 s) :
    ∃ u, bpRow w y s = .done u ∧ Written o n c 2 (bpElements s0.pixm w (y + 1)) u ∧
      BpFrame s0 u := by
  have hB : (w + 7) / 8 = ceilDiv w 8 := rfl
  have hle : (y + 1) * ceilDiv w 8 ≤ n := by rw [hn]; exact Nat.mul_le_mul_right _ hy
  have hle' : y * ceilDiv w 8 + ceilDiv w 8 ≤ n := by rw [← Nat.succ_mul]; exact hle
  obtain ⟨t, ht, H⟩ := forRange_done (fun x t => BpAt s0 o n c w y x t) (n := w)
    (BpAt.start (by omega) W F)
    (fun x t _ hx H => by
      obtain ⟨v, hv⟩ := Option.isSome_iff_exists.mp (hp x (by omega))
      exact bpPixel_present H (by omega) (by omega) hv (by omega))
  rw [Nat.zero_add] at H
  have h8 : w % 8 < 8 := Nat.mod_lt _ (by omega)
  have hnz : (t.bp.nb = 0#4) = (w % 8 = 0) := by rw [BitVec.toNat_eq, H.nb]; rfl
  by_cases hz : w % 8 = 0
  · refine ⟨t, by simp [bpRow, ht, bpRowEnd, hnz, hz], ?_, H.frame⟩
    have : ceilDiv w 8 = w / 8 := by omega
    rw [← bpPrefix_row, this]; exact H.written
  · have hc : ceilDiv w 8 = w / 8 + 1 := by omega
    have hlt := accValue_lt s0.pixm w y (8 * (w / 8)) (w % 8)
    have hal := alignLeft_toNat t.bp.acc (w % 8) (by omega) (by rw [H.acc]; exact hlt)
    have hv : ((t.bp.acc <<< (8 - t.bp.nb.toNat)).setWidth 16).toNat
        = bpElement s0.pixm w y (w / 8) := by
      rw [← accValue_partial s0.pixm h8 (Nat.div_add_mod w 8), ← H.acc, ← hal, H.nb]
      simp; omega
    obtain ⟨u, hu, hwr, hfr⟩ := H.written.write
      (v := (t.bp.acc <<< (8 - t.bp.nb.toNat)).setWidth 16) (by simp; omega) (by simp; omega)
    refine ⟨bpClear u, by simp [bpRow, ht, bpRowEnd, hnz, hz, hu], ?_, ?_⟩
    · rw [← bpPrefix_row, hc, bpPrefix_succ, ← hv]
      exact hwr.congr rfl rfl rfl
    · have F := H.frame
      unfold BpFrame at F ⊢
      simp only [bpClear]
      rw [hfr, F]; rfl

end Sys2Proof.Machine
end

