-- ==== Sys2Proof/Laws/Checks.lean ====
section
/-! SUPPORT. What the up-front checks of each command say when they pass, the magic check, and what
a step can be. -/

namespace Sys2Proof.Machine

/-! ### Checks that pass -/

theorem fmtOpenChecks_ok_iff {s : State} {q : OpenArgs} :
    fmtOpenChecks s = .ok q ↔
      s.hf.state = .idle ∧ s.p.fmtTotal = some q.total ∧ s.p.fmtCols = some q.cols ∧
        s.p.fmtDigits = some q.digits ∧ q.total ≠ 0 := by
  simp only [fmtOpenChecks, needIdle, except_bind_eq_ok_iff, check_ok_iff, rdFmtTotal, rdFmtDigits,
    rdFmtCols, needReg_ok_iff, except_pure, decide_eq_true_eq]
  constructor
  · rintro ⟨_, h0, t, ht, c, hc, d, hd, _, h1, h⟩
    cases h
    exact ⟨h0, ht, hc, hd, h1⟩
  · rintro ⟨h0, ht, hc, hd, h1⟩
    exact ⟨(), h0, _, ht, _, hc, _, hd, (), h1, rfl⟩

theorem imageChecks_ok_iff {count : Nat → Nat → Nat} {s : State} {q : ImageArgs} :
    imageChecks count s = .ok q ↔
      s.hf.state = .idle ∧ s.p.imgW = some q.w ∧ s.p.imgH = some q.h ∧ s.p.fmtCols = some q.cols ∧
        q.n = count q.w.toNat q.h.toNat ∧ q.n ≠ 0 := by
  simp only [imageChecks, needIdle, except_bind_eq_ok_iff, check_ok_iff, rdImgW, rdImgH, rdFmtCols,
    needReg_ok_iff, except_pure, decide_eq_true_eq]
  constructor
  · rintro ⟨_, h0, w, hw, h, hh, c, hc, _, h1, e⟩
    cases e
    exact ⟨h0, hw, hh, hc, rfl, h1⟩
  · obtain ⟨w, h, c, n⟩ := q
    dsimp only
    rintro ⟨h0, hw, hh, hc, rfl, h1⟩
    exact ⟨(), h0, _, hw, _, hh, _, hc, (), h1, rfl⟩

theorem arRunChecks_ok_iff {s : State} {q : AudioArgs} :
    arRunChecks s = .ok q ↔
      s.hf.state = .idle ∧ s.p.audChannels = some q.ch ∧ s.p.audBits = some q.bits ∧
        s.p.audFrame = some q.frame ∧ s.p.audNsamp = some q.n ∧ s.p.audDataoff = some q.off ∧
        s.p.audMode = some q.mode ∧ s.p.fmtCols = some q.cols ∧ (q.bits = 8 ∨ q.bits = 16) ∧
        q.ch ≠ 0 ∧ q.cnt = arCount (arTen q.bits q.mode) q.n.toNat ∧ q.cnt ≠ 0 ∧
        q.cnt < 2 ^ 32 := by
  simp only [arRunChecks, needIdle, except_bind_eq_ok_iff, check_ok_iff, rdAudChannels, rdAudBits,
    rdAudFrame, rdAudNsamp, rdAudDataoff, rdAudMode, rdFmtCols, needReg_ok_iff, except_pure,
    decide_eq_true_eq]
  constructor
  · rintro ⟨_, h0, ch, h1, b, h2, fr, h3, n, h4, off, h5, m, h6, c, h7, _, h8, _, h9, _, h10, _,
      h11, e⟩
    cases e
    exact ⟨h0, h1, h2, h3, h4, h5, h6, h7, h8, h9, rfl, h10, h11⟩
  · obtain ⟨ch, b, fr, n, off, m, c, cnt⟩ := q
    dsimp only
    rintro ⟨h0, h1, h2, h3, h4, h5, h6, h7, h8, h9, rfl, h10, h11⟩
    exact ⟨(), h0, _, h1, _, h2, _, h3, _, h4, _, h5, _, h6, _, h7, (), h8, (), h9, (), h10, (),
      h11, rfl⟩

/-! ### The magic check (R147) -/

theorem wavMatches_iff (m : Memory) (l : List Byte) :
    ∀ a, wavMatches m a l = true ↔ ∀ i, i < l.length → m.byte? (a + i) = l[i]? := by
  induction l with
  | nil => simp [wavMatches]
  | cons b t ih =>
    intro a
    simp only [wavMatches, Bool.and_eq_true, decide_eq_true_eq, ih]
    constructor
    · rintro ⟨h1, h2⟩ i hi
      cases i with
      | zero => simpa using h1
      | succ i =>
        have := h2 i (by simpa using hi)
        rw [show a + (i + 1) = a + 1 + i by omega]
        simpa using this
    · intro h
      refine ⟨by simpa using h 0 (by simp), fun i hi => ?_⟩
      have := h (i + 1) (by simpa using hi)
      rw [show a + (i + 1) = a + 1 + i by omega] at this
      simpa using this

theorem magicPresent_iff (m : Memory) :
    MagicPresent m ↔ wavMatches m 0 magicRiff = true ∧ wavMatches m 8 magicWave = true := by
  rw [wavMatches_iff, wavMatches_iff]
  simp [MagicPresent, magicRiff, magicWave]

/-! ### The step -/

theorem fetch_eq_none_iff {s : State} : s.fetch = none ↔ s.cmd.length ≤ s.cp := by
  simp [State.fetch]

/-- Everything a step that answers a next state can be (R28). -/
theorem step_next_cases {s t : State} (h : step s = .next t) :
    s.fault = false ∧ s.cp < s.cmd.length ∧ ∃ w, s.fetch = some w ∧
      ((∃ i, decode w = .ok i ∧ exec i s = .next t) ∨
        ((∀ i, decode w ≠ .ok i) ∧ t = s.takeFault (illegalCommand w))) := by
  unfold step at h
  cases hf : s.fault <;> simp only [hf, Bool.false_eq_true, if_false, if_true, reduceCtorEq] at h
  cases hw : s.fetch with
  | none => simp only [hw, reduceCtorEq] at h
  | some w =>
    have hlt : s.cp < s.cmd.length := by
      by_contra hn
      have := fetch_eq_none_iff.mpr (Nat.le_of_not_lt hn)
      simp [this] at hw
    refine ⟨rfl, hlt, w, rfl, ?_⟩
    cases hd : decode w <;> simp only [hw, hd] at h
    · exact .inr ⟨by simp, (Host.Outcome.next.inj h).symm⟩
    · exact .inl ⟨_, rfl, h⟩

end Sys2Proof.Machine
end

