-- ==== Sys2Proof/Laws/Color.lean ====
section
/-! SUPPORT. What the loops of CQ.RUN do: one pixel, one column, against the elements of the closed
form (R131 to R135). -/

namespace Sys2Proof.Machine

/-- The packed value is the value of the closed form (R133). -/
theorem cqPack_toNat (c : Rgb) : (cqPack c).toNat = cqValue c.r.toNat c.g.toNat c.b.toNat := by
  have h1 := c.r.isLt
  have h2 := c.g.isLt
  have e1 : (c.r &&& 0xF8).toNat <<< 8 % 65536 = (c.r.toNat &&& 0xF8) <<< 8 := by
    rw [BitVec.toNat_and, Nat.shiftLeft_eq]
    have : c.r.toNat &&& 0xF8 ≤ c.r.toNat := Nat.and_le_left
    show (c.r.toNat &&& 0xF8) * 2 ^ 8 % 65536 = _
    rw [Nat.shiftLeft_eq]; omega
  have e2 : (c.g &&& 0xFC).toNat <<< 3 % 65536 = (c.g.toNat &&& 0xFC) <<< 3 := by
    rw [BitVec.toNat_and, Nat.shiftLeft_eq]
    have : c.g.toNat &&& 0xFC ≤ c.g.toNat := Nat.and_le_left
    show (c.g.toNat &&& 0xFC) * 2 ^ 3 % 65536 = _
    rw [Nat.shiftLeft_eq]; omega
  have w1 : ∀ b : Byte, (b.setWidth 16).toNat = b.toNat := by intro b; simp; omega
  simp only [cqPack, cqValue, BitVec.toNat_or, BitVec.toNat_shiftLeft, w1, Nat.reducePow, e1, e2,
    BitVec.toNat_ushiftRight]

/-- `t` differs from `s` in OUT, HF, FMTOPEN, CQ and CQUSED only. -/
def CqFrame (s t : State) : Prop :=
  t = { s with out := t.out, hf := t.hf, fmtOpen := t.fmtOpen, cq := t.cq, cqUsed := true }

theorem CqFrame.pixC {s t : State} (h : CqFrame s t) (x y : Nat) : t.pixC x y = s.pixC x y := by
  rw [h]; rfl

/-- The elements of the columns left of `x` and of the first `y` pixels of column `x`. -/
def cqPrefix (m : PixMem Rgb) (h x y : Nat) : List Nat :=
  cqElements m x h ++ (List.range y).map fun y => cqElement m x y

@[simp] theorem cqElements_length (m : PixMem Rgb) (w h : Nat) :
    (cqElements m w h).length = w * h := by
  simp [cqElements, List.length_flatMap]

@[simp] theorem cqPrefix_length (m : PixMem Rgb) (h x y : Nat) :
    (cqPrefix m h x y).length = x * h + y := by
  simp [cqPrefix]

theorem cqPrefix_column (m : PixMem Rgb) (h x : Nat) :
    cqPrefix m h x h = cqElements m (x + 1) h := by
  simp [cqPrefix, cqElements, List.range_succ, List.flatMap_append]

theorem cqPrefix_succ (m : PixMem Rgb) (h x y : Nat) :
    cqPrefix m h x (y + 1) = cqPrefix m h x y ++ [cqElement m x y] := by
  simp [cqPrefix, List.range_succ]

/-- Where CQ stands before row `y` of column `x`. -/
structure CqAt (s0 : State) (o : List Byte) (n c h x y : Nat) (s : State) : Prop where
  written : Written o n c 4 (cqPrefix s0.pixc h x y) s
  frame : CqFrame s0 s
  column : s.cq.x.toNat = x

/-- A column starts at its top (R134). -/
theorem CqAt.start {s0 s : State} {o : List Byte} {n c h x : Nat} (hx : x < 65536)
    (W : Written o n c 4 (cqElements s0.pixc x h) s) (F : CqFrame s0 s) :
    CqAt s0 o n c h x 0 (s.setCq { s.cq with x := BitVec.ofNat 16 x }) := by
  refine ⟨?_, ?_, ?_⟩
  · have : cqPrefix s0.pixc h x 0 = cqElements s0.pixc x h := by simp [cqPrefix]
    rw [this]
    exact W.congr rfl rfl rfl
  · unfold CqFrame at F ⊢
    rw [F]; rfl
  · show (BitVec.ofNat 16 x).toNat = x
    simp; omega

/-- A pixel that PIXC does not hold raises SrcBounds and writes nothing but CQ.Y. -/
theorem cqPixel_missing {s0 s : State} {o : List Byte} {n c h x y : Nat}
    (H : CqAt s0 o n c h x y s) (hy : y < 65536) (hp : s0.pixc.at? x y = none) :
    ∃ u, cqPixel y s = .raised (srcBoundsPix x y) u ∧
      Written o n c 4 (cqPrefix s0.pixc h x y) u ∧ CqFrame s0 u := by
  have hy' : (BitVec.ofNat 16 y).toNat = y := by simp; omega
  refine ⟨s.setCq { s.cq with y := BitVec.ofNat 16 y }, ?_, H.written.congr rfl rfl rfl, ?_⟩
  · have : s.pixC x y = .error (srcBoundsPix x y) := by
      rw [H.frame.pixC]; simp [State.pixC, hp]
    simp only [cqPixel, State.setCq_cq, hy', H.column, State.setCq_pixC, this]
  · have := H.frame
    unfold CqFrame at this ⊢
    rw [this]; rfl

/-- One pixel that PIXC holds (R133, R134). -/
theorem cqPixel_present {s0 s : State} {o : List Byte} {n c h x y : Nat} {v : Rgb}
    (H : CqAt s0 o n c h x y s) (hy : y < 65536)
    (hp : s0.pixc.at? x y = some v) (hn : x * h + y < n) :
    ∃ u, cqPixel y s = .done u ∧ CqAt s0 o n c h x (y + 1) u := by
  have hy' : (BitVec.ofNat 16 y).toNat = y := by simp; omega
  have hpix : s.pixC x y = .ok v := by rw [H.frame.pixC]; simp [State.pixC, hp]
  set s1 := s.setCq { s.cq with y := BitVec.ofNat 16 y } with hs1
  have W : Written o n c 4 (cqPrefix s0.pixc h x y) s1 := H.written.congr rfl rfl rfl
  obtain ⟨u, hu, hwr, hfr⟩ := W.write (v := cqPack v) (by simpa using hn)
    (by have := (cqPack v).isLt; simpa using this)
  refine ⟨u, ?_, ?_, ?_, ?_⟩
  · simp only [cqPixel, State.setCq_cq, hy', H.column, State.setCq_pixC, hpix]
    exact hu
  · have : cqElement s0.pixc x y = (cqPack v).toNat := by
      simp [cqElement, hp, cqPack_toNat]
    rw [cqPrefix_succ, this]; exact hwr
  · have F := H.frame
    unfold CqFrame at F ⊢
    rw [hfr, hs1, F]; rfl
  · rw [hfr]; exact H.column

/-- One column that PIXC holds. -/
theorem cqColumn_present {s0 s : State} {o : List Byte} {n c w h x : Nat} (hx : x < w)
    (hw : w < 65536) (hh : h < 65536) (hn : n = w * h)
    (hp : ∀ y, y < h → (s0.pixc.at? x y).isSome = true)
    (W : Written o n c 4 (cqElements s0.pixc x h) s) (F : CqFrame s0 s) :
    ∃ u, cqColumn h x s = .done u ∧ Written o n c 4 (cqElements s0.pixc (x + 1) h) u ∧
      CqFrame s0 u := by
  have hle : x * h + h ≤ n := by rw [hn, ← Nat.succ_mul]; exact Nat.mul_le_mul_right _ hx
  obtain ⟨t, ht, H⟩ := forRange_done (fun y t => CqAt s0 o n c h x y t) (n := h)
    (CqAt.start (by omega) W F)
    (fun y t _ hy H => by
      obtain ⟨v, hv⟩ := Option.isSome_iff_exists.mp (hp y (by omega))
      exact cqPixel_present H (by omega) hv (by omega))
  rw [Nat.zero_add] at H
  exact ⟨t, ht, cqPrefix_column s0.pixc h x ▸ H.written, H.frame⟩

end Sys2Proof.Machine
end

