-- ==== Sys2Proof/Laws/Decode.lean ====
section
/-! SUPPORT. The fields of a word under the encoder, and which row a word matches. -/

namespace Sys2Proof

@[simp] theorem wordSub_encode_setp (p : RegIndex) (imm : Imm) :
    wordSub (encode (.setp p imm)) = p := by
  simp only [wordSub, encode]; ext k hk; interval_cases k <;> simp

@[simp] theorem wordImm_encode_setp (p : RegIndex) (imm : Imm) :
    wordImm (encode (.setp p imm)) = imm := by
  simp only [wordImm, encode]; ext k hk; interval_cases k <;> simp

@[simp] theorem wordSub_encode_getp (p : RegIndex) : wordSub (encode (.getp p)) = p := by
  simp only [wordSub, encode]; ext k hk; interval_cases k <;> simp

@[simp] theorem wordVal_encode_fmtWrite (v : Half) : wordVal (encode (.fmtWrite v)) = v := by
  simp only [wordVal, encode]; ext k hk; interval_cases k <;> simp

/-- SETP's word matches SETP's mask. -/
theorem encode_setp_mask (p : RegIndex) (imm : Imm) :
    encode (.setp p imm) &&& rowMask .setp = rowValue .setp := by
  simp only [encode, rowMask, rowValue]; ext k hk; interval_cases k <;> simp

/-- GETP's word matches GETP's mask. -/
theorem encode_getp_mask (p : RegIndex) :
    encode (.getp p) &&& rowMask .getp = rowValue .getp := by
  simp only [encode, rowMask, rowValue]; ext k hk; interval_cases k <;> simp

/-- FMT.WRITE's word matches FMT.WRITE's mask. -/
theorem encode_fmtWrite_mask (v : Half) :
    encode (.fmtWrite v) &&& rowMask .fmtWrite = rowValue .fmtWrite := by
  simp only [encode, rowMask, rowValue]; ext k hk; interval_cases k <;> simp

/-- A word that matches a row has the group of the row's `match`. -/
theorem wordGroup_of_mask {w : Word} {r : Row} (h : w &&& rowMask r = rowValue r) :
    wordGroup w = wordGroup (rowValue r) := by
  rw [← h]
  cases r <;> simp only [wordGroup, rowMask] <;> ext k hk <;> interval_cases k <;> simp

/-- For the rows of groups 3 to 6 the sub-code is fixed too. -/
theorem wordSub_of_mask {w : Word} {r : Row} (h : w &&& rowMask r = rowValue r)
    (h1 : r ≠ .setp) (h2 : r ≠ .getp) : wordSub w = wordSub (rowValue r) := by
  rw [← h]
  cases r <;> simp only [wordSub, rowMask] <;> first | exact absurd rfl h1 | exact absurd rfl h2 | skip
  all_goals ext k hk; interval_cases k <;> simp

/-- Decoding finds a row, or names the reason it does not. -/
theorem decode_cases (w : Word) :
    (∃ r, rowTable.find? (fun r => rowAccepts r w) = some r ∧ decode w = .ok (rowInstr r w)) ∨
      (rowTable.find? (fun r => rowAccepts r w) = none ∧ decode w = .error (illegalReason w)) := by
  unfold decode
  cases h : rowTable.find? (fun r => rowAccepts r w) <;> simp

/-- A row that takes a word matches its mask and builds a well-formed command. -/
theorem rowAccepts_iff {r : Row} {w : Word} :
    rowAccepts r w = true ↔ w &&& rowMask r = rowValue r ∧ (rowInstr r w).wellFormed = true := by
  simp [rowAccepts]

end Sys2Proof
end

