-- ==== Sys2Proof/Laws/Memory.lean ====
section
/-! SUPPORT. The one form of WAV memory: every operation on it keeps the form, and reset has it
(log entry 9). -/

namespace Sys2Proof.Machine

/-- What `Memory.wf` says of each cell, below a bound `n`. -/
def CellsOk (n : Nat) (l : List Host.Cell) : Prop :=
  (l.map Prod.fst).Pairwise (· < ·) ∧ ∀ c ∈ l, c.1 < n ∧ c.2 ≠ Memory.unlisted

theorem wf_iff (m : Memory) : m.wf = true ↔ CellsOk m.len.toNat m.cells := by
  simp [Memory.wf, CellsOk]

theorem cellsOk_cons {n k : Nat} {v : Byte} {l : List Host.Cell} :
    CellsOk n ((k, v) :: l) ↔
      (∀ c ∈ l, k < c.1) ∧ (k < n ∧ v ≠ Memory.unlisted) ∧ CellsOk n l := by
  simp only [CellsOk, List.map_cons, List.pairwise_cons, List.mem_map, List.forall_mem_cons]
  constructor
  · rintro ⟨⟨h1, h2⟩, h3, h4⟩
    exact ⟨fun c hc => h1 _ ⟨c, hc, rfl⟩, h3, h2, h4⟩
  · rintro ⟨h1, h2, h3, h4⟩
    exact ⟨⟨by rintro _ ⟨c, hc, rfl⟩; exact h1 c hc, h3⟩, h2, h4⟩

theorem mem_cellsWrite {a : Nat} {b : Byte} {l : List Host.Cell} {c : Host.Cell}
    (h : c ∈ cellsWrite a b l) : c = (a, b) ∨ c ∈ l := by
  induction l with
  | nil =>
    simp only [cellsWrite] at h
    split at h <;> simp_all
  | cons x t ih =>
    obtain ⟨k, v⟩ := x
    simp only [cellsWrite] at h
    split at h
    · split at h
      · exact .inr h
      · simpa using h
    · split at h
      · split at h
        · exact .inr (by simp [h])
        · rcases List.mem_cons.mp h with h | h
          · exact .inl h
          · exact .inr (by simp [h])
      · rcases List.mem_cons.mp h with h | h
        · exact .inr (by simp [h])
        · rcases ih h with h | h
          · exact .inl h
          · exact .inr (by simp [h])

theorem cellsWrite_ok {n a : Nat} {b : Byte} {l : List Host.Cell} (ha : a < n)
    (h : CellsOk n l) : CellsOk n (cellsWrite a b l) := by
  induction l with
  | nil =>
    simp only [cellsWrite]
    split
    · exact h
    · simp [CellsOk, *]
  | cons x t ih =>
    obtain ⟨k, v⟩ := x
    obtain ⟨h1, h2, h3⟩ := cellsOk_cons.mp h
    simp only [cellsWrite]
    split
    · rename_i hk
      split
      · exact h
      · refine cellsOk_cons.mpr ⟨fun c hc => ?_, ⟨ha, ‹_›⟩, h⟩
        rcases List.mem_cons.mp hc with rfl | hc
        · exact hk
        · exact Nat.lt_trans hk (h1 c hc)
    · split
      · rename_i hk
        subst hk
        split
        · exact h3
        · exact cellsOk_cons.mpr ⟨h1, ⟨ha, ‹_›⟩, h3⟩
      · refine cellsOk_cons.mpr ⟨fun c hc => ?_, h2, ih h3⟩
        rcases mem_cellsWrite hc with rfl | hc
        · show k < a
          omega
        · exact h1 c hc

/-- A write keeps the form. -/
theorem Memory.write_wf {m : Memory} (h : m.wf = true) (a : Nat) (b : Byte) :
    (m.write a b).wf = true := by
  unfold Memory.write
  split
  · exact (wf_iff _).mpr (cellsWrite_ok ‹_› ((wf_iff m).mp h))
  · exact h

theorem cellsOfBytes_ok (bs : List Byte) :
    ∀ a, CellsOk (a + bs.length) (cellsOfBytes a bs) ∧ ∀ c ∈ cellsOfBytes a bs, a ≤ c.1 := by
  induction bs with
  | nil => intro a; simp [cellsOfBytes, CellsOk]
  | cons b t ih =>
    intro a
    obtain ⟨h1, h2⟩ := ih (a + 1)
    rw [Nat.add_assoc, Nat.add_comm 1, ← List.length_cons (a := b)] at h1
    simp only [cellsOfBytes]
    split
    · exact ⟨h1, fun c hc => by have := h2 c hc; omega⟩
    · refine ⟨cellsOk_cons.mpr ⟨fun c hc => h2 c hc, ⟨by simp, ‹_›⟩, h1⟩, fun c hc => ?_⟩
      rcases List.mem_cons.mp hc with rfl | hc
      · exact le_refl _
      · have := h2 c hc; omega

/-- Loading a file gives the form. -/
theorem Memory.ofBytes_wf {bs : List Byte} (h : bs.length < 2 ^ 32) :
    (Memory.ofBytes bs).wf = true := by
  have := (cellsOfBytes_ok bs 0).1
  have hl : (Memory.ofBytes bs).len.toNat = bs.length := by
    simpa [Memory.ofBytes] using Nat.mod_eq_of_lt h
  rw [wf_iff, hl]
  simpa [Memory.ofBytes] using this

/-- The memories of reset have their form. -/
theorem reset_memories_wf :
    State.reset.wav.wf = true ∧ State.reset.pixm.wf = true ∧ State.reset.pixc.wf = true := by
  decide

end Sys2Proof.Machine
end

