-- ==== Sys2Proof/Laws/PerInstr.lean ====
section
/-! SUPPORT. The family `EncodedRow`: the word of a well-formed command is taken by the command's
own row, which builds the command back (R62). One lemma per constructor of `Instr`. -/

namespace Sys2Proof.Laws

/-- The row of `i` accepts the word of `i` and builds `i` from it. -/
def EncodedRow.Statement (i : Instr) : Prop :=
  i.wellFormed = true → rowAccepts (rowOf i) (encode i) = true ∧ rowInstr (rowOf i) (encode i) = i

theorem EncodedRow.setp (p : RegIndex) (imm : Imm) : EncodedRow.Statement (.setp p imm) := by
  intro h
  have hi : rowInstr .setp (encode (.setp p imm)) = .setp p imm := by simp [rowInstr]
  exact ⟨rowAccepts_iff.mpr ⟨encode_setp_mask p imm, by simpa [rowOf, hi] using h⟩, hi⟩

theorem EncodedRow.getp (p : RegIndex) : EncodedRow.Statement (.getp p) := by
  intro h
  have hi : rowInstr .getp (encode (.getp p)) = .getp p := by simp [rowInstr]
  exact ⟨rowAccepts_iff.mpr ⟨encode_getp_mask p, by simpa [rowOf, hi] using h⟩, hi⟩

theorem EncodedRow.fmtOpen : EncodedRow.Statement .fmtOpen := fun _ => by decide

theorem EncodedRow.fmtWrite (val : Half) : EncodedRow.Statement (.fmtWrite val) := by
  intro _
  have hi : rowInstr .fmtWrite (encode (.fmtWrite val)) = .fmtWrite val := by simp [rowInstr]
  exact ⟨rowAccepts_iff.mpr ⟨encode_fmtWrite_mask val, by simp [rowOf, hi, Instr.wellFormed]⟩, hi⟩

theorem EncodedRow.bpRun : EncodedRow.Statement .bpRun := fun _ => by decide
theorem EncodedRow.cqRun : EncodedRow.Statement .cqRun := fun _ => by decide
theorem EncodedRow.arHdr : EncodedRow.Statement .arHdr := fun _ => by decide
theorem EncodedRow.arRun : EncodedRow.Statement .arRun := fun _ => by decide

end Sys2Proof.Laws
end

