-- ==== Sys2Proof/Laws/Walk.lean ====
section
/-! SUPPORT. What a walk of BP.RUN, CQ.RUN or AR.RUN can do to the state, said once for all three:
it moves the unit's own registers and writes elements through HF.write. -/

namespace Sys2Proof.Machine

/-- The state a body ends in, completed or raised, has `P`. -/
def Result.Ends (P : State → Prop) : Result → Prop
  | .done s => P s
  | .raised _ s => P s

theorem Result.Ends.andThen {P Q : State → Prop} {r : Result} {k : State → Result}
    (h : r.Ends P) (hr : ∀ s, P s → Q s) (hk : ∀ s, P s → (k s).Ends Q) : (r.andThen k).Ends Q := by
  cases r with
  | done s => exact hk s h
  | raised e s => exact hr s h

theorem forRange_ends {P : State → Prop} {body : Nat → State → Result} {n : Nat} :
    ∀ {a : Nat} {s : State}, P s → (∀ i s, P s → (body i s).Ends P) →
      (forRange body n a s).Ends P := by
  induction n with
  | zero => intro a s h _; exact h
  | succ n ih =>
    intro a s h hb
    exact (hb a s h).andThen (fun _ h => h) fun _ h => ih h hb

/-- `P` survives every elementary move of a walk. -/
structure WalkKeeps (P : State → Prop) : Prop where
  setBp : ∀ s b, P s → P (s.setBp b)
  setCq : ∀ s c, P s → P (s.setCq c)
  setAr : ∀ s a, P s → P (s.setAr a)
  write : ∀ s v, P s → s.hf.state = .opened → v.toNat < 16 ^ s.hf.digits.toNat →
    P (hfWritten v s)

variable {P : State → Prop}

theorem WalkKeeps.hfWrite (K : WalkKeeps P) {s : State} (h : P s) (v : Half) :
    (hfWrite v s).Ends P := by
  rcases hfWrite_cases v s with ⟨_, e⟩ | ⟨_, _, e⟩ | ⟨ho, hv, e⟩ <;> rw [e]
  · exact h
  · exact h
  · exact K.write s v h ho hv

theorem WalkKeeps.hfWriteAll (K : WalkKeeps P) (vs : List Half) :
    ∀ {s : State}, P s → (hfWriteAll vs s).Ends P := by
  induction vs with
  | nil => intro s h; exact h
  | cons v vs ih =>
    intro s h
    exact (K.hfWrite h v).andThen (fun _ h => h) fun _ h => ih h

theorem WalkKeeps.bpPixel (K : WalkKeeps P) (x : Nat) {s : State} (h : P s) :
    (bpPixel x s).Ends P := by
  have h1 := K.setBp s { s.bp with x := BitVec.ofNat 16 x } h
  simp only [Sys2Proof.Machine.bpPixel]
  split
  · exact h1
  · split
    · refine (K.hfWrite ?_ _).andThen (fun _ h => h) fun _ h => K.setBp _ _ h
      exact K.setBp _ _ h1
    · exact K.setBp _ _ h1

theorem WalkKeeps.bpRow (K : WalkKeeps P) (w y : Nat) {s : State} (h : P s) :
    (bpRow w y s).Ends P := by
  refine (forRange_ends (K.setBp _ _ (K.setBp _ _ h)) fun i s h => K.bpPixel i h).andThen
    (fun _ h => h) fun s h => ?_
  unfold bpRowEnd
  split
  · exact (K.hfWrite h _).andThen (fun _ h => h) fun _ h => K.setBp _ _ h
  · exact h

/-- The walk of BP.RUN. -/
theorem WalkKeeps.bpWalk (K : WalkKeeps P) (q : ImageArgs) {s : State}
    (h : P (hfOpen (BitVec.ofNat 32 q.n) q.cols Config.digitsOfByteCell s)) :
    (bpWalk q s).Ends P :=
  forRange_ends h fun y _ h => K.bpRow _ y h

/-- The walk of CQ.RUN. -/
theorem WalkKeeps.cqWalk (K : WalkKeeps P) (q : ImageArgs) {s : State}
    (h : P ((hfOpen (BitVec.ofNat 32 q.n) q.cols Config.digitsOfHalfCell s).setCqUsed true)) :
    (cqWalk q s).Ends P := by
  refine forRange_ends h fun x s h => ?_
  refine forRange_ends (K.setCq _ _ h) fun y s h => ?_
  simp only [cqPixel]
  split
  · exact K.setCq _ _ h
  · exact K.hfWrite (K.setCq _ _ h) _

theorem WalkKeeps.arFlush (K : WalkKeeps P) {s : State} (h : P s) : (arFlush s).Ends P :=
  (K.hfWriteAll _ h).andThen (fun _ h => h) fun _ h => K.setAr _ _ h

theorem WalkKeeps.arReduce (K : WalkKeeps P) (q : AudioArgs) {s : State} (h : P s) :
    (arReduce q s).Ends P := by
  unfold Sys2Proof.Machine.arReduce
  split
  · exact K.hfWrite h _
  · split
    · exact K.hfWrite h _
    · simp only [arPush]
      split
      · exact K.arFlush (K.setAr _ _ h)
      · exact K.setAr _ _ h

theorem WalkKeeps.arFrame (K : WalkKeeps P) (q : AudioArgs) (i : Nat) {s : State} (h : P s) :
    (arFrame q i s).Ends P := by
  refine (forRange_ends (K.setAr _ _ h) fun c s h => ?_).andThen (fun _ h => h) fun s h =>
    K.arReduce q h
  simp only [arChannel]
  split
  · exact K.setAr _ _ h
  · exact K.setAr _ _ (K.setAr _ _ h)

/-- The walk of AR.RUN. -/
theorem WalkKeeps.arWalk (K : WalkKeeps P) (q : AudioArgs) {s : State}
    (h : P (hfOpen (BitVec.ofNat 32 q.cnt) q.cols Config.digitsOfByteCell s)) :
    (arWalk q s).Ends P := by
  refine (forRange_ends (K.setAr _ _ h) fun i s h => K.arFrame q i h).andThen (fun _ h => h)
    fun s h => ?_
  unfold arTail
  split
  · exact K.arFlush (K.setAr _ _ h)
  · exact h

/-- The frame of a walk: nothing but OUT, FMTOPEN, CQUSED and the registers of the units moves, and
OUT only grows (R24, R111, R131, R151). -/
def WalkFrame (s t : State) : Prop :=
  (∃ cs, t.out = s.out ++ cs) ∧
  t = { s with out := t.out, hf := t.hf, bp := t.bp, cq := t.cq, ar := t.ar,
               fmtOpen := t.fmtOpen, cqUsed := t.cqUsed }

theorem walkFrame_open (s : State) (t : Word) (c : Half) (d : BitVec 3) :
    WalkFrame s (hfOpen t c d s) := ⟨⟨[], by simp⟩, rfl⟩

theorem walkFrame_keeps (s : State) : WalkKeeps (WalkFrame s) where
  setBp t b h := by
    obtain ⟨h1, h2⟩ := h
    exact ⟨h1, by rw [h2]; rfl⟩
  setCq t b h := by
    obtain ⟨h1, h2⟩ := h
    exact ⟨h1, by rw [h2]; rfl⟩
  setAr t b h := by
    obtain ⟨h1, h2⟩ := h
    exact ⟨h1, by rw [h2]; rfl⟩
  write t v h _ _ := by
    obtain ⟨⟨cs, h1⟩, h2⟩ := h
    refine ⟨⟨cs ++ hfChars Config.spaceRule Config.newline t.hf v, by simp [h1]⟩, ?_⟩
    rw [hfWritten_frame, h2]

/-- Everything a command can do: its result ends in a state that differs from the start by a walk, by
the parameter registers or by one response, and it completes or takes fault entry from there. -/
theorem exec_cases (i : Instr) (s : State) :
    ∃ r : Result, exec i s = r.outcome ∧
      r.Ends fun t => WalkFrame s t ∨ t = s.setParams t.p ∨ ∃ v, t = s.respond v := by
  have run {α : Type} (c : Checked α) (k : α → State → Result)
      (h : ∀ a, (k a s).Ends fun t => WalkFrame s t ∨ t = s.setParams t.p ∨ ∃ v, t = s.respond v) :
      ∃ r : Result, runChecked c k s = r.outcome ∧
        r.Ends fun t => WalkFrame s t ∨ t = s.setParams t.p ∨ ∃ v, t = s.respond v := by
    cases c with
    | error e => exact ⟨.raised e s, rfl, .inl ⟨⟨[], by simp⟩, rfl⟩⟩
    | ok a => exact ⟨k a s, rfl, h a⟩
  have weaken {r : Result} (h : r.Ends (WalkFrame s)) :
      r.Ends fun t => WalkFrame s t ∨ t = s.setParams t.p ∨ ∃ v, t = s.respond v := by
    cases r <;> exact .inl h
  cases i with
  | setp p imm => simp only [exec, execSetp]; exact run _ _ fun a => Or.inr (Or.inl rfl)
  | getp p => simp only [exec, execGetp]; exact run _ _ fun a => Or.inr (Or.inr ⟨_, rfl⟩)
  | fmtOpen =>
    simp only [exec, execFmtOpen]; exact run _ _ fun a => Or.inl (walkFrame_open _ _ _ _)
  | fmtWrite v =>
    exact ⟨_, rfl, weaken ((walkFrame_keeps s).hfWrite ⟨⟨[], by simp⟩, rfl⟩ v)⟩
  | bpRun => exact run _ _ fun a => weaken ((walkFrame_keeps s).bpWalk a (walkFrame_open _ _ _ _))
  | cqRun =>
    exact run _ _ fun a => weaken ((walkFrame_keeps s).cqWalk a ⟨⟨[], by simp⟩, rfl⟩)
  | arHdr => simp only [exec, execArHdr]; exact run _ _ fun a => Or.inr (Or.inl rfl)
  | arRun => exact run _ _ fun a => weaken ((walkFrame_keeps s).arWalk a (walkFrame_open _ _ _ _))

end Sys2Proof.Machine
end

