-- ==== Sys2Proof/Tests/Slice0.lean ====
section
/-! SUPPORT. Tests on fixed values: ill-formed commands, words written out from the encodings, single
steps with the results of spec/95_test_vectors.md, and for every statement with hypotheses a state
and operands that meet them. -/

namespace Sys2Proof.Tests

open Sys2Proof Sys2Proof.Machine

/-! ### Well-formedness (R62, R65) -/

theorem test_wf_setp_12_refused : (Instr.setp 12 0).wellFormed = false := by decide
theorem test_wf_setp_11_accepted : (Instr.setp 11 0xFFFFFF).wellFormed = true := by decide
theorem test_wf_getp_15_refused : (Instr.getp 15).wellFormed = false := by decide
theorem test_wf_getp_14_accepted : (Instr.getp 14).wellFormed = true := by decide

/-! ### Decoding: each word is the row's encoding of R62 with its fields written out in bits -/

/-- What the decoder answers, as an option. -/
def decoded (w : Word) : Option Instr := (decode w).toOption

-- 0001 pppp iiii…, p = 10, imm = 10: SETP AUD_MODE, 10 (vector P2)
theorem test_decode_setp :
    decoded 0b00011010000000000000000000001010 = some (.setp 10 10) := by decide
-- 0010 pppp 0…, p = 14: GETP CAUSE (vector P1)
theorem test_decode_getp :
    decoded 0b00101110000000000000000000000000 = some (.getp 14) := by decide
-- 0011 0000 0…
theorem test_decode_fmtOpen :
    decoded 0b00110000000000000000000000000000 = some .fmtOpen := by decide
-- 0011 0001 0000 0000 vvvv…, val = 0xF81F
theorem test_decode_fmtWrite :
    decoded 0b00110001000000001111100000011111 = some (.fmtWrite 0xF81F) := by decide
theorem test_decode_bpRun : decoded 0b01000000000000000000000000000000 = some .bpRun := by decide
theorem test_decode_cqRun : decoded 0b01010000000000000000000000000000 = some .cqRun := by decide
theorem test_decode_arHdr : decoded 0b01100000000000000000000000000000 = some .arHdr := by decide
theorem test_decode_arRun : decoded 0b01100001000000000000000000000000 = some .arRun := by decide

/-- Vectors P9 and P10: the illegal words of the spec. -/
theorem test_decode_illegal :
    [0x00000000, 0xFFFFFFFF, 0x1C000000, 0x2F000000, 0x2D000001, 0x31010000, 0x32000000,
      0x40000001, 0x62000000].map decoded = List.replicate 9 none := by decide

theorem test_table_word : decodeTableWord 32 0x1A00000A = some (.setp 10 10) := by decide
theorem test_table_word_illegal : decodeTableWord 32 0x70000000 = none := by decide

/-! ### One-step states -/

/-- A property of the next state; false of a stop. -/
def nextSat (o : Host.Outcome State Fault Refusal) (f : State → Bool) : Bool :=
  match o with
  | .next t => f t
  | _ => false

/-- The image registers written: IMG_W, IMG_H, FMT_COLS = 12. -/
def imageState (w h : Half) : State :=
  State.reset.setParams
    { Params.reset with imgW := some w, imgH := some h, fmtCols := some 12 }

/-- Formatter registers written: FMT_TOTAL, FMT_COLS, FMT_DIGITS. -/
def formatState (t : Word) (c : Half) (d : BitVec 3) : State :=
  State.reset.setParams
    { Params.reset with fmtTotal := some t, fmtCols := some c, fmtDigits := some d }

/-- A 10 by 2 bitmap: the pixels of vector B4. -/
def bitmapB4 : PixMem Sample :=
  PixMem.ofGrid 10 2 fun x y => if y = 0 then (if x = 9 then 0 else 1)
    else (if x = 7 ∨ x = 9 then 1 else 0)

/-- A 2 by 3 colour image: the pixels of vector Q11. -/
def imageQ11 : PixMem Rgb :=
  PixMem.ofGrid 2 3 fun x y =>
    match x, y with
    | 0, 0 => ⟨255, 0, 0⟩
    | 1, 0 => ⟨0, 255, 0⟩
    | 0, 1 => ⟨0, 0, 255⟩
    | 1, 1 => ⟨255, 255, 0⟩
    | 0, _ => ⟨0, 255, 255⟩
    | _, _ => ⟨255, 0, 255⟩

/-- The first 44 bytes of vector A1's file: mono, 8 bits, rate 8000, 3 data bytes. -/
def headerA1 : List Byte :=
  [0x52, 0x49, 0x46, 0x46, 0x27, 0x00, 0x00, 0x00, 0x57, 0x41, 0x56, 0x45, 0x66, 0x6d, 0x74, 0x20,
   0x10, 0x00, 0x00, 0x00, 0x01, 0x00, 0x01, 0x00, 0x40, 0x1f, 0x00, 0x00, 0x40, 0x1f, 0x00, 0x00,
   0x01, 0x00, 0x08, 0x00, 0x64, 0x61, 0x74, 0x61, 0x03, 0x00, 0x00, 0x00]

/-- A state whose WAV holds the given bytes. -/
def wavState (bs : List Byte) : State :=
  State.reset.load [] PixMem.empty PixMem.empty (Memory.ofBytes bs)

/-- AR.RUN's operands over bare samples at address 0, FMT_COLS = 12. -/
def audioArgs (ch bits frame : Half) (n : Word) (mode : BitVec 4) : AudioArgs :=
  { ch := ch, bits := bits, frame := frame, n := n, off := 0, mode := mode, cols := 12,
    cnt := arCount (arTen bits mode) n.toNat }

/-- A state with those operands in the registers and the samples in WAV. -/
def audioState (q : AudioArgs) (bs : List Byte) : State :=
  (wavState bs).setParams
    { Params.reset with
      audChannels := some q.ch, audBits := some q.bits, audFrame := some q.frame,
      audNsamp := some q.n, audDataoff := some q.off, audMode := some q.mode,
      fmtCols := some q.cols }

/-! ### One step of each command -/

/-- Vector P2's first word. -/
theorem test_setp_mode :
    nextSat (exec (.setp 10 10) State.reset) (fun t => decide (t.p.audMode = some 10 ∧ t.cp = 1))
      = true := by decide

/-- Vector P5: SETP IMG_W, 65536. -/
theorem test_setp_range :
    nextSat (exec (.setp 0 65536) State.reset)
      (fun t => decide (t.p.imgW = none ∧ t.cause = 2 ∧ t.finfo = 0 ∧ t.cp = 0)) = true := by
  decide

/-- Vector P1's first word: AUD_MODE after reset. -/
theorem test_getp_mode :
    nextSat (exec (.getp 10) State.reset) (fun t => decide (t.rsp = [8] ∧ t.cp = 1)) = true := by
  decide

/-- Vector P4: AUD_OUTBITS after reset. -/
theorem test_getp_outbits_unwritten :
    nextSat (exec (.getp 12) State.reset)
      (fun t => decide (t.rsp = [] ∧ t.cause = 3 ∧ t.finfo = 6 ∧ t.cp = 0)) = true := by decide

/-- R91, R92: nothing is emitted, the column counter starts full. -/
theorem test_fmtOpen :
    nextSat (exec .fmtOpen (formatState 3 12 2))
      (fun t => decide (t.hf = ⟨.opened, 3, 0, 12, 12, 2⟩ ∧ t.fmtOpen = true ∧ t.out = []))
      = true := by decide

/-- Vector P12: FMT_TOTAL is read first. -/
theorem test_fmtOpen_unwritten :
    nextSat (exec .fmtOpen State.reset) (fun t => decide (t.cause = 3 ∧ t.finfo = 4)) = true := by
  decide

/-- Vector F2's fourth write: a full line before it, the closing after it. -/
theorem test_fmtWrite_last :
    nextSat (exec (.fmtWrite 0x1f)
        ((formatState 4 3 2).setHf ⟨.opened, 4, 3, 3, 3, 2⟩))
      (fun t => decide (t.hf.state = .idle ∧ t.hf.col = 1 ∧ t.out =
        [0x2C, 0x0A, 0x20, 0x20, 0x30, 0x78, 0x31, 0x66, 0x7D, 0x3B, 0x0A, 0x0A])) = true := by
  decide

/-- Vector F10: 0x100 does not fit two digits. -/
theorem test_fmtWrite_range :
    nextSat (exec (.fmtWrite 0x100) (hfOpen 2 12 2 State.reset))
      (fun t => decide (t.out = [] ∧ t.cause = 5 ∧ t.finfo = 256 ∧ t.fmtOpen = true)) = true := by
  decide

/-- Vector B4: 0xff, 0x80, 0x01, 0x40. -/
theorem test_bpRun :
    nextSat (exec .bpRun ((imageState 10 2).load [] bitmapB4 PixMem.empty Memory.empty))
      (fun t => decide (t.fmtOpen = false ∧ t.out =
        [0x0A, 0x20, 0x20, 0x30, 0x78, 0x66, 0x66, 0x2C, 0x20, 0x30, 0x78, 0x38, 0x30, 0x2C, 0x20,
         0x30, 0x78, 0x30, 0x31, 0x2C, 0x20, 0x30, 0x78, 0x34, 0x30, 0x7D, 0x3B, 0x0A, 0x0A]))
      = true := by decide +kernel

/-- Vector B11: row 1 is missing, one element is out. -/
theorem test_bpRun_missing :
    nextSat (exec .bpRun ((imageState 2 2).load [] (PixMem.ofGrid 2 1 fun _ _ => 1)
        PixMem.empty Memory.empty))
      (fun t => decide (t.status = 3 ∧ t.cause = 11 ∧ t.finfo = 0x00010000 ∧
        t.out = [0x0A, 0x20, 0x20, 0x30, 0x78, 0x63, 0x30])) = true := by decide +kernel

/-- Vector Q11's image with 12 columns: f800, 001f, 07ff, 07e0, ffe0, f81f, column by column. -/
theorem test_cqRun_order :
    cqElements imageQ11 2 3 = [0xf800, 0x001f, 0x07ff, 0x07e0, 0xffe0, 0xf81f] := by
  decide +kernel

/-- Vector Q8: one pixel, 0x11aa, CQUSED set. -/
theorem test_cqRun :
    nextSat (exec .cqRun ((imageState 1 1).load [] PixMem.empty
        (PixMem.ofGrid 1 1 fun _ _ => ⟨0x12, 0x34, 0x56⟩) Memory.empty))
      (fun t => decide (t.status = 4 ∧ t.out =
        [0x0A, 0x20, 0x20, 0x30, 0x78, 0x31, 0x31, 0x61, 0x61, 0x7D, 0x3B, 0x0A, 0x0A])) = true := by
  decide +kernel

/-- Vector A1's header. -/
theorem test_arHdr :
    nextSat (exec .arHdr (wavState (headerA1 ++ [0x00, 0x80, 0xff])))
      (fun t => decide (t.p.audChannels = some 1 ∧ t.p.audBits = some 8 ∧ t.p.audFrame = some 1 ∧
        t.p.audNsamp = some 3 ∧ t.p.audDataoff = some 44 ∧ t.p.audRate = some 8000)) = true := by
  decide +kernel

/-- Vector AF6: the file cut to 38 bytes lacks the data size at 40. -/
theorem test_arHdr_cut :
    nextSat (exec .arHdr (wavState (headerA1.take 38)))
      (fun t => decide (t.p = Params.reset ∧ t.cause = 11 ∧ t.finfo = 40)) = true := by
  decide +kernel

/-- The samples of vector A4: 30/2, 509/2, 1/2, 510/2, rounded down. -/
theorem test_arRun_bytes :
    nextSat (exec .arRun (audioState (audioArgs 2 8 2 4 8)
        [0x0a, 0x14, 0xff, 0xfe, 0x00, 0x01, 0xff, 0xff]))
      (fun t => decide (t.fmtOpen = false ∧ t.out =
        [0x0A, 0x20, 0x20, 0x30, 0x78, 0x30, 0x66, 0x2C, 0x20, 0x30, 0x78, 0x66, 0x65, 0x2C, 0x20,
         0x30, 0x78, 0x30, 0x30, 0x2C, 0x20, 0x30, 0x78, 0x66, 0x66, 0x7D, 0x3B, 0x0A, 0x0A]))
      = true := by decide +kernel

/-- The sample of vector A7: c0, ff, 00, 00, 00. -/
theorem test_arRun_partial :
    nextSat (exec .arRun (audioState (audioArgs 1 16 2 1 10) [0xff, 0x7f]))
      (fun t => decide (t.out =
        [0x0A, 0x20, 0x20, 0x30, 0x78, 0x63, 0x30, 0x2C, 0x20, 0x30, 0x78, 0x66, 0x66, 0x2C, 0x20,
         0x30, 0x78, 0x30, 0x30, 0x2C, 0x20, 0x30, 0x78, 0x30, 0x30, 0x2C, 0x20, 0x30, 0x78, 0x30,
         0x30, 0x7D, 0x3B, 0x0A, 0x0A])) = true := by decide +kernel

/-- A word placed by `withFetchWord` is the first to run after reset. -/
theorem test_fetch_word :
    nextSat (step (State.reset.withFetchWord 32 0x1A00000A))
      (fun t => decide (t.p.audMode = some 10 ∧ t.cp = 1)) = true := by decide

/-! ### Witnesses: states and operands that meet the hypotheses of the statements -/

/-- A launch of one command, at its start. -/
def oneCommand (w : Word) : State := State.reset.load [w] PixMem.empty PixMem.empty Memory.empty

theorem witness_DecodeOfEncode :
    (Instr.setp 11 0xFFFFFF).wellFormed = true ∧ (Instr.getp 14).wellFormed = true ∧
      (Instr.fmtWrite 0xFFFF).wellFormed = true := by decide

theorem witness_EncodeOfDecode : decode 0x1BFFFFFF = .ok (.setp 11 0xFFFFFF) := rfl

theorem witness_OpcodeRowsDisjoint :
    (0x1BFFFFFF : Word) &&& rowMask .setp = rowValue .setp := by decide

/-- The last register SETP reaches and the first it does not; the largest operand and the first
too large. -/
theorem witness_AssemblerWords :
    asmRegisters.lookup ['A', 'U', 'D', '_', 'R', 'A', 'T', 'E'] = some 11 ∧
      asmRegisters.lookup ['A', 'U', 'D', '_', 'O', 'U', 'T', 'B', 'I', 'T', 'S'] = some 12 ∧
      asmNumber ['1', '6', '7', '7', '7', '2', '1', '5'] = some 16777215 ∧
      asmNumber ['0', 'x', '1', '0', '0', '0', '0', '0', '0'] = some (2 ^ 24) := by
  decide +kernel

/-- The last register of SETP, the first it refuses and the last of GETP; the largest number of
FMT.WRITE and of SETP and the first too large; a line without a comment and one with it. -/
theorem witness_AssemblerLines :
    asmRegisters.lookup ['A', 'U', 'D', '_', 'R', 'A', 'T', 'E'] = some 11 ∧
      asmRegisters.lookup ['A', 'U', 'D', '_', 'O', 'U', 'T', 'B', 'I', 'T', 'S'] = some 12 ∧
      asmRegisters.lookup ['C', 'A', 'U', 'S', 'E'] = some 14 ∧
      asmNumber ['6', '5', '5', '3', '5'] = some (2 ^ 16 - 1) ∧
      asmNumber ['6', '5', '5', '3', '6'] = some (2 ^ 16) ∧
      asmNumber ['0', 'x', 'f', 'f', 'f', 'f', 'f', 'f'] = some (2 ^ 24 - 1) ∧
      asmNumber ['1', '6', '7', '7', '7', '2', '1', '6'] = some (2 ^ 24) ∧
      (([] : List Char) = [] ∨ ∃ text, ([] : List Char) = ';' :: text) ∧
      ([';', 'w'] = [] ∨ ∃ text, [';', 'w'] = ';' :: text) := by
  refine ⟨?_, ?_, ?_, ?_, ?_, ?_, ?_, .inl rfl, .inr ⟨['w'], rfl⟩⟩ <;> decide +kernel

/-- R66: a program line with a comment, and a blank line. -/
theorem test_assemble :
    assemble [['S', 'E', 'T', 'P', ' ', 'I', 'M', 'G', '_', 'W', ',', ' ', '1', '0', ' ', ';', 'w'],
      [], ['B', 'P', '.', 'R', 'U', 'N']] = .ok [0x1000000A, 0x40000000] := by rfl

/-- An array is open; a command that completes, one that faults, and AR.HDR, which R146 allows. -/
theorem witness_OpenArrayBodyIsContiguous :
    (hfOpen 1 1 1 State.reset).hf.state = .opened ∧
      (∃ t, exec (.setp 10 10) (hfOpen 1 1 1 State.reset) = .next t ∧ t.fault = false) ∧
      (∃ t, exec .bpRun (hfOpen 1 1 1 State.reset) = .next t) ∧
      nextSat (exec .arHdr (hfOpen 1 1 1 (wavState headerA1))) (fun t => !t.fault) = true :=
  ⟨rfl, ⟨_, rfl, rfl⟩, ⟨_, rfl⟩, by decide +kernel⟩

theorem witness_StepRunsDecodedCommand :
    (oneCommand 0x1A00000A).fault = false ∧ (oneCommand 0x1A00000A).fetch = some 0x1A00000A ∧
      decode 0x1A00000A = .ok (.setp 10 10) := ⟨rfl, rfl, rfl⟩

/-- A block that may step, one that has ended, one that is halted. -/
theorem witness_StepStopsExactlyWhenHaltedOrEnded :
    ((oneCommand 0).fault = false ∧ (oneCommand 0).cp < (oneCommand 0).cmd.length) ∧
      (State.reset.fault = false ∧ State.reset.cmd.length ≤ State.reset.cp) ∧
      ((oneCommand 0).takeFault zeroCount).fault = true := by decide

theorem witness_FaultIsStickyUntilReset : (State.reset.takeFault zeroCount).fault = true := rfl

theorem witness_IllegalWordTakesFaultEntry :
    (oneCommand 0x70000000).fault = false ∧
      (oneCommand 0x70000000).fetch = some 0x70000000 ∧ ∀ i, decode 0x70000000 ≠ .ok i := by
  refine ⟨rfl, rfl, fun i h => ?_⟩
  have : decode 0x70000000 = .error .unassignedGroup := rfl
  rw [this] at h
  cases h

/-- A command that completes and one that faults. -/
theorem witness_CommandCompletesOrFaults :
    State.reset.fault = false ∧
      nextSat (exec (.getp 10) State.reset) (fun t => !t.fault) = true ∧
      nextSat (exec .bpRun State.reset) (fun t => t.fault) = true := by decide

theorem reset_params_legal : ParamsLegal State.reset.p := by
  simp [ParamsLegal, State.reset, Params.reset]

/-- FMT.WRITE with nothing open: cause 4. -/
theorem witness_OnlySrcBoundsLeavesTraces :
    ParamsLegal State.reset.p ∧ State.reset.fault = false ∧
      ∃ t, exec (.fmtWrite 1) State.reset = .next t ∧ t.fault = true ∧ t.cause ≠ 11 :=
  ⟨reset_params_legal, rfl, _, rfl, rfl, by decide⟩

theorem inv_oneCommand (w : Word) : Inv (oneCommand w) := by
  refine ⟨Nat.zero_le _, reset_params_legal, ?_, ?_, ?_⟩
  · intro h; cases h
  · constructor <;> intro h <;> cases h
  · exact ⟨rfl, rfl, rfl⟩

theorem witness_StepKeepsInvariant :
    Inv (oneCommand 0x1A00000A) ∧ ∃ t, step (oneCommand 0x1A00000A) = .next t :=
  ⟨inv_oneCommand _, _, rfl⟩

/-- A step that appends to RSP, and one that appends to OUT. -/
theorem witness_StreamsOnlyGrow :
    nextSat (step (oneCommand 0x2A000000)) (fun t => decide (t.rsp = [8])) = true ∧
      nextSat (step (hfOpen 1 12 2 (oneCommand 0x31000001))) (fun t => decide (t.out ≠ [])) = true := by
  decide

/-- A command that may write OUT, one that may write RSP, and one that may do neither. -/
theorem witness_OnlyWritersEmit :
    (∃ t, exec (.getp 10) State.reset = .next t) ∧
      (∃ t, exec (.fmtWrite 1) (hfOpen 1 12 2 State.reset) = .next t) ∧
      ∃ t, exec (.setp 10 10) State.reset = .next t :=
  ⟨⟨_, rfl⟩, ⟨_, rfl⟩, ⟨_, rfl⟩⟩

theorem witness_StepKeepsMemories : ∃ t, step (oneCommand 0x2A000000) = .next t := ⟨_, rfl⟩

theorem witness_CqUsedSetOnlyByColourRun :
    (∃ t, exec .cqRun State.reset = .next t) ∧ ∃ t, exec (.getp 13) State.reset = .next t :=
  ⟨⟨_, rfl⟩, ⟨_, rfl⟩⟩

theorem witness_ParametersWrittenOnlyBySetpAndHeader :
    (∃ t, exec .arHdr State.reset = .next t) ∧ ∃ t, exec .bpRun State.reset = .next t :=
  ⟨⟨_, rfl⟩, ⟨_, rfl⟩⟩

/-- Two states that differ in every leftover register. -/
theorem witness_LeftoverRegistersUnobservable :
    HostView (oneCommand 0x40000000)
      ((((oneCommand 0x40000000).setHf ⟨.idle, 1, 2, 3, 4, 5⟩).setBp ⟨1, 2, 3, 4⟩).setCq
        ⟨1, 2⟩ |>.setAr ⟨1, 2, 3, ⟨1, 2, 3, 4, 5⟩, 6⟩) :=
  ⟨rfl, rfl, fun h => by cases h⟩

/-- Each command the three clauses are about. -/
theorem witness_CommandsReadOnlyTheirMemories :
    (Instr.bpRun ≠ .arHdr ∧ Instr.bpRun ≠ .arRun) ∧ Instr.cqRun ≠ .bpRun ∧
      Instr.bpRun ≠ .cqRun := by decide

/-- The largest value of every width, and both values of AUD_MODE. -/
theorem witness_SetpWritesLegalValue :
    SetpLegal 0 65535 ∧ SetpLegal 2 1 ∧ SetpLegal 3 1 ∧ SetpLegal 3 4 ∧ SetpLegal 4 16777215 ∧
      SetpLegal 7 65535 ∧ SetpLegal 8 16777215 ∧ SetpLegal 10 8 ∧ SetpLegal 10 10 ∧
      SetpLegal 11 16777215 := by
  simp [SetpLegal]

/-- The first value beyond each limit. -/
theorem witness_SetpRefusesIllegalValue :
    ¬ SetpLegal 0 65536 ∧ ¬ SetpLegal 2 0 ∧ ¬ SetpLegal 2 65536 ∧ ¬ SetpLegal 3 0 ∧
      ¬ SetpLegal 3 5 ∧ ¬ SetpLegal 7 65536 ∧ ¬ SetpLegal 10 9 ∧ ¬ SetpLegal 10 11 := by
  simp [SetpLegal]

/-- A parameter register, AUD_OUTBITS on the 10-bit path, STATUS and CAUSE. -/
theorem witness_GetpAppendsValue :
    getpNat State.reset 10 = some 8 ∧ getpNat (formatState 16777215 12 2) 4 = some 16777215 ∧
      getpNat (audioState (audioArgs 1 16 2 1 10) []) 12 = some 10 ∧
      getpNat (hfOpen 1 12 2 State.reset) 13 = some 2 ∧
      getpNat (State.reset.takeFault zeroCount) 14 = some 6 := by decide

theorem witness_GetpFaultsOnUnwritten :
    getpNat State.reset 0 = none ∧ getpNat State.reset 11 = none ∧
      State.reset.p.audBits = none := by decide

theorem witness_FmtOpenOpensArray :
    (formatState 1 1 4).hf.state = .idle ∧ (formatState 1 1 4).p.fmtTotal = some 1 ∧
      (formatState 1 1 4).p.fmtCols = some 1 ∧ (formatState 1 1 4).p.fmtDigits = some 4 ∧
      (1 : Word) ≠ 0 := by decide

/-- One state for each clause, in the order of the checks. -/
theorem witness_FmtOpenFaultsInOrder :
    (hfOpen 1 1 1 State.reset).hf.state = .opened ∧
      (State.reset.hf.state = .idle ∧ State.reset.p.fmtTotal = none) ∧
      (let s := State.reset.setParams { Params.reset with fmtTotal := some 1 }
       s.hf.state = .idle ∧ s.p.fmtTotal = some 1 ∧ s.p.fmtCols = none) ∧
      (let s := State.reset.setParams { Params.reset with fmtTotal := some 1, fmtCols := some 1 }
       s.hf.state = .idle ∧ s.p.fmtTotal = some 1 ∧ s.p.fmtCols = some 1 ∧
         s.p.fmtDigits = none) ∧
      (let s := formatState 0 1 1
       s.hf.state = .idle ∧ s.p.fmtTotal = some 0 ∧ s.p.fmtCols = some 1 ∧
         s.p.fmtDigits = some 1) := by decide

/-- The first element and the last, at the largest value of the digits. -/
theorem witness_FmtWriteAppendsElement :
    (FormatterSound (hfOpen 2 3 1 State.reset).hf ∧
        (hfOpen 2 3 1 State.reset).hf.state = .opened ∧
        (15 : Half).toNat < 16 ^ (hfOpen 2 3 1 State.reset).hf.digits.toNat) ∧
      (FormatterSound ⟨.opened, 4, 3, 3, 3, 2⟩ ∧ (255 : Half).toNat < 16 ^ (2 : BitVec 3).toNat) := by
  unfold FormatterSound; decide

/-- No array open; the first value that needs another digit. -/
theorem witness_FmtWriteFaultsInOrder :
    State.reset.hf.state = .idle ∧ (hfOpen 2 3 1 State.reset).hf.state = .opened ∧
      16 ^ (hfOpen 2 3 1 State.reset).hf.digits.toNat ≤ (16 : Half).toNat := by decide

theorem witness_HexTokenIsPositional :
    (15 : Half).toNat < 16 ^ 1 ∧ (0xFFFF : Half).toNat < 16 ^ 4 := by decide

/-- Three two-digit values, the last the largest. -/
theorem witness_WholeArrayGivesClosedForm :
    (3 : Word).toNat = [(0 : Half), 31, 255].length ∧ [(0 : Half), 31, 255] ≠ [] ∧
      (12 : Half) ≠ 0 ∧ 1 ≤ (2 : BitVec 3).toNat ∧ (2 : BitVec 3).toNat ≤ 4 ∧
      ∀ v ∈ [(0 : Half), 31, 255], v.toNat < 16 ^ (2 : BitVec 3).toNat := by
  simp

theorem witness_ShortArrayStaysOpen :
    [(0 : Half), 31].length < (3 : Word).toNat ∧ (12 : Half) ≠ 0 ∧ 1 ≤ (2 : BitVec 3).toNat ∧
      (2 : BitVec 3).toNat ≤ 4 ∧
      ∀ v ∈ [(0 : Half), 31], v.toNat < 16 ^ (2 : BitVec 3).toNat := by
  simp

/-- One state for each clause, in the order of the checks. -/
theorem witness_ImageRunFaultsInOrder :
    (hfOpen 1 1 1 State.reset).hf.state = .opened ∧
      (State.reset.hf.state = .idle ∧ State.reset.p.imgW = none) ∧
      (let s := State.reset.setParams { Params.reset with imgW := some 8 }
       s.hf.state = .idle ∧ s.p.imgW = some 8 ∧ s.p.imgH = none) ∧
      (let s := State.reset.setParams { Params.reset with imgW := some 8, imgH := some 1 }
       s.hf.state = .idle ∧ s.p.imgW = some 8 ∧ s.p.imgH = some 1 ∧ s.p.fmtCols = none) ∧
      ((imageState 0 5).hf.state = .idle ∧ (imageState 0 5).p.imgW = some 0 ∧
        (imageState 0 5).p.imgH = some 5 ∧ (imageState 0 5).p.fmtCols = some 12) := by decide

/-- The image operands hold. -/
theorem imageState_operands {w h : Half} (hw : w ≠ 0) (hh : h ≠ 0) (pm : PixMem Sample)
    (pc : PixMem Rgb) :
    ImageOperands ((imageState w h).load [] pm pc Memory.empty) w h 12 :=
  ⟨rfl, rfl, rfl, rfl, by decide, hw, hh⟩

/-- Every pixel of a bounded grid, by a check that evaluates. -/
theorem present_of_check {α : Type} {m : PixMem α} {w h : Nat}
    (hc : (gridCoords w h).all (fun c => (m.at? c.x c.y).isSome) = true) (x y : Nat) (hx : x < w)
    (hy : y < h) : (m.at? x y).isSome = true := by
  simp only [gridCoords, List.all_flatMap, List.all_map, List.all_eq_true, List.mem_range,
    Function.comp] at hc
  exact hc y hy x hx

/-- Vector B4's bitmap. -/
theorem witness_BpRunPacksImage :
    ImageOperands ((imageState 10 2).load [] bitmapB4 PixMem.empty Memory.empty) 10 2 12 ∧
      ∀ x y, x < 10 → y < 2 → (bitmapB4.at? x y).isSome = true :=
  ⟨imageState_operands (by decide) (by decide) _ _,
    fun x y => present_of_check (by decide +kernel) x y⟩

/-- Vector B11: the first missing pixel is (0, 1). -/
theorem witness_BpRunStopsAtMissingPixel :
    let m : PixMem Sample := PixMem.ofGrid 2 1 fun _ _ => 1
    ImageOperands ((imageState 2 2).load [] m PixMem.empty Memory.empty) 2 2 12 ∧
      0 < 2 ∧ 1 < 2 ∧ m.at? 0 1 = none ∧
      ∀ x y, x < 2 → (y < 1 ∨ (y = 1 ∧ x < 0)) → (m.at? x y).isSome = true := by
  refine ⟨imageState_operands (by decide) (by decide) _ _, by decide, by decide, rfl, ?_⟩
  intro x y hx hy
  exact present_of_check (w := 2) (h := 1) (by decide) x y hx (by omega)

theorem witness_BpElementsUnpack : 9 < 10 ∧ 1 < 2 := by decide

/-- Vector Q11's image. -/
theorem witness_CqRunQuantizesImage :
    ImageOperands ((imageState 2 3).load [] PixMem.empty imageQ11 Memory.empty) 2 3 12 ∧
      ∀ x y, x < 2 → y < 3 → (imageQ11.at? x y).isSome = true :=
  ⟨imageState_operands (by decide) (by decide) _ _,
    fun x y => present_of_check (by decide +kernel) x y⟩

/-- A 2 by 2 run over a grid of one column: the first missing pixel is (1, 0). -/
theorem witness_CqRunStopsAtMissingPixel :
    let m : PixMem Rgb := PixMem.ofGrid 1 2 fun _ _ => ⟨1, 2, 3⟩
    ImageOperands ((imageState 2 2).load [] PixMem.empty m Memory.empty) 2 2 12 ∧
      1 < 2 ∧ 0 < 2 ∧ m.at? 1 0 = none ∧
      ∀ x y, y < 2 → (x < 1 ∨ (x = 1 ∧ y < 0)) → (m.at? x y).isSome = true := by
  refine ⟨imageState_operands (by decide) (by decide) _ _, by decide, by decide, rfl, ?_⟩
  intro x y hy hx
  exact present_of_check (w := 1) (h := 2) (by decide) x y (by omega) hy

/-- The markers of a header are in WAV. -/
theorem magic_headerA1 : MagicPresent (Memory.ofBytes headerA1) := by
  constructor
  · intro i hi; interval_cases i <;> rfl
  · intro i hi; interval_cases i <;> rfl

/-- The shortest file AR.HDR accepts at format chunk size 16: 44 bytes, the header alone. -/
theorem witness_ArHdrLoadsRegisters :
    let m := (wavState headerA1).wav
    MagicPresent m ∧ 36 ≤ m.len.toNat ∧ m.assemble 16 4 + 28 ≤ m.len.toNat ∧
      m.assemble 32 2 ≠ 0 :=
  ⟨magic_headerA1, by decide +kernel, by decide +kernel, by decide +kernel⟩

/-- The length at the boundary of each clause, with the markers in WAV. -/
theorem witness_ArHdrFaultsInOrder :
    ¬ MagicPresent (wavState []).wav ∧
      (∀ n ∈ [19, 20, 23, 24, 27, 28, 33, 34, 35, 36, 43],
        MagicPresent (Memory.ofBytes (headerA1.take n)) ∧
          (Memory.ofBytes (headerA1.take n)).len.toNat = n) ∧
      (Memory.ofBytes (headerA1.take 36)).assemble 16 4 + 28 = 44 ∧
      (let m := Memory.ofBytes (headerA1.set 32 0)
       MagicPresent m ∧ 36 ≤ m.len.toNat ∧ m.assemble 16 4 + 28 ≤ m.len.toNat ∧
         m.assemble 32 2 = 0) := by
  have ten {m : Memory} (h : wavMatches m 0 magicRiff = true ∧ wavMatches m 8 magicWave = true) :
      MagicPresent m := by
    simp only [wavMatches, magicRiff, magicWave, Bool.and_eq_true, decide_eq_true_eq] at h
    constructor
    · intro i hi; interval_cases i <;> simp_all [magicRiff]
    · intro i hi; interval_cases i <;> simp_all [magicWave]
  refine ⟨fun h => absurd (h.1 0 (by decide)) (by decide), ?_, by decide +kernel, ?_⟩
  · intro n hn
    fin_cases hn <;> exact ⟨ten (by decide +kernel), by decide +kernel⟩
  · exact ⟨ten (by decide +kernel), by decide +kernel, by decide +kernel, by decide +kernel⟩

/-- An empty file. -/
theorem witness_ArHdrAllOrNothing :
    State.reset.fault = false ∧ ∃ t, exec .arHdr State.reset = .next t ∧ t.fault = true :=
  ⟨rfl, _, rfl, rfl⟩

/-- One state for each clause, in the order of the checks; the count at its first overflow. -/
theorem witness_ArRunFaultsInOrder :
    let full := { Params.reset with
      audChannels := some 1, audBits := some 16, audFrame := some 2,
      audNsamp := some 3435973837, audDataoff := some 44, audMode := some 10, fmtCols := some 12 }
    (hfOpen 1 1 1 State.reset).hf.state = .opened ∧ State.reset.hf.state = .idle ∧
      State.reset.p.audChannels = none ∧ { full with audBits := none }.audBits = none ∧
      { full with audFrame := none }.audFrame = none ∧
      { full with audNsamp := none }.audNsamp = none ∧
      { full with audDataoff := none }.audDataoff = none ∧
      { full with audMode := none }.audMode = none ∧
      { full with fmtCols := none }.fmtCols = none ∧
      ((24 : Half) ≠ 8 ∧ (24 : Half) ≠ 16 ∧ { full with audBits := some 24 }.audBits = some 24) ∧
      { full with audChannels := some 0 }.audChannels = some 0 ∧
      { full with audNsamp := some 0 }.audNsamp = some 0 ∧
      (full.audBits = some 16 ∧ full.audMode = some 10 ∧
        full.audNsamp = some 3435973837 ∧ 3435973836 < (3435973837 : Word).toNat) := by decide

theorem audioState_operands {q : AudioArgs} (bs : List Byte) (hc : q.cols ≠ 0)
    (hb : q.bits = 8 ∨ q.bits = 16) (hch : q.ch ≠ 0)
    (hn : q.cnt = arCount (arTen q.bits q.mode) q.n.toNat) (h0 : q.cnt ≠ 0)
    (h32 : q.cnt < 2 ^ 32) : AudioOperands (audioState q bs) q :=
  ⟨rfl, rfl, rfl, rfl, rfl, rfl, rfl, rfl, hc, hb, hch, hn, h0, h32⟩

/-- Vector A4's samples: two channels, four frames, the last byte the last of WAV. -/
theorem witness_ArRunReducesToBytes :
    let q := audioArgs 2 8 2 4 8
    let s := audioState q [0x0a, 0x14, 0xff, 0xfe, 0x00, 0x01, 0xff, 0xff]
    AudioOperands s q ∧ arTen q.bits q.mode = false ∧
      ∀ i c, i < q.n.toNat → c < q.ch.toNat → SamplePresent s.wav q i c := by
  refine ⟨audioState_operands _ (by decide) (by decide) (by decide) (by decide) (by decide)
    (by decide), by decide, ?_⟩
  intro i c hi hc
  have h1 : i < 4 := hi
  have h2 : c < 2 := hc
  interval_cases i <;> interval_cases c <;> (unfold SamplePresent; decide)

/-- Vector A7's sample: a partial group of one. -/
theorem witness_ArRunPacksTenBitGroups :
    let q := audioArgs 1 16 2 1 10
    let s := audioState q [0xff, 0x7f]
    AudioOperands s q ∧ arTen q.bits q.mode = true ∧
      ∀ i c, i < q.n.toNat → c < q.ch.toNat → SamplePresent s.wav q i c := by
  refine ⟨audioState_operands _ (by decide) (by decide) (by decide) (by decide) (by decide)
    (by decide), by decide, ?_⟩
  intro i c hi hc
  have h1 : i < 1 := hi
  have h2 : c < 1 := hc
  interval_cases i; interval_cases c; unfold SamplePresent; decide

/-- Two frames, the second beyond WAV. -/
theorem witness_ArRunStopsAtMissingSample :
    let q := audioArgs 1 8 1 2 8
    let s := audioState q [0x05]
    AudioOperands s q ∧ 1 < q.n.toNat ∧ 0 < q.ch.toNat ∧ ¬ SamplePresent s.wav q 1 0 ∧
      ∀ i c, c < q.ch.toNat → (i < 1 ∨ (i = 1 ∧ c < 0)) → SamplePresent s.wav q i c := by
  refine ⟨audioState_operands _ (by decide) (by decide) (by decide) (by decide) (by decide)
    (by decide), by decide, by decide, by unfold SamplePresent; decide, ?_⟩
  intro i c hc hi
  have h2 : c < 1 := hc
  have h1 : i < 1 := by omega
  interval_cases i; interval_cases c; unfold SamplePresent; decide

theorem witness_TenBitSamplesUnpack :
    let q := audioArgs 1 16 2 6 10
    5 < q.n.toNat ∧ q.ch ≠ 0 ∧ q.bits = 16 := by decide

theorem witness_ReducedValuesFit :
    (audioArgs 65535 8 2 4 8).ch ≠ 0 ∧ (audioArgs 65535 8 2 4 8).bits = 8 := by decide

/-- Two bytes read at the end of a two-byte WAV, at one past it, and beyond every address. -/
theorem witness_MemReadIsLittleEndian :
    let m := Memory.ofBytes [0x27, 0x1f]
    0 + 2 ≤ m.len.toNat ∧ m.len.toNat < 1 + 2 ∧ m.len.toNat < 2 ^ 32 + 1 := by decide

theorem witness_LoadedFileReadsBack : headerA1.length < 2 ^ 32 := by decide

/-- A write over a listed byte, and one of what an unlisted byte holds. -/
theorem witness_MemoryWriteReadsBack :
    let m := Memory.ofBytes [0, 5, 0, 7]
    m.wf = true ∧ 3 < m.len.toNat ∧ (m.write 1 0).cells = [(3, 7)] ∧
      (m.write 2 9).cells = [(1, 5), (2, 9), (3, 7)] := by decide

end Sys2Proof.Tests
end

section
/-! SUPPORT. Every command as one `Result`, and everything its body can do to the state, by command:
the inversion lemma from which the statements about the whole machine are derived. -/

namespace Sys2Proof.Machine

/-! ### A command as a `Result` -/

/-- The result of up-front checks `c` followed by the body `k`. -/
def checkedResult {α : Type} (c : Checked α) (k : α → State → Result) (s : State) : Result :=
  match c with
  | .error e => .raised e s
  | .ok a => k a s

theorem runChecked_eq_outcome {α : Type} (c : Checked α) (k : α → State → Result) (s : State) :
    runChecked c k s = (checkedResult c k s).outcome := by
  cases c <;> rfl

/-- The result of a command, before `cp` advances or fault entry is taken. -/
def commandResult : Instr → State → Result
  | .setp p imm, s =>
    checkedResult (setpTarget p imm s)
      (fun r s => .done (s.setParams (writeParam s.p r (imm.setWidth 32)))) s
  | .getp p, s => checkedResult (rdIndex s p) (fun v s => .done (s.respond v)) s
  | .fmtOpen, s =>
    checkedResult (fmtOpenChecks s) (fun q s => .done (hfOpen q.total q.cols q.digits s)) s
  | .fmtWrite v, s => hfWrite v s
  | .bpRun, s => checkedResult (imageChecks bpCount s) bpWalk s
  | .cqRun, s => checkedResult (imageChecks cqCount s) cqWalk s
  | .arHdr, s =>
    checkedResult (arHdrChecks s) (fun q s => .done (s.setParams (loadHeader q s.p))) s
  | .arRun, s => checkedResult (arRunChecks s) arWalk s

/-- `exec` is the end of the command's result (R11, R28, R192). -/
theorem exec_eq_outcome (i : Instr) (s : State) : exec i s = (commandResult i s).outcome := by
  cases i with
  | fmtWrite v => rfl
  | _ =>
    simp only [exec, execSetp, execGetp, execFmtOpen, execBpRun, execCqRun, execArHdr, execArRun,
      commandResult, runChecked_eq_outcome]

theorem checkedResult_ends {α : Type} {c : Checked α} {k : α → State → Result} {s : State}
    {P : State → Prop} (hs : P s) (hk : ∀ a, c = .ok a → (k a s).Ends P) :
    (checkedResult c k s).Ends P := by
  cases c with
  | error e => exact hs
  | ok a => exact hk a rfl

theorem Result.Ends.imp {P Q : State → Prop} {r : Result} (h : r.Ends P) (hPQ : ∀ s, P s → Q s) :
    r.Ends Q := by
  cases r <;> exact hPQ _ h

/-- A next state is a state the body may end in, with `cp` advanced or after fault entry. -/
theorem Result.Ends.outcome_next {P : State → Prop} {r : Result} {t : State} (h : r.Ends P)
    (ht : r.outcome = .next t) : ∃ u, P u ∧ (t = u.advance ∨ ∃ e, t = u.takeFault e) := by
  rcases r.outcome_cases with ⟨u, rfl, hu⟩ | ⟨e, u, rfl, hu⟩
  · exact ⟨u, h, .inl (Host.Outcome.next.inj (ht.symm.trans hu))⟩
  · exact ⟨u, h, .inr ⟨e, Host.Outcome.next.inj (ht.symm.trans hu)⟩⟩

/-! ### The states a walk reaches -/

/-- The states reached from `s` by the elementary moves of a walk. -/
inductive Walked (s : State) : State → Prop
  | start : Walked s s
  | setBp {t : State} (b : Packer) : Walked s t → Walked s (t.setBp b)
  | setCq {t : State} (c : Quantizer) : Walked s t → Walked s (t.setCq c)
  | setAr {t : State} (a : Reducer) : Walked s t → Walked s (t.setAr a)
  | write {t : State} (v : Half) : Walked s t → t.hf.state = .opened →
      v.toNat < 16 ^ t.hf.digits.toNat → Walked s (hfWritten v t)

theorem walked_keeps (s : State) : WalkKeeps (Walked s) where
  setBp _ b h := h.setBp b
  setCq _ c h := h.setCq c
  setAr _ a h := h.setAr a
  write _ v h ho hv := h.write v ho hv

/-- What every move keeps holds wherever a walk gets. -/
theorem WalkKeeps.of_walked {P : State → Prop} (K : WalkKeeps P) {s t : State} (h : P s)
    (w : Walked s t) : P t := by
  induction w with
  | start => exact h
  | setBp b _ ih => exact K.setBp _ b ih
  | setCq c _ ih => exact K.setCq _ c ih
  | setAr a _ ih => exact K.setAr _ a ih
  | write v _ ho hv ih => exact K.write _ v ih ho hv

theorem Walked.frame {s t : State} (w : Walked s t) : WalkFrame s t :=
  (walkFrame_keeps s).of_walked ⟨⟨[], by simp⟩, rfl⟩ w

/-! ### The effect of each command -/

/-- What the body of a command can do to `s`, completed or not: a check that fails leaves `s` as it
is, and a RUN command may end anywhere in its walk. -/
inductive Effect (s : State) : Instr → State → Prop
  | refused (i : Instr) : Effect s i s
  | setp {p : RegIndex} {imm : Imm} {r : ParamReg} : cfgLegal r imm = true →
      Effect s (.setp p imm) (s.setParams (writeParam s.p r (imm.setWidth 32)))
  | getp {p : RegIndex} (v : Word) : Effect s (.getp p) (s.respond v)
  | fmtOpen {n : Word} {c : Half} {d : BitVec 3} : s.p.fmtCols = some c → s.p.fmtDigits = some d →
      n ≠ 0 → Effect s .fmtOpen (hfOpen n c d s)
  | fmtWrite {v : Half} : s.hf.state = .opened → v.toNat < 16 ^ s.hf.digits.toNat →
      Effect s (.fmtWrite v) (hfWritten v s)
  | bpRun {n : Word} {c : Half} {t : State} : s.p.fmtCols = some c → n ≠ 0 →
      Walked (hfOpen n c Config.digitsOfByteCell s) t → Effect s .bpRun t
  | cqRun {n : Word} {c : Half} {t : State} : s.p.fmtCols = some c → n ≠ 0 →
      Walked ((hfOpen n c Config.digitsOfHalfCell s).setCqUsed true) t → Effect s .cqRun t
  | arHdr (q : WavHeader) : Effect s .arHdr (s.setParams (loadHeader q s.p))
  | arRun {n : Word} {c : Half} {t : State} : s.p.fmtCols = some c → n ≠ 0 →
      Walked (hfOpen n c Config.digitsOfByteCell s) t → Effect s .arRun t

theorem setpTarget_legal {p : RegIndex} {imm : Imm} {s : State} {r : ParamReg}
    (h : setpTarget p imm s = .ok r) : cfgLegal r imm = true := by
  unfold setpTarget at h
  split at h
  · split at h
    · next hl => cases h; exact hl
    · cases h
  · cases h

/-- The grid of BP.RUN has fewer than 2^32 elements (R112). -/
theorem bpCount_lt (w h : Half) : bpCount w.toNat h.toNat < 2 ^ 32 := by
  have hw := w.isLt
  have hB : ceilDiv w.toNat 8 ≤ 8192 := by unfold ceilDiv; omega
  calc bpCount w.toNat h.toNat ≤ 8192 * 65535 := Nat.mul_le_mul hB (Nat.le_of_lt_succ h.isLt)
    _ < 2 ^ 32 := by norm_num

/-- The grid of CQ.RUN has fewer than 2^32 elements (R132). -/
theorem cqCount_lt (w h : Half) : cqCount w.toNat h.toNat < 2 ^ 32 :=
  calc cqCount w.toNat h.toNat ≤ 65535 * 65535 :=
        Nat.mul_le_mul (Nat.le_of_lt_succ w.isLt) (Nat.le_of_lt_succ h.isLt)
    _ < 2 ^ 32 := by norm_num

/-- An element count that fits HF.TOTAL is not truncated to 0. -/
theorem ofNat_word_ne_zero {n : Nat} (h0 : n ≠ 0) (h : n < 2 ^ 32) : BitVec.ofNat 32 n ≠ 0 := by
  intro hz
  have : (BitVec.ofNat 32 n).toNat = 0 := by rw [hz]; rfl
  rw [BitVec.toNat_ofNat, Nat.mod_eq_of_lt h] at this
  exact h0 this

/-- Everything the body of a command can do. -/
theorem commandResult_effect (i : Instr) (s : State) :
    (commandResult i s).Ends (Effect s i) := by
  cases i <;> rw [commandResult]
  case setp p imm =>
    exact checkedResult_ends (.refused _) fun _ hc => Effect.setp (setpTarget_legal hc)
  case getp p => exact checkedResult_ends (.refused _) fun v _ => Effect.getp v
  case fmtOpen =>
    refine checkedResult_ends (.refused _) fun q hc => ?_
    obtain ⟨-, -, hcols, hdigits, hn⟩ := fmtOpenChecks_ok_iff.mp hc
    exact Effect.fmtOpen hcols hdigits hn
  case fmtWrite v =>
    rcases hfWrite_cases v s with ⟨-, e⟩ | ⟨-, -, e⟩ | ⟨ho, hv, e⟩ <;> rw [e]
    · exact Effect.refused _
    · exact Effect.refused _
    · exact Effect.fmtWrite ho hv
  case bpRun =>
    refine checkedResult_ends (.refused _) fun q hc => ?_
    obtain ⟨-, -, -, hcols, hn, h0⟩ := imageChecks_ok_iff.mp hc
    have hn0 := ofNat_word_ne_zero h0 (hn ▸ bpCount_lt q.w q.h)
    exact ((walked_keeps _).bpWalk q .start).imp fun _ => Effect.bpRun hcols hn0
  case cqRun =>
    refine checkedResult_ends (.refused _) fun q hc => ?_
    obtain ⟨-, -, -, hcols, hn, h0⟩ := imageChecks_ok_iff.mp hc
    have hn0 := ofNat_word_ne_zero h0 (hn ▸ cqCount_lt q.w q.h)
    exact ((walked_keeps _).cqWalk q .start).imp fun _ => Effect.cqRun hcols hn0
  case arHdr => exact checkedResult_ends (.refused _) fun q _ => Effect.arHdr q
  case arRun =>
    refine checkedResult_ends (.refused _) fun q hc => ?_
    obtain ⟨-, -, -, -, -, -, -, hcols, -, -, -, h0, hlt⟩ := arRunChecks_ok_iff.mp hc
    exact ((walked_keeps _).arWalk q .start).imp fun _ =>
      Effect.arRun hcols (ofNat_word_ne_zero h0 hlt)

/-- A command that answers a next state has had its effect, and then either `cp` advances or fault
entry is taken. -/
theorem exec_next_effect {i : Instr} {s t : State} (h : exec i s = .next t) :
    ∃ u, Effect s i u ∧ (t = u.advance ∨ ∃ e, t = u.takeFault e) :=
  (commandResult_effect i s).outcome_next (exec_eq_outcome i s ▸ h)

/-- `t` differs from `s` in no input of the launch, not in `cp`, and in neither FAULT nor a fault
register. -/
def CommandFrame (s t : State) : Prop :=
  t = { s with p := t.p, fmtOpen := t.fmtOpen, cqUsed := t.cqUsed, hf := t.hf, bp := t.bp,
               cq := t.cq, ar := t.ar, out := t.out, rsp := t.rsp }

theorem WalkFrame.commandFrame {s t : State} (h : WalkFrame s t) : CommandFrame s t := by
  obtain ⟨-, h⟩ := h
  unfold CommandFrame
  rw [h]

theorem CommandFrame.trans {s t u : State} (h : CommandFrame s t) (h' : CommandFrame t u) :
    CommandFrame s u := by
  unfold CommandFrame at *
  rw [h', h]

/-- The body of a command changes neither `cp` nor an input nor a fault register (R11, R47,
R192). -/
theorem Effect.frame {i : Instr} {s t : State} (h : Effect s i t) : CommandFrame s t := by
  have opened {n : Word} {c : Half} {d : BitVec 3} {t : State} (w : Walked (hfOpen n c d s) t) :
      CommandFrame s t := (walkFrame_open s n c d).commandFrame.trans w.frame.commandFrame
  cases h with
  | bpRun _ _ w => exact opened w
  | cqRun _ _ w =>
    have start {u : State} : CommandFrame u (u.setCqUsed true) := rfl
    exact ((walkFrame_open s _ _ _).commandFrame.trans start).trans w.frame.commandFrame
  | arRun _ _ w => exact opened w
  | _ => rfl

end Sys2Proof.Machine
end

section
/-! SUPPORT. The parts of the invariant: which commands keep legal parameter registers, and that
HF.open and HF.write keep what R18 and R97 say of an array. -/

namespace Sys2Proof.Machine

/-! ### Parameter registers -/

theorem setWidth_imm_toNat {w : Nat} {imm : Imm} (h : imm.toNat < 2 ^ w) :
    ((imm.setWidth 32).setWidth w).toNat = imm.toNat := by
  rw [BitVec.toNat_setWidth, BitVec.toNat_setWidth, Nat.mod_eq_of_lt (a := imm.toNat) (by omega),
    Nat.mod_eq_of_lt h]

theorem cfgLegal_iff {r : ParamReg} {imm : Imm} :
    cfgLegal r imm = true ↔ imm.toNat < 2 ^ paramWidth r ∧ cfgValueLegal r imm.toNat = true := by
  simp [cfgLegal]

/-- A write that SETP's checks let pass keeps the registers legal (R80). -/
theorem ParamsLegal.writeParam {p : Params} {r : ParamReg} {imm : Imm} (h : ParamsLegal p)
    (hl : cfgLegal r imm = true) : ParamsLegal (writeParam p r (imm.setWidth 32)) := by
  obtain ⟨hcols, hdigits, htotal, hmode⟩ := h
  obtain ⟨hwidth, hvalue⟩ := cfgLegal_iff.mp hl
  have hv := setWidth_imm_toNat hwidth
  cases r with
  | fmtCols =>
    refine ⟨?_, hdigits, htotal, hmode⟩
    rintro _ ⟨⟩ h0
    have himm : imm.toNat ≠ 0 := by simpa [cfgValueLegal] using hvalue
    exact himm (hv.symm.trans (congrArg BitVec.toNat h0))
  | fmtDigits =>
    refine ⟨hcols, ?_, htotal, hmode⟩
    rintro _ ⟨⟩
    have himm : 1 ≤ imm.toNat ∧ imm.toNat ≤ 4 := by simpa [cfgValueLegal] using hvalue
    rwa [← hv] at himm
  | fmtTotal =>
    refine ⟨hcols, hdigits, ?_, hmode⟩
    rintro _ ⟨⟩
    rw [BitVec.toNat_setWidth]
    omega
  | audMode =>
    refine ⟨hcols, hdigits, htotal, ?_⟩
    have himm : imm.toNat = 8 ∨ imm.toNat = 10 := by simpa [cfgValueLegal] using hvalue
    rw [← hv] at himm
    exact himm.imp (fun h8 => congrArg some (BitVec.eq_of_toNat_eq h8))
      (fun h10 => congrArg some (BitVec.eq_of_toNat_eq h10))
  | _ => exact ⟨hcols, hdigits, htotal, hmode⟩

/-- The registers a walk may write are no parameter registers. -/
theorem Walked.p {s t : State} (w : Walked s t) : t.p = s.p := by
  obtain ⟨-, h⟩ := w.frame
  rw [h]

/-- Every command keeps the legal values (R12, R80, R149). -/
theorem Effect.paramsLegal {i : Instr} {s t : State} (h : Effect s i t) (hs : ParamsLegal s.p) :
    ParamsLegal t.p := by
  cases h with
  | setp hl => exact hs.writeParam hl
  | arHdr q => exact hs
  | bpRun _ _ w | cqRun _ _ w | arRun _ _ w => rw [w.p]; exact hs
  | _ => exact hs

/-! ### The array being written -/

/-- R97's clause is the formatter's place in an array of its own counters, with R20's range of
HF.DIGITS. -/
theorem formatterSound_iff {h : Formatter} :
    FormatterSound h ↔ (h.state = .opened →
      HfAt h h.total.toNat h.cols.toNat h.digits.toNat h.count.toNat ∧
        1 ≤ h.digits.toNat ∧ h.digits.toNat ≤ 4) := by
  have hcount : h.count = 0 ↔ h.count.toNat = 0 := BitVec.toNat_eq
  unfold FormatterSound HfAt colAfter
  simp only [hcount, true_and]
  constructor
  · intro H ho
    obtain ⟨hlt, hc, hd, hd', hcol⟩ := H ho
    exact ⟨⟨ho, hcol, hc, hlt⟩, hd, hd'⟩
  · intro H ho
    obtain ⟨⟨-, hcol, hc, hlt⟩, hd, hd'⟩ := H ho
    exact ⟨hlt, hc, hd, hd', hcol⟩

/-- What the invariant says of HF: R97's counters and R18's flag. -/
def ArraySound (s : State) : Prop := FormatterSound s.hf ∧ FlagMirrorsFormatter s

theorem arraySound_hfOpen {n : Word} {c : Half} {d : BitVec 3} {s : State} (hn : n ≠ 0)
    (hc : c ≠ 0) (hd : 1 ≤ d.toNat ∧ d.toNat ≤ 4) : ArraySound (hfOpen n c d s) :=
  ⟨formatterSound_iff.mpr fun _ => ⟨hfOpen_at hn hc, hd⟩, by simp [FlagMirrorsFormatter]⟩

theorem ArraySound.setCqUsed {s : State} (h : ArraySound s) (b : Bool) :
    ArraySound (s.setCqUsed b) := h

/-- A write leaves the counters of an array that is still open as R97 says. -/
theorem FormatterSound.hfNext {h : Formatter} (H : FormatterSound h) (ho : h.state = .opened) :
    FormatterSound (hfNext h) := by
  obtain ⟨hat, hd⟩ := formatterSound_iff.mp H ho
  rw [formatterSound_iff]
  intro hopen
  have hmore : h.count.toNat + 1 ≠ h.total.toNat := by
    intro hlast
    have hl : hfIsLast h = true := by rw [hfIsLast_at hat]; simpa using hlast
    simp [Machine.hfNext, hl] at hopen
  have hnext := hfNext_at hat hmore
  rw [← hfNext_count_at hat] at hnext
  exact ⟨hnext, hd⟩

/-- HF.write and the registers of the units keep R97 and R18. -/
theorem arraySound_keeps : WalkKeeps ArraySound where
  setBp _ _ h := h
  setCq _ _ h := h
  setAr _ _ h := h
  write s v h ho _ := by
    obtain ⟨hsound, hflag⟩ := h
    refine ⟨hsound.hfNext ho, ?_⟩
    unfold FlagMirrorsFormatter at *
    cases hl : hfIsLast s.hf <;> simp [hfNext, hl, hflag]

/-- Every command keeps R97 and R18, the legal values giving HF.open its operands. -/
theorem Effect.arraySound {i : Instr} {s t : State} (h : Effect s i t) (hp : ParamsLegal s.p)
    (hs : ArraySound s) : ArraySound t := by
  obtain ⟨hcols, hdigits, -, -⟩ := hp
  cases h with
  | fmtOpen hc hd hn => exact arraySound_hfOpen hn (hcols _ hc) (hdigits _ hd)
  | fmtWrite ho hv => exact arraySound_keeps.write _ _ hs ho hv
  | bpRun hc hn w | arRun hc hn w =>
    exact arraySound_keeps.of_walked (arraySound_hfOpen hn (hcols _ hc) (by decide)) w
  | cqRun hc hn w =>
    exact arraySound_keeps.of_walked
      ((arraySound_hfOpen hn (hcols _ hc) (by decide)).setCqUsed true) w
  | _ => exact hs

/-! ### The invariant at the end of a command -/

theorem inv_iff {s : State} :
    Inv s ↔ PointerInRange s ∧ ParamsLegal s.p ∧ ArraySound s ∧ FaultRegistersSound s := by
  simp [Inv, ArraySound, and_assoc]

/-- Completion keeps the invariant while commands remain (R11, R28). -/
theorem Inv.advance {s : State} (h : Inv s) (hf : s.fault = false) (hcp : s.cp < s.cmd.length) :
    Inv s.advance := by
  obtain ⟨-, hp, ha, hr⟩ := inv_iff.mp h
  refine inv_iff.mpr ⟨hcp, hp, ha, ?_⟩
  simpa [FaultRegistersSound, hf] using hr

/-- Fault entry keeps the invariant while commands remain (R192). -/
theorem Inv.takeFault {s : State} (h : Inv s) (hcp : s.cp < s.cmd.length) (e : Exc) :
    Inv (s.takeFault e) := by
  obtain ⟨-, hp, ha, -⟩ := inv_iff.mp h
  exact inv_iff.mpr ⟨Nat.le_of_lt hcp, hp, ha, hcp, rfl, e.cause, rfl⟩

/-- What the body of a command does keeps the invariant. -/
theorem Effect.inv {i : Instr} {s t : State} (h : Effect s i t) (hs : Inv s) : Inv t := by
  obtain ⟨hcp, hp, ha, hr⟩ := inv_iff.mp hs
  have ha' := h.arraySound hp ha
  have hp' := h.paramsLegal hp
  have hframe := h.frame
  refine inv_iff.mpr ⟨?_, hp', ha', ?_⟩
  · unfold PointerInRange
    rw [hframe]; exact hcp
  · unfold FaultRegistersSound at *
    rw [hframe]; exact hr

/-- Reset meets the invariant with any inputs. -/
theorem inv_reset_load (cmd : List Word) (pixm : PixMem Sample) (pixc : PixMem Rgb)
    (wav : Memory) : Inv (State.reset.load cmd pixm pixc wav) := by
  refine inv_iff.mpr ⟨Nat.zero_le _, ?_, ⟨?_, ?_⟩, rfl, rfl, rfl⟩
  · simp [ParamsLegal, State.reset, Params.reset]
  · simp [FormatterSound, State.reset, Formatter.reset]
  · simp [FlagMirrorsFormatter, State.reset, Formatter.reset]

/-- Settles O15: the body of a command keeps the invariant (`Effect.inv`), and so do completion and
fault entry. -/
theorem stepKeepsInvariant : Obligations.StepKeepsInvariant := by
  intro s t hs ht
  obtain ⟨hf, hcp, w, -, ⟨i, -, he⟩ | ⟨-, rfl⟩⟩ := step_next_cases ht
  · obtain ⟨u, hu, hend⟩ := exec_next_effect he
    have hinv := hu.inv hs
    have hframe := hu.frame
    have hf' : u.fault = false := by rw [hframe]; exact hf
    have hcp' : u.cp < u.cmd.length := by rw [hframe]; exact hcp
    rcases hend with rfl | ⟨e, rfl⟩
    · exact hinv.advance hf' hcp'
    · exact hinv.takeFault hcp' e
  · exact hs.takeFault hcp _

/-- Settles O16. -/
theorem resetMeetsInvariant : Obligations.ResetMeetsInvariant :=
  ⟨inv_reset_load [] PixMem.empty PixMem.empty Memory.empty, inv_reset_load⟩

end Sys2Proof.Machine
end

section
/-! SUPPORT. How a command and a step end, the streams and registers a command leaves alone, and the
bound on a launch. -/

namespace Sys2Proof.Machine

/-! ### What a command writes -/

/-- What holds of every state a command's effect may reach, and does not read `cp` or a fault
register, holds of the next state. -/
theorem exec_next_of_effect {i : Instr} {s t : State} {P : State → Prop} (h : exec i s = .next t)
    (hP : ∀ u, Effect s i u → P u) (hadv : ∀ u, P u → P u.advance)
    (hfault : ∀ u e, P u → P (u.takeFault e)) : P t := by
  obtain ⟨u, hu, rfl | ⟨e, rfl⟩⟩ := exec_next_effect h
  · exact hadv u (hP u hu)
  · exact hfault u e (hP u hu)

/-- R52: the commands whose meaning does not call HF.write leave OUT alone. -/
theorem Effect.out {i : Instr} {s t : State} (h : Effect s i t) (hw : ∀ v, i ≠ .fmtWrite v)
    (hb : i ≠ .bpRun) (hc : i ≠ .cqRun) (ha : i ≠ .arRun) : t.out = s.out := by
  cases h with
  | fmtWrite => exact absurd rfl (hw _)
  | bpRun => exact absurd rfl hb
  | cqRun => exact absurd rfl hc
  | arRun => exact absurd rfl ha
  | _ => rfl

theorem Walked.rsp {s t : State} (w : Walked s t) : t.rsp = s.rsp := by
  obtain ⟨-, h⟩ := w.frame
  rw [h]

/-- R25: every command but GETP leaves RSP alone. -/
theorem Effect.rsp {i : Instr} {s t : State} (h : Effect s i t) (hg : ∀ p, i ≠ .getp p) :
    t.rsp = s.rsp := by
  cases h with
  | getp => exact absurd rfl (hg _)
  | bpRun _ _ w | cqRun _ _ w | arRun _ _ w => exact w.rsp
  | _ => rfl

/-- No move of a walk touches CQUSED. -/
theorem cqUsed_keeps (b : Bool) : WalkKeeps fun s => s.cqUsed = b where
  setBp _ _ h := h
  setCq _ _ h := h
  setAr _ _ h := h
  write _ _ h _ _ := h

theorem Walked.cqUsed {s t : State} (w : Walked s t) : t.cqUsed = s.cqUsed :=
  (cqUsed_keeps s.cqUsed).of_walked rfl w

/-- R136: CQ.RUN, once its checks have passed, sets CQUSED; nothing else touches it. -/
theorem Effect.cqUsed {i : Instr} {s t : State} (h : Effect s i t) :
    t.cqUsed = s.cqUsed ∨ (i = .cqRun ∧ t.cqUsed = true) := by
  cases h with
  | bpRun _ _ w | arRun _ _ w => exact .inl (w.cqUsed)
  | cqRun _ _ w => exact .inr ⟨rfl, w.cqUsed⟩
  | _ => exact .inl rfl

/-- R12: the parameter registers are written by SETP and AR.HDR alone. -/
theorem Effect.p {i : Instr} {s t : State} (h : Effect s i t) (hset : ∀ p imm, i ≠ .setp p imm)
    (hhdr : i ≠ .arHdr) : t.p = s.p := by
  cases h with
  | setp => exact absurd rfl (hset _ _)
  | arHdr => exact absurd rfl hhdr
  | bpRun _ _ w | cqRun _ _ w | arRun _ _ w => exact w.p
  | _ => rfl

/-- R149: AR.HDR loads a header or leaves the parameter registers alone. -/
theorem Effect.arHdr_p {s t : State} (h : Effect s .arHdr t) :
    t.p = s.p ∨ ∃ q, t.p = loadHeader q s.p := by
  cases h with
  | refused => exact .inl rfl
  | arHdr q => exact .inr ⟨q, rfl⟩

/-- Settles O18, from what each command's effect leaves alone (`Effect.out`, `Effect.rsp`). -/
theorem onlyWritersEmit : Obligations.OnlyWritersEmit := by
  intro s t i h
  refine ⟨fun hw hb hc ha => ?_, fun hg => ?_⟩
  · exact exec_next_of_effect (P := fun u => u.out = s.out) h (fun _ hu => hu.out hw hb hc ha)
      (fun _ hu => hu) fun _ _ hu => hu
  · exact exec_next_of_effect (P := fun u => u.rsp = s.rsp) h (fun _ hu => hu.rsp hg)
      (fun _ hu => hu) fun _ _ hu => hu

/-- Settles O20, from `Effect.cqUsed`. -/
theorem cqUsedSetOnlyByColourRun : Obligations.CqUsedSetOnlyByColourRun := fun s _ i h =>
  exec_next_of_effect (P := fun u => u.cqUsed = s.cqUsed ∨ (i = .cqRun ∧ u.cqUsed = true)) h
    (fun _ hu => hu.cqUsed) (fun _ hu => hu) fun _ _ hu => hu

/-- Settles O21, from `Effect.p` and `Effect.arHdr_p`. -/
theorem parametersWrittenOnlyBySetpAndHeader :
    Obligations.ParametersWrittenOnlyBySetpAndHeader := by
  intro s t i h
  refine ⟨fun hset hhdr => ?_, ?_⟩
  · exact exec_next_of_effect (P := fun u => u.p = s.p) h (fun _ hu => hu.p hset hhdr)
      (fun _ hu => hu) fun _ _ hu => hu
  · rintro rfl
    have hp : t.p = s.p ∨ ∃ q, t.p = loadHeader q s.p :=
      exec_next_of_effect (P := fun u => u.p = s.p ∨ ∃ q, u.p = loadHeader q s.p) h
        (fun _ hu => hu.arHdr_p) (fun _ hu => hu) fun _ _ hu => hu
    rcases hp with hp | ⟨q, hp⟩ <;> rw [hp] <;> exact ⟨rfl, rfl, rfl, rfl, rfl, rfl⟩

/-- What a command's body ends in extends both streams, RSP by at most one value. -/
def StreamsExtend (s t : State) : Prop :=
  ∃ (cs : List Byte) (vs : List Word),
    t.out = s.out ++ cs ∧ t.rsp = s.rsp ++ vs ∧ vs.length ≤ 1

theorem StreamsExtend.refl (s : State) : StreamsExtend s s := ⟨[], [], by simp⟩

/-- A walk only emits, SETP and AR.HDR append nothing, GETP one value (R24, R25). -/
theorem exec_streamsExtend {i : Instr} {s t : State} (h : exec i s = .next t) :
    StreamsExtend s t := by
  obtain ⟨r, hr, hends⟩ := exec_cases i s
  obtain ⟨u, hu, hend⟩ := hends.outcome_next (hr ▸ h)
  have hext : StreamsExtend s u := by
    rcases hu with ⟨⟨cs, hout⟩, hframe⟩ | hp | ⟨v, rfl⟩
    · exact ⟨cs, [], hout, by rw [hframe]; simp, by simp⟩
    · rw [hp]; exact .refl s
    · exact ⟨[], [v], by simp, rfl, le_rfl⟩
  rcases hend with rfl | ⟨e, rfl⟩ <;> exact hext

/-- Settles O17; an illegal word appends nothing. -/
theorem streamsOnlyGrow : Obligations.StreamsOnlyGrow := by
  intro s t ht
  obtain ⟨-, -, w, -, ⟨i, -, he⟩ | ⟨-, rfl⟩⟩ := step_next_cases ht
  · exact exec_streamsExtend he
  · exact StreamsExtend.refl s

/-! ### How a command ends -/

/-- `t` is reached by completion from `s` (R11). -/
def Completed (s t : State) : Prop :=
  t.fault = false ∧ t.cp = s.cp + 1 ∧ t.cause = s.cause ∧ t.finfo = s.finfo ∧ t.fcmd = s.fcmd

/-- `t` is reached by fault entry from `s` (R192). -/
def Halted (s t : State) : Prop :=
  t.fault = true ∧ t.cp = s.cp ∧ t.fcmd = s.currentWord ∧ ∃ c, t.cause = causeCode c

theorem CommandFrame.completed {s u : State} (h : CommandFrame s u) (hf : s.fault = false) :
    Completed s u.advance := by
  rw [h]; exact ⟨hf, rfl, rfl, rfl, rfl⟩

theorem CommandFrame.halted {s u : State} (h : CommandFrame s u) (e : Exc) :
    Halted s (u.takeFault e) := by
  rw [h]; exact ⟨rfl, rfl, rfl, e.cause, rfl⟩

theorem exec_next_completed_or_halted {i : Instr} {s t : State} (hf : s.fault = false)
    (h : exec i s = .next t) : Completed s t ∨ Halted s t := by
  obtain ⟨u, hu, rfl | ⟨e, rfl⟩⟩ := exec_next_effect h
  · exact .inl (hu.frame.completed hf)
  · exact .inr (hu.frame.halted e)

/-- A command always answers a next state. -/
theorem exec_answers_next (i : Instr) (s : State) : ∃ t, exec i s = .next t := by
  rw [exec_eq_outcome]
  rcases (commandResult i s).outcome_cases with ⟨u, -, h⟩ | ⟨e, u, -, h⟩ <;> exact ⟨_, h⟩

/-- Settles O13, from the frame of a command's body. -/
theorem commandCompletesOrFaults : Obligations.CommandCompletesOrFaults := by
  intro s i hf
  obtain ⟨t, ht⟩ := exec_answers_next i s
  exact ⟨t, ht, exec_next_completed_or_halted hf ht⟩

/-! ### The step -/

/-- A halted block takes no step (R28, R193). -/
theorem step_of_fault {s : State} (h : s.fault = true) : step s = .fault .halted := by
  simp [step, h]

/-- Past the last command the launch has ended (R28). -/
theorem step_of_end {s : State} (hf : s.fault = false) (h : s.cmd.length ≤ s.cp) :
    step s = .fault .launchEnded := by
  simp [step, hf, fetch_eq_none_iff.mpr h]

/-- R28, R64: the word at `cp` runs as its command. -/
theorem step_of_decode {s : State} {w : Word} {i : Instr} (hf : s.fault = false)
    (hw : s.fetch = some w) (hd : decode w = .ok i) : step s = exec i s := by
  simp [step, hf, hw, hd]

/-- R65, R181: a word no row takes faults. -/
theorem step_of_illegal {s : State} {w : Word} {d : DecodeError} (hf : s.fault = false)
    (hw : s.fetch = some w) (hd : decode w = .error d) :
    step s = .next (s.takeFault (illegalCommand w)) := by
  simp [step, hf, hw, hd]

theorem step_answers_next {s : State} (hf : s.fault = false) (hcp : s.cp < s.cmd.length) :
    ∃ t, step s = .next t := by
  have hw : s.fetch = some s.cmd[s.cp] := List.getElem?_eq_getElem hcp
  cases hd : decode s.cmd[s.cp] with
  | ok i => rw [step_of_decode hf hw hd]; exact exec_answers_next i s
  | error d => exact ⟨_, step_of_illegal hf hw hd⟩

/-- Everything a step can be (R28). -/
theorem step_cases (s : State) :
    (s.fault = true ∧ step s = .fault .halted) ∨
      (s.fault = false ∧ s.cmd.length ≤ s.cp ∧ step s = .fault .launchEnded) ∨
      (s.fault = false ∧ s.cp < s.cmd.length ∧ ∃ t, step s = .next t) := by
  cases hf : s.fault with
  | true => exact .inl ⟨rfl, step_of_fault hf⟩
  | false =>
    rcases Nat.lt_or_ge s.cp s.cmd.length with hcp | hcp
    · exact .inr (.inr ⟨rfl, hcp, step_answers_next hf hcp⟩)
    · exact .inr (.inl ⟨rfl, hcp, step_of_end hf hcp⟩)

/-- Settles O7: it is the decoded arm of R28. -/
theorem stepRunsDecodedCommand : Obligations.StepRunsDecodedCommand :=
  fun _ _ _ => step_of_decode

/-- Settles O8: the three cases of R28 exclude each other. -/
theorem stepStopsExactlyWhenHaltedOrEnded : Obligations.StepStopsExactlyWhenHaltedOrEnded := by
  intro s
  rcases step_cases s with ⟨hf, hs⟩ | ⟨hf, hcp, hs⟩ | ⟨hf, hcp, t, hs⟩
  · simp [hs, hf]
  · simp [hs, hf, hcp]
  · simp [hs, hf, hcp]

/-- Settles O9. -/
theorem faultIsStickyUntilReset : Obligations.FaultIsStickyUntilReset :=
  fun _ h => ⟨step_of_fault h, rfl⟩

/-! ### The end of a launch -/

theorem run_of_fault {M : Host.Core} {s : M.State} {r : M.Fault} (h : M.step s = .fault r)
    (k : Nat) : M.run (k + 1) s = .fault r := by
  rw [Host.Core.run, h]

theorem run_of_next {M : Host.Core} {s t : M.State} (h : M.step s = .next t) (k : Nat) :
    M.run (k + 1) s = M.run k t := by
  rw [Host.Core.run, h]

/-- A step that answers next leaves CMD and either advances `cp` or halts. -/
theorem step_next_progress {s t : State} (h : step s = .next t) :
    t.cmd = s.cmd ∧ (t.cp = s.cp + 1 ∨ t.fault = true) := by
  obtain ⟨hf, -, w, -, ⟨i, -, he⟩ | ⟨-, rfl⟩⟩ := step_next_cases h
  · refine ⟨?_, (exec_next_completed_or_halted hf he).imp (fun h => h.2.1) fun h => h.1⟩
    exact exec_next_of_effect (P := fun u => u.cmd = s.cmd) he
      (fun u hu => by rw [hu.frame]) (fun _ hu => hu) fun _ _ hu => hu
  · exact ⟨rfl, .inr rfl⟩

/-- With at most `n` commands left the run of `n + 1` steps ends in a fault of the model. -/
theorem run_ends (n : Nat) :
    ∀ s : State, s.cmd.length - s.cp ≤ n →
      ∃ r, Host.Core.run Sys2Proof.core (n + 1) s = .fault r := by
  induction n with
  | zero =>
    intro s hn
    rcases step_cases s with ⟨-, hs⟩ | ⟨-, -, hs⟩ | ⟨-, hcp, -⟩
    · exact ⟨_, run_of_fault (M := Sys2Proof.core) hs 0⟩
    · exact ⟨_, run_of_fault (M := Sys2Proof.core) hs 0⟩
    · omega
  | succ n ih =>
    intro s hn
    rcases step_cases s with ⟨-, hs⟩ | ⟨-, -, hs⟩ | ⟨-, hcp, t, hs⟩
    · exact ⟨_, run_of_fault (M := Sys2Proof.core) hs _⟩
    · exact ⟨_, run_of_fault (M := Sys2Proof.core) hs _⟩
    · rw [run_of_next (M := Sys2Proof.core) hs]
      obtain ⟨hcmd, hnext | hhalt⟩ := step_next_progress hs
      · exact ih t (by rw [hcmd, hnext]; omega)
      · exact ⟨_, run_of_fault (M := Sys2Proof.core) (step_of_fault hhalt) n⟩

/-- Settles O22, by induction on the commands left. -/
theorem launchEndsOrHalts : Obligations.LaunchEndsOrHalts := fun s => run_ends _ s le_rfl

end Sys2Proof.Machine
end

section
/-! SUPPORT. Two runs from states the host cannot tell apart: outside a command they agree in all
but the leftover registers (`HostView`); inside a RUN command they agree besides in HF and in the unit
registers the walk has already written (`AgreeOn`). -/

namespace Sys2Proof.Machine

/-! ### Agreement in all but the unit registers -/

theorem Result.Rel.imp {R R' : State → State → Prop} {r r' : Result} (h : Result.Rel R r r')
    (hR : ∀ s t, R s t → R' s t) : Result.Rel R' r r' := by
  cases r <;> cases r' <;> simp only [Result.Rel] at h
  · exact hR _ _ h
  · exact ⟨h.1, hR _ _ h.2⟩

/-- `t` differs from `s` in the registers of BP, CQ and AR only, and not in the part `f` of them. -/
def AgreeOn {α : Type} (f : State → α) (s t : State) : Prop :=
  t = { s with bp := t.bp, cq := t.cq, ar := t.ar } ∧ f t = f s

/-- Agreement in all but the unit registers, which may hold anything. -/
abbrev Agree : State → State → Prop := AgreeOn fun _ => ()

section
variable {α β : Type} {f : State → α} {s t : State}

theorem AgreeOn.agree (h : AgreeOn f s t) : Agree s t := ⟨h.1, rfl⟩

theorem AgreeOn.hf (h : AgreeOn f s t) : t.hf = s.hf := by rw [h.1]
theorem AgreeOn.wav (h : AgreeOn f s t) : t.wav = s.wav := by rw [h.1]

theorem AgreeOn.pixM (h : AgreeOn f s t) (x y : Nat) : t.pixM x y = s.pixM x y := by
  rw [h.1]; rfl

theorem AgreeOn.pixC (h : AgreeOn f s t) (x y : Nat) : t.pixC x y = s.pixC x y := by
  rw [h.1]; rfl

theorem AgreeOn.setBp {g : State → β} (h : AgreeOn f s t) {b b' : Packer}
    (hg : g (t.setBp b') = g (s.setBp b)) : AgreeOn g (s.setBp b) (t.setBp b') :=
  ⟨by rw [h.1]; rfl, hg⟩

theorem AgreeOn.setCq {g : State → β} (h : AgreeOn f s t) {c c' : Quantizer}
    (hg : g (t.setCq c') = g (s.setCq c)) : AgreeOn g (s.setCq c) (t.setCq c') :=
  ⟨by rw [h.1]; rfl, hg⟩

theorem AgreeOn.setAr {g : State → β} (h : AgreeOn f s t) {a a' : Reducer}
    (hg : g (t.setAr a') = g (s.setAr a)) : AgreeOn g (s.setAr a) (t.setAr a') :=
  ⟨by rw [h.1]; rfl, hg⟩

theorem Agree.hfWritten (h : Agree s t) (v : Half) : Agree (hfWritten v s) (hfWritten v t) :=
  ⟨by rw [h.1]; rfl, rfl⟩

/-- HF.write does the same in both states, if `f` reads nothing that HF.write changes. -/
theorem AgreeOn.hfWrite (h : AgreeOn f s t) (hw : ∀ u v, f (Machine.hfWritten v u) = f u)
    (v : Half) : Result.Rel (AgreeOn f) (hfWrite v s) (hfWrite v t) := by
  unfold Machine.hfWrite
  rw [h.hf]
  split
  · exact ⟨rfl, h⟩
  · split
    · exact ⟨rfl, h⟩
    · exact ⟨(h.agree.hfWritten v).1, by rw [hw, hw]; exact h.2⟩

theorem AgreeOn.hfWriteAll (hw : ∀ u v, f (Machine.hfWritten v u) = f u) (vs : List Half) :
    ∀ {s t : State}, AgreeOn f s t →
      Result.Rel (AgreeOn f) (hfWriteAll vs s) (hfWriteAll vs t) := by
  induction vs with
  | nil => intro s t h; exact h
  | cons v vs ih =>
    intro s t h
    exact (h.hfWrite hw v).andThen (fun _ _ h => h) fun _ _ h => ih h

end

/-! ### The walk of BP.RUN -/

/-- The registers of BP that a pixel reads. -/
def bpLive (s : State) : BitVec 16 × BitVec 8 × BitVec 4 := (s.bp.y, s.bp.acc, s.bp.nb)

theorem bpLive_hfWritten (s : State) (v : Half) : bpLive (hfWritten v s) = bpLive s := rfl

theorem bpLive_eq {s t : State} (h : AgreeOn bpLive s t) :
    t.bp.y = s.bp.y ∧ t.bp.acc = s.bp.acc ∧ t.bp.nb = s.bp.nb := by
  simpa [bpLive] using h.2

theorem bpClear_agree {s t : State} (h : AgreeOn bpLive s t) :
    AgreeOn bpLive (bpClear s) (bpClear t) := by
  obtain ⟨hy, -, -⟩ := bpLive_eq h
  exact h.setBp (by simp [bpLive, hy])

/-- The write of a byte and the fresh accumulator after it (R115, R116). -/
theorem bpFlush_agree {s t : State} (v : Half) (h : AgreeOn bpLive s t) :
    Result.Rel (AgreeOn bpLive) ((hfWrite v s).andThen fun s => .done (bpClear s))
      ((hfWrite v t).andThen fun s => .done (bpClear s)) :=
  (h.hfWrite bpLive_hfWritten v).andThen (fun _ _ h => h) fun _ _ h => bpClear_agree h

theorem bpPixel_agree {s t : State} (x : Nat) (h : AgreeOn bpLive s t) :
    Result.Rel (AgreeOn bpLive) (bpPixel x s) (bpPixel x t) := by
  obtain ⟨hy, hacc, hnb⟩ := bpLive_eq h
  have hx : AgreeOn bpLive (s.setBp { s.bp with x := BitVec.ofNat 16 x })
      (t.setBp { t.bp with x := BitVec.ofNat 16 x }) := h.setBp h.2
  have hread : t.pixM (BitVec.ofNat 16 x).toNat t.bp.y.toNat
      = s.pixM (BitVec.ofNat 16 x).toNat s.bp.y.toNat := by rw [h.pixM, hy]
  simp only [bpPixel, State.setBp_pixM, State.setBp_bp, hread]
  cases s.pixM (BitVec.ofNat 16 x).toNat s.bp.y.toNat with
  | error e => exact ⟨rfl, hx⟩
  | ok v =>
    have hin : AgreeOn bpLive (bpShiftIn (bpBit v) (s.setBp { s.bp with x := BitVec.ofNat 16 x }))
        (bpShiftIn (bpBit v) (t.setBp { t.bp with x := BitVec.ofNat 16 x })) :=
      hx.setBp (by simp [bpLive, hy, hacc, hnb])
    obtain ⟨-, hacc', hnb'⟩ := bpLive_eq hin
    simp only [hacc', hnb']
    split
    · exact bpFlush_agree _ hin
    · exact hin

theorem bpRowEnd_agree {s t : State} (h : AgreeOn bpLive s t) :
    Result.Rel (AgreeOn bpLive) (bpRowEnd s) (bpRowEnd t) := by
  obtain ⟨-, hacc, hnb⟩ := bpLive_eq h
  unfold bpRowEnd
  rw [hacc, hnb]
  split
  · exact bpFlush_agree _ h
  · exact h

/-- A row writes BP.Y, BP.ACC and BP.NB before it reads them (R117). -/
theorem bpRow_agree {s t : State} (w y : Nat) (h : Agree s t) :
    Result.Rel Agree (bpRow w y s) (bpRow w y t) := by
  have hstart : AgreeOn bpLive (bpClear (s.setBp { s.bp with y := BitVec.ofNat 16 y }))
      (bpClear (t.setBp { t.bp with y := BitVec.ofNat 16 y })) :=
    (h.setBp (g := fun _ => ()) rfl).setBp rfl
  exact (forRange_rel hstart fun x _ _ h => bpPixel_agree x h).andThen (fun _ _ h => h.agree)
    fun _ _ h => (bpRowEnd_agree h).imp fun _ _ h => h.agree

/-! ### The walk of CQ.RUN -/

/-- The register of CQ that a pixel reads. -/
def cqLive (s : State) : BitVec 16 := s.cq.x

theorem cqLive_hfWritten (s : State) (v : Half) : cqLive (hfWritten v s) = cqLive s := rfl

theorem cqPixel_agree {s t : State} (y : Nat) (h : AgreeOn cqLive s t) :
    Result.Rel (AgreeOn cqLive) (cqPixel y s) (cqPixel y t) := by
  have hx : t.cq.x = s.cq.x := h.2
  have hy : AgreeOn cqLive (s.setCq { s.cq with y := BitVec.ofNat 16 y })
      (t.setCq { t.cq with y := BitVec.ofNat 16 y }) := h.setCq h.2
  have hread : t.pixC t.cq.x.toNat (BitVec.ofNat 16 y).toNat
      = s.pixC s.cq.x.toNat (BitVec.ofNat 16 y).toNat := by rw [h.pixC, hx]
  simp only [cqPixel, State.setCq_pixC, State.setCq_cq, hread]
  cases s.pixC s.cq.x.toNat (BitVec.ofNat 16 y).toNat with
  | error e => exact ⟨rfl, hy⟩
  | ok c => exact hy.hfWrite cqLive_hfWritten _

/-- A column writes CQ.X before its pixels read it (R134). -/
theorem cqColumn_agree {s t : State} (n x : Nat) (h : Agree s t) :
    Result.Rel Agree (cqColumn n x s) (cqColumn n x t) := by
  have hstart : AgreeOn cqLive (s.setCq { s.cq with x := BitVec.ofNat 16 x })
      (t.setCq { t.cq with x := BitVec.ofNat 16 x }) := h.setCq rfl
  exact Result.Rel.imp (forRange_rel hstart fun y _ _ h => cqPixel_agree y h) fun _ _ h => h.agree

/-! ### The walk of AR.RUN -/

/-- The registers of AR that carry over from frame to frame. -/
def arGroupLive (s : State) : Group × BitVec 3 := (s.ar.g, s.ar.k)

/-- The registers of AR that a channel and the reduction read. -/
def arLive (s : State) : BitVec 32 × BitVec 32 × Group × BitVec 3 :=
  (s.ar.i, s.ar.sum, s.ar.g, s.ar.k)

theorem arGroupLive_hfWritten (s : State) (v : Half) :
    arGroupLive (hfWritten v s) = arGroupLive s := rfl

theorem arGroupLive_eq {s t : State} (h : AgreeOn arGroupLive s t) :
    t.ar.g = s.ar.g ∧ t.ar.k = s.ar.k := by
  simpa [arGroupLive] using h.2

theorem arLive_eq {s t : State} (h : AgreeOn arLive s t) :
    t.ar.i = s.ar.i ∧ t.ar.sum = s.ar.sum ∧ t.ar.g = s.ar.g ∧ t.ar.k = s.ar.k := by
  simpa [arLive] using h.2

theorem arLive_group {s t : State} (h : AgreeOn arLive s t) : AgreeOn arGroupLive s t := by
  obtain ⟨-, -, hg, hk⟩ := arLive_eq h
  exact ⟨h.1, by simp [arGroupLive, hg, hk]⟩

theorem arChannel_agree {s t : State} (q : AudioArgs) (c : Nat) (h : AgreeOn arLive s t) :
    Result.Rel (AgreeOn arLive) (arChannel q c s) (arChannel q c t) := by
  obtain ⟨hi, hsum, hg, hk⟩ := arLive_eq h
  have hc : AgreeOn arLive (s.setAr { s.ar with c := BitVec.ofNat 16 c })
      (t.setAr { t.ar with c := BitVec.ofNat 16 c }) := h.setAr h.2
  have hread : arSample t.wav q t.ar.i.toNat (BitVec.ofNat 16 c).toNat
      = arSample s.wav q s.ar.i.toNat (BitVec.ofNat 16 c).toNat := by rw [h.wav, hi]
  simp only [arChannel, State.setAr_wav, State.setAr_ar, hread]
  cases arSample s.wav q s.ar.i.toNat (BitVec.ofNat 16 c).toNat with
  | error e => exact ⟨rfl, hc⟩
  | ok u => exact hc.setAr (by simp [arLive, hi, hsum, hg, hk])

theorem arFlush_agree {s t : State} (h : AgreeOn arGroupLive s t) :
    Result.Rel (AgreeOn arGroupLive) (arFlush s) (arFlush t) := by
  obtain ⟨hg, -⟩ := arGroupLive_eq h
  unfold arFlush
  rw [hg]
  exact (AgreeOn.hfWriteAll arGroupLive_hfWritten _ h).andThen (fun _ _ h => h)
    fun _ _ h => h.setAr rfl

theorem arPush_agree {s t : State} (v : BitVec 10) (h : AgreeOn arGroupLive s t) :
    Result.Rel (AgreeOn arGroupLive) (arPush v s) (arPush v t) := by
  obtain ⟨hg, hk⟩ := arGroupLive_eq h
  have hput : AgreeOn arGroupLive (arPut v s) (arPut v t) :=
    h.setAr (by simp [arGroupLive, hg, hk])
  simp only [arPush, (arGroupLive_eq hput).2]
  split
  · exact arFlush_agree hput
  · exact hput

theorem arReduce_agree {s t : State} (q : AudioArgs) (h : AgreeOn arLive s t) :
    Result.Rel (AgreeOn arGroupLive) (arReduce q s) (arReduce q t) := by
  obtain ⟨-, hsum, -, -⟩ := arLive_eq h
  have hgroup := arLive_group h
  unfold arReduce
  rw [hsum]
  split
  · exact hgroup.hfWrite arGroupLive_hfWritten _
  · split
    · exact hgroup.hfWrite arGroupLive_hfWritten _
    · exact arPush_agree _ hgroup

/-- A frame writes AR.I and AR.SUM before it reads them (R151). -/
theorem arFrame_agree {s t : State} (q : AudioArgs) (i : Nat) (h : AgreeOn arGroupLive s t) :
    Result.Rel (AgreeOn arGroupLive) (arFrame q i s) (arFrame q i t) := by
  obtain ⟨hg, hk⟩ := arGroupLive_eq h
  have hstart : AgreeOn arLive (s.setAr { s.ar with i := BitVec.ofNat 32 i, sum := 0 })
      (t.setAr { t.ar with i := BitVec.ofNat 32 i, sum := 0 }) :=
    h.setAr (by simp [arLive, hg, hk])
  exact (forRange_rel hstart fun c _ _ h => arChannel_agree q c h).andThen
    (fun _ _ h => arLive_group h) fun _ _ h => arReduce_agree q h

theorem arTail_agree {s t : State} (q : AudioArgs) (h : AgreeOn arGroupLive s t) :
    Result.Rel (AgreeOn arGroupLive) (arTail q s) (arTail q t) := by
  obtain ⟨hg, hk⟩ := arGroupLive_eq h
  unfold arTail
  rw [hk]
  split
  · exact arFlush_agree (h.setAr (by simp [arGroupLive, hg, hk]))
  · exact h

/-! ### The host's view -/

section
variable {s t : State}

theorem HostView.p (h : HostView s t) : t.p = s.p := by rw [h.1]
theorem HostView.fault (h : HostView s t) : t.fault = s.fault := by rw [h.1]
theorem HostView.cause (h : HostView s t) : t.cause = s.cause := by rw [h.1]
theorem HostView.wav (h : HostView s t) : t.wav = s.wav := by rw [h.1]
theorem HostView.status (h : HostView s t) : t.status = s.status := by rw [h.1]; rfl
theorem HostView.fetch (h : HostView s t) : t.fetch = s.fetch := by rw [h.1]; rfl
theorem HostView.currentWord (h : HostView s t) : t.currentWord = s.currentWord := by
  rw [h.1]; rfl
theorem HostView.hfState (h : HostView s t) : t.hf.state = s.hf.state := h.2.1

theorem HostView.advance (h : HostView s t) : HostView s.advance t.advance := by
  obtain ⟨heq, hstate, hopen⟩ := h
  exact ⟨by rw [heq]; rfl, hstate, hopen⟩

theorem HostView.takeFault (h : HostView s t) (e : Exc) :
    HostView (s.takeFault e) (t.takeFault e) := by
  obtain ⟨heq, hstate, hopen⟩ := h
  exact ⟨by rw [heq]; rfl, hstate, hopen⟩

theorem HostView.setParams (h : HostView s t) (p : Params) :
    HostView (s.setParams p) (t.setParams p) := by
  obtain ⟨heq, hstate, hopen⟩ := h
  exact ⟨by rw [heq]; rfl, hstate, hopen⟩

theorem HostView.respond (h : HostView s t) (v : Word) :
    HostView (s.respond v) (t.respond v) := by
  obtain ⟨heq, hstate, hopen⟩ := h
  exact ⟨by rw [heq]; rfl, hstate, hopen⟩

/-- HF.open writes every register of HF (R92). -/
theorem HostView.hfOpen (h : HostView s t) (n : Word) (c : Half) (d : BitVec 3) :
    Agree (hfOpen n c d s) (hfOpen n c d t) :=
  ⟨by rw [h.1]; rfl, rfl⟩

theorem HostView.agree_of_open (h : HostView s t) (ho : s.hf.state = .opened) : Agree s t := by
  obtain ⟨heq, -, hopen⟩ := h
  exact ⟨by rw [heq, hopen ho], rfl⟩

theorem Agree.hostView (h : Agree s t) : HostView s t := by
  refine ⟨?_, by rw [h.hf], fun _ => h.hf⟩
  rw [h.1]

theorem Agree.setCqUsed (h : Agree s t) (b : Bool) : Agree (s.setCqUsed b) (t.setCqUsed b) :=
  ⟨by rw [h.1]; rfl, rfl⟩

/-! ### The checks read nothing that is left over -/

theorem HostView.needIdle (h : HostView s t) : needIdle t = needIdle s := by
  simp only [Machine.needIdle, h.hfState]

theorem HostView.setpTarget (h : HostView s t) (p : RegIndex) (imm : Imm) :
    setpTarget p imm t = setpTarget p imm s := by
  simp only [Machine.setpTarget, h.currentWord]

theorem HostView.rdIndex (h : HostView s t) (i : RegIndex) : rdIndex t i = rdIndex s i := by
  have hparam (r : ParamReg) : rdParam t r = rdParam s r := by rw [h.1]; rfl
  have hbits : rdAudOutbits t = rdAudOutbits s := by rw [h.1]; rfl
  simp only [Machine.rdIndex, hparam, hbits, h.status, h.cause, h.currentWord]

theorem HostView.fmtOpenChecks (h : HostView s t) : fmtOpenChecks t = fmtOpenChecks s := by
  simp only [Machine.fmtOpenChecks, h.needIdle, rdFmtTotal, rdFmtCols, rdFmtDigits, h.p]

theorem HostView.imageChecks (h : HostView s t) (count : Nat → Nat → Nat) :
    imageChecks count t = imageChecks count s := by
  simp only [Machine.imageChecks, h.needIdle, rdImgW, rdImgH, rdFmtCols, h.p]

theorem HostView.arHdrChecks (h : HostView s t) : arHdrChecks t = arHdrChecks s := by
  simp only [Machine.arHdrChecks, h.wav]

theorem HostView.arRunChecks (h : HostView s t) : arRunChecks t = arRunChecks s := by
  simp only [Machine.arRunChecks, h.needIdle, rdAudChannels, rdAudBits, rdAudFrame, rdAudNsamp,
    rdAudDataoff, rdAudMode, rdFmtCols, h.p]

/-! ### Commands -/

/-- Equal checks before related bodies. -/
theorem HostView.checkedResult {α : Type} (h : HostView s t) {c c' : Checked α} (hc : c' = c)
    {k : α → State → Result} (hk : ∀ a, Result.Rel HostView (k a s) (k a t)) :
    Result.Rel HostView (checkedResult c k s) (checkedResult c' k t) := by
  subst hc
  cases c' with
  | error e => exact ⟨rfl, h⟩
  | ok a => exact hk a

theorem HostView.hfWrite (h : HostView s t) (v : Half) :
    Result.Rel HostView (hfWrite v s) (hfWrite v t) := by
  cases ho : s.hf.state with
  | idle =>
    have ho' : t.hf.state = .idle := h.hfState.trans ho
    simpa [Machine.hfWrite, ho, ho', Result.Rel] using h
  | opened =>
    exact ((h.agree_of_open ho).hfWrite (fun _ _ => rfl) v).imp fun _ _ => Agree.hostView

theorem HostView.bpWalk (h : HostView s t) (q : ImageArgs) :
    Result.Rel HostView (bpWalk q s) (bpWalk q t) :=
  Result.Rel.imp (forRange_rel (h.hfOpen _ _ _) fun y _ _ h => bpRow_agree _ y h) fun _ _ =>
    Agree.hostView

theorem HostView.cqWalk (h : HostView s t) (q : ImageArgs) :
    Result.Rel HostView (cqWalk q s) (cqWalk q t) :=
  Result.Rel.imp (forRange_rel ((h.hfOpen _ _ _).setCqUsed true) fun x _ _ h =>
    cqColumn_agree _ x h) fun _ _ => Agree.hostView

/-- AR.RUN clears AR.G and AR.K before its first frame (R151). -/
theorem HostView.arWalk (h : HostView s t) (q : AudioArgs) :
    Result.Rel HostView (arWalk q s) (arWalk q t) := by
  have hstart : AgreeOn arGroupLive
      (arClearGroup (Machine.hfOpen (BitVec.ofNat 32 q.cnt) q.cols Config.digitsOfByteCell s))
      (arClearGroup (Machine.hfOpen (BitVec.ofNat 32 q.cnt) q.cols Config.digitsOfByteCell t)) :=
    (h.hfOpen _ _ _).setAr rfl
  exact (forRange_rel hstart fun i _ _ h => arFrame_agree q i h).andThen
    (fun _ _ h => h.agree.hostView) fun _ _ h =>
      (arTail_agree q h).imp fun _ _ h => h.agree.hostView

theorem HostView.commandResult (h : HostView s t) (i : Instr) :
    Result.Rel HostView (commandResult i s) (commandResult i t) := by
  cases i <;> simp only [Machine.commandResult]
  case setp p imm => exact h.checkedResult (h.setpTarget p imm) fun r => h.p ▸ h.setParams _
  case getp p => exact h.checkedResult (h.rdIndex p) fun v => h.respond v
  case fmtOpen => exact h.checkedResult h.fmtOpenChecks fun q => (h.hfOpen _ _ _).hostView
  case fmtWrite v => exact h.hfWrite v
  case bpRun => exact h.checkedResult (h.imageChecks _) h.bpWalk
  case cqRun => exact h.checkedResult (h.imageChecks _) h.cqWalk
  case arHdr => exact h.checkedResult h.arHdrChecks fun q => h.p ▸ h.setParams _
  case arRun => exact h.checkedResult h.arRunChecks h.arWalk

end

/-- Two outcomes the host cannot tell apart. -/
def OutcomeView : Host.Outcome State Fault Refusal → Host.Outcome State Fault Refusal → Prop
  | .next t, .next t' => HostView t t'
  | .fault r, .fault r' => r = r'
  | _, _ => False

theorem Result.Rel.outcomeView {r r' : Result} (h : Result.Rel HostView r r') :
    OutcomeView r.outcome r'.outcome := by
  cases r <;> cases r' <;> simp only [Result.Rel] at h
  case done.done => exact HostView.advance h
  case raised.raised =>
    obtain ⟨rfl, h⟩ := h
    exact h.takeFault _

/-- The step of two states the host cannot tell apart. -/
theorem HostView.step {s t : State} (h : HostView s t) : OutcomeView (step s) (step t) := by
  unfold Machine.step
  rw [h.fault, h.fetch]
  split
  · exact rfl
  · split
    · exact rfl
    · split
      · next i _ =>
        rw [exec_eq_outcome, exec_eq_outcome]
        exact (h.commandResult i).outcomeView
      · exact h.takeFault _

/-- Settles O23: no command reads a register of a unit, or a copy of a closed array, that it has not
written. -/
theorem leftoverRegistersUnobservable : Obligations.LeftoverRegistersUnobservable := by
  intro s s' h
  have hview := h.step
  revert hview
  cases Machine.step s <;> cases Machine.step s' <;> exact id

end Sys2Proof.Machine
end

section
/-! SUPPORT. The command a change of the source memories does not show in: what a walk does after
the memories it does not read were replaced is what it does before, with the same memories replaced
(R40). -/

namespace Sys2Proof.Machine

/-! ### Replaced memories -/

/-- A change of the three source memories, each on its own. -/
structure MemoryChange where
  pixm : PixMem Sample → PixMem Sample
  pixc : PixMem Rgb → PixMem Rgb
  wav : Memory → Memory

/-- `s` with its source memories changed by `c` and nothing else. -/
def State.change (c : MemoryChange) (s : State) : State :=
  s.load s.cmd (c.pixm s.pixm) (c.pixc s.pixc) (c.wav s.wav)

/-- R40's table: `c` leaves the memory alone that the command reaches. -/
def MemoryChange.Spares (c : MemoryChange) : Instr → Prop
  | .bpRun => ∀ m, c.pixm m = m
  | .cqRun => ∀ m, c.pixc m = m
  | .arHdr | .arRun => ∀ m, c.wav m = m
  | _ => True

section
variable (c : MemoryChange) (s : State)

@[simp] theorem State.change_hf : (s.change c).hf = s.hf := rfl
@[simp] theorem State.change_bp : (s.change c).bp = s.bp := rfl
@[simp] theorem State.change_cq : (s.change c).cq = s.cq := rfl
@[simp] theorem State.change_ar : (s.change c).ar = s.ar := rfl
@[simp] theorem State.change_wav : (s.change c).wav = c.wav s.wav := rfl
theorem State.change_setBp (b : Packer) : (s.change c).setBp b = (s.setBp b).change c := rfl
theorem State.change_setCq (q : Quantizer) : (s.change c).setCq q = (s.setCq q).change c := rfl
theorem State.change_setAr (a : Reducer) : (s.change c).setAr a = (s.setAr a).change c := rfl
end

/-- The change `c` does not show in the body `k`: after it `k` ends as before, in the changed
state. -/
def Blind (c : MemoryChange) (k : State → Result) : Prop :=
  ∀ s, Result.Rel (fun u v => v = u.change c) (k s) (k (s.change c))

section
variable {c : MemoryChange}

theorem Blind.done (f : State → State) (h : ∀ s, f (s.change c) = (f s).change c) :
    Blind c fun s => .done (f s) := h

theorem Blind.andThen {k k' : State → Result} (h : Blind c k) (h' : Blind c k') :
    Blind c fun s => (k s).andThen k' := fun s =>
  (h s).andThen (fun _ _ e => e) (by rintro u _ rfl; exact h' u)

theorem Blind.forRange {body : Nat → State → Result} (h : ∀ i, Blind c (body i)) (n a : Nat) :
    Blind c (forRange body n a) := fun _ =>
  forRange_rel rfl (by rintro i u _ rfl; exact h i u)

/-- Checks that read no changed memory, before a body that does not show the change. -/
theorem Blind.checkedResult {α : Type} {chk : State → Checked α} {k : α → State → Result}
    (hchk : ∀ s, chk (s.change c) = chk s) (hk : ∀ a, Blind c (k a)) :
    Blind c fun s => checkedResult (chk s) k s := by
  intro s
  simp only [hchk]
  cases chk s with
  | error e => exact ⟨rfl, rfl⟩
  | ok a => exact hk a s

/-! ### The formatter -/

theorem hfWrite_blind (v : Half) : Blind c (hfWrite v) := by
  intro s
  unfold hfWrite
  rw [State.change_hf]
  split
  · exact ⟨rfl, rfl⟩
  · split
    · exact ⟨rfl, rfl⟩
    · rfl

theorem hfWriteAll_blind (vs : List Half) : Blind c (hfWriteAll vs) := by
  induction vs with
  | nil => exact fun _ => rfl
  | cons v vs ih => exact (hfWrite_blind v).andThen ih

/-! ### BP.RUN -/

/-- The write of a byte and the fresh accumulator after it (R115, R116). -/
theorem bpFlush_blind (v : Half) :
    Blind c fun s => (hfWrite v s).andThen fun s => .done (bpClear s) :=
  (hfWrite_blind v).andThen (Blind.done bpClear fun _ => rfl)

theorem pixM_change (hc : ∀ m, c.pixm m = m) (s : State) (x y : Nat) :
    (s.change c).pixM x y = s.pixM x y := by
  simp [State.pixM, State.change, hc]

theorem bpPixel_blind (hc : ∀ m, c.pixm m = m) (x : Nat) : Blind c (bpPixel x) := by
  intro s
  simp only [bpPixel, State.change_bp, State.change_setBp, pixM_change hc]
  split
  · exact ⟨rfl, rfl⟩
  · next v _ =>
    have hin (u : State) : bpShiftIn (bpBit v) (u.change c) = (bpShiftIn (bpBit v) u).change c := rfl
    simp only [hin, State.change_bp]
    split
    · exact bpFlush_blind _ _
    · rfl

theorem bpRowEnd_blind : Blind c bpRowEnd := by
  intro s
  unfold bpRowEnd
  rw [State.change_bp]
  split
  · exact bpFlush_blind _ s
  · rfl

theorem bpRow_blind (hc : ∀ m, c.pixm m = m) (w y : Nat) : Blind c (bpRow w y) := fun s =>
  (Blind.forRange (bpPixel_blind hc) w 0).andThen bpRowEnd_blind
    (bpClear (s.setBp { s.bp with y := BitVec.ofNat 16 y }))

theorem bpWalk_blind (hc : ∀ m, c.pixm m = m) (q : ImageArgs) : Blind c (bpWalk q) := fun s =>
  Blind.forRange (bpRow_blind hc q.w.toNat) q.h.toNat 0
    (hfOpen (BitVec.ofNat 32 q.n) q.cols Config.digitsOfByteCell s)

/-! ### CQ.RUN -/

theorem pixC_change (hc : ∀ m, c.pixc m = m) (s : State) (x y : Nat) :
    (s.change c).pixC x y = s.pixC x y := by
  simp [State.pixC, State.change, hc]

theorem cqPixel_blind (hc : ∀ m, c.pixc m = m) (y : Nat) : Blind c (cqPixel y) := by
  intro s
  simp only [cqPixel, State.change_cq, State.change_setCq, pixC_change hc]
  split
  · exact ⟨rfl, rfl⟩
  · exact hfWrite_blind _ _

theorem cqColumn_blind (hc : ∀ m, c.pixc m = m) (h x : Nat) : Blind c (cqColumn h x) := fun s =>
  Blind.forRange (cqPixel_blind hc) h 0 (s.setCq { s.cq with x := BitVec.ofNat 16 x })

theorem cqWalk_blind (hc : ∀ m, c.pixc m = m) (q : ImageArgs) : Blind c (cqWalk q) := fun s =>
  Blind.forRange (cqColumn_blind hc q.h.toNat) q.w.toNat 0
    ((hfOpen (BitVec.ofNat 32 q.n) q.cols Config.digitsOfHalfCell s).setCqUsed true)

/-! ### AR.HDR and AR.RUN -/

theorem arHdrChecks_change (hc : ∀ m, c.wav m = m) (s : State) :
    arHdrChecks (s.change c) = arHdrChecks s := by
  simp only [arHdrChecks, State.change_wav, hc]

theorem arChannel_blind (hc : ∀ m, c.wav m = m) (q : AudioArgs) (ch : Nat) :
    Blind c (arChannel q ch) := by
  intro s
  simp only [arChannel, State.change_ar, State.change_setAr, State.change_wav, hc]
  split
  · exact ⟨rfl, rfl⟩
  · rfl

theorem arFlush_blind : Blind c arFlush := fun s =>
  (hfWriteAll_blind (groupBytes s.ar.g)).andThen (Blind.done arClearGroup fun _ => rfl) s

theorem arPush_blind (v : BitVec 10) : Blind c (arPush v) := by
  intro s
  have hput : arPut v (s.change c) = (arPut v s).change c := rfl
  simp only [arPush, hput, State.change_ar]
  split
  · exact arFlush_blind _
  · rfl

theorem arReduce_blind (q : AudioArgs) : Blind c (arReduce q) := by
  intro s
  simp only [arReduce, State.change_ar]
  split
  · exact hfWrite_blind _ s
  · split
    · exact hfWrite_blind _ s
    · exact arPush_blind _ s

theorem arFrame_blind (hc : ∀ m, c.wav m = m) (q : AudioArgs) (i : Nat) :
    Blind c (arFrame q i) := fun s =>
  (Blind.forRange (arChannel_blind hc q) q.ch.toNat 0).andThen (arReduce_blind q)
    (s.setAr { s.ar with i := BitVec.ofNat 32 i, sum := 0 })

theorem arTail_blind (q : AudioArgs) : Blind c (arTail q) := by
  intro s
  unfold arTail
  rw [State.change_ar, State.change_setAr]
  split
  · exact arFlush_blind _
  · rfl

theorem arWalk_blind (hc : ∀ m, c.wav m = m) (q : AudioArgs) : Blind c (arWalk q) := fun s =>
  (Blind.forRange (arFrame_blind hc q) q.n.toNat 0).andThen (arTail_blind q)
    (arClearGroup (hfOpen (BitVec.ofNat 32 q.cnt) q.cols Config.digitsOfByteCell s))

/-! ### Commands -/

/-- A change shows in no command whose memory it leaves alone. -/
theorem commandResult_blind (i : Instr) (hc : c.Spares i) : Blind c (commandResult i) := by
  cases i with
  | setp p imm => exact Blind.checkedResult (fun _ => rfl) fun _ => Blind.done _ fun _ => rfl
  | getp p => exact Blind.checkedResult (fun _ => rfl) fun _ => Blind.done _ fun _ => rfl
  | fmtOpen => exact Blind.checkedResult (fun _ => rfl) fun _ => Blind.done _ fun _ => rfl
  | fmtWrite v => exact hfWrite_blind v
  | bpRun => exact Blind.checkedResult (fun _ => rfl) (bpWalk_blind hc)
  | cqRun => exact Blind.checkedResult (fun _ => rfl) (cqWalk_blind hc)
  | arHdr => exact Blind.checkedResult (arHdrChecks_change hc) fun _ => Blind.done _ fun _ => rfl
  | arRun => exact Blind.checkedResult (fun _ => rfl) (arWalk_blind hc)

/-- Results that end in changed states give outcomes that do. -/
theorem Result.Rel.outcome_mapNext {r r' : Result}
    (h : Result.Rel (fun u v => v = u.change c) r r') :
    r'.outcome = mapNext (State.change c) r.outcome := by
  cases r <;> cases r' <;> simp only [Result.Rel] at h
  case done.done => rw [h]; rfl
  case raised.raised => obtain ⟨rfl, rfl⟩ := h; rfl

theorem exec_change {i : Instr} (hc : c.Spares i) (s : State) :
    exec i (s.change c) = mapNext (State.change c) (exec i s) := by
  rw [exec_eq_outcome, exec_eq_outcome]
  exact (commandResult_blind i hc s).outcome_mapNext

end

/-- Settles O24: replacing one memory leaves the other two as they are, so it spares every command
that does not reach it (`exec_change`). -/
theorem commandsReadOnlyTheirMemories : Obligations.CommandsReadOnlyTheirMemories := by
  intro s pm pc m
  refine ⟨fun i hhdr hrun => ?_, fun i hbp => ?_, fun i hcq => ?_⟩
  · refine exec_change (c := ⟨id, id, fun _ => m⟩) ?_ s
    cases i with
    | arHdr => exact absurd rfl hhdr
    | arRun => exact absurd rfl hrun
    | bpRun | cqRun => exact fun _ => rfl
    | _ => trivial
  · refine exec_change (c := ⟨fun _ => pm, id, id⟩) ?_ s
    cases i with
    | bpRun => exact absurd rfl hbp
    | cqRun | arHdr | arRun => exact fun _ => rfl
    | _ => trivial
  · refine exec_change (c := ⟨id, fun _ => pc, id⟩) ?_ s
    cases i with
    | cqRun => exact absurd rfl hcq
    | bpRun | arHdr | arRun => exact fun _ => rfl
    | _ => trivial

end Sys2Proof.Machine
end

section
/-! SUPPORT. What a read of WAV or of a pixel memory answers: after the host has loaded it, after a
write of one byte, and as a number of several bytes (R41 to R44). -/

namespace Sys2Proof.Machine

/-! ### WAV by its cells -/

/-- The byte a list of cells holds at address `a`. -/
def cellByte (l : List Host.Cell) (a : Nat) : Byte := (l.lookup a).getD Memory.unlisted

theorem byteAt_eq_cellByte (m : Memory) (a : Nat) : m.byteAt a = cellByte m.cells a := rfl

theorem byte?_inside {m : Memory} {a : Nat} (h : a < m.len.toNat) :
    m.byte? a = some (cellByte m.cells a) := by
  simp [Memory.byte?, h, byteAt_eq_cellByte]

@[simp] theorem cellByte_nil (a : Nat) : cellByte [] a = Memory.unlisted := rfl

theorem cellByte_cons (k a : Nat) (v : Byte) (l : List Host.Cell) :
    cellByte ((k, v) :: l) a = if a = k then v else cellByte l a := by
  by_cases h : a = k
  · simp [cellByte, h]
  · simp only [cellByte, List.lookup_cons, beq_false_of_ne h, if_neg h]

/-- An address that no cell has reads as unlisted. -/
theorem cellByte_of_forall_ne {l : List Host.Cell} {a : Nat} (h : ∀ c ∈ l, c.1 ≠ a) :
    cellByte l a = Memory.unlisted := by
  induction l with
  | nil => rfl
  | cons c t ih =>
    obtain ⟨hc, ht⟩ := List.forall_mem_cons.mp h
    rw [cellByte_cons, if_neg (Ne.symm hc), ih ht]

/-- The cells of a sequence of bytes read as the bytes. -/
theorem cellByte_cellsOfBytes (bs : List Byte) :
    ∀ a k, cellByte (cellsOfBytes a bs) (a + k) = bs[k]?.getD Memory.unlisted := by
  induction bs with
  | nil => intro a k; rfl
  | cons b t ih =>
    intro a k
    have hhead : cellByte (cellsOfBytes a (b :: t)) a = b := by
      simp only [cellsOfBytes]
      split
      · next hb =>
        rw [hb]
        exact cellByte_of_forall_ne fun c hc => by
          have := (cellsOfBytes_ok t (a + 1)).2 c hc
          omega
      · rw [cellByte_cons, if_pos rfl]
    have htail (j : Nat) : cellByte (cellsOfBytes a (b :: t)) (a + 1 + j)
        = cellByte (cellsOfBytes (a + 1) t) (a + 1 + j) := by
      simp only [cellsOfBytes]
      split
      · rfl
      · rw [cellByte_cons, if_neg (by omega)]
    cases k with
    | zero => simpa using hhead
    | succ j =>
      rw [Nat.add_comm j, ← Nat.add_assoc, htail, ih]
      simp [Nat.add_comm 1]

/-- In cells that are in their form a write changes the byte at its address and no other. -/
theorem cellByte_cellsWrite {n a : Nat} {b : Byte} {l : List Host.Cell} (h : CellsOk n l)
    (x : Nat) : cellByte (cellsWrite a b l) x = if x = a then b else cellByte l x := by
  induction l with
  | nil =>
    by_cases hb : b = Memory.unlisted <;> simp [cellsWrite, hb, cellByte_cons]
  | cons c t ih =>
    obtain ⟨k, v⟩ := c
    obtain ⟨hrise, -, ht⟩ := cellsOk_cons.mp h
    have habsent : cellByte t k = Memory.unlisted :=
      cellByte_of_forall_ne fun c hc => (hrise c hc).ne'
    rcases Nat.lt_trichotomy a k with hlt | rfl | hgt
    · have hbefore : cellByte ((k, v) :: t) a = Memory.unlisted :=
        cellByte_of_forall_ne <| List.forall_mem_cons.mpr
          ⟨hlt.ne', fun c hc => (hlt.trans (hrise c hc)).ne'⟩
      by_cases hb : b = Memory.unlisted
      · rw [cellsWrite, if_pos hlt, if_pos hb]
        split
        · next hx => rw [hx, hbefore, hb]
        · rfl
      · rw [cellsWrite, if_pos hlt, if_neg hb, cellByte_cons]
    · by_cases hb : b = Memory.unlisted
      · rw [cellsWrite, if_neg (Nat.lt_irrefl _), if_pos rfl, if_pos hb, cellByte_cons]
        split
        · next hx => rw [hx, habsent, hb]
        · rfl
      · rw [cellsWrite, if_neg (Nat.lt_irrefl _), if_pos rfl, if_neg hb, cellByte_cons,
          cellByte_cons]
        split <;> rfl
    · rw [cellsWrite, if_neg (by omega), if_neg (by omega), cellByte_cons, cellByte_cons, ih ht]
      by_cases hx : x = k
      · rw [if_pos hx, if_pos hx, if_neg (by omega)]
      · rw [if_neg hx, if_neg hx]

/-! ### Loading and writing WAV -/

theorem ofBytes_len {bs : List Byte} (h : bs.length < 2 ^ 32) :
    (Memory.ofBytes bs).len.toNat = bs.length := by
  simpa [Memory.ofBytes] using Nat.mod_eq_of_lt h

/-- Settles O56, from the bytes of the cells (`cellByte_cellsOfBytes`). -/
theorem loadedFileReadsBack : Obligations.LoadedFileReadsBack := by
  intro bs h
  have hlen := ofBytes_len h
  refine ⟨hlen, Memory.ofBytes_wf h, fun a => ?_⟩
  rcases Nat.lt_or_ge a bs.length with ha | ha
  · have hbyte : cellByte (Memory.ofBytes bs).cells a = bs[a]?.getD Memory.unlisted := by
      simpa [Memory.ofBytes] using cellByte_cellsOfBytes bs 0 a
    rw [byte?_inside (hlen ▸ ha), hbyte, List.getElem?_eq_getElem ha, Option.getD_some]
  · rw [List.getElem?_eq_none ha, Memory.byte?, if_neg (by omega)]

theorem write_inside {m : Memory} {a : Nat} {b : Byte} (h : a < m.len.toNat) :
    m.write a b = { m with cells := cellsWrite a b m.cells } := by
  simp [Memory.write, h]

/-- Settles O57, from the bytes of the cells (`cellByte_cellsWrite`). -/
theorem memoryWriteReadsBack : Obligations.MemoryWriteReadsBack := by
  intro m a b hwf ha
  have hread (x : Nat) : (m.write a b).byteAt x = if x = a then b else m.byteAt x := by
    rw [write_inside ha]
    exact cellByte_cellsWrite ((wf_iff m).mp hwf) x
  have hlen : (m.write a b).len = m.len := by rw [write_inside ha]
  refine ⟨Memory.write_wf hwf a b, ?_, fun x hx => ?_⟩
  · rw [Memory.byte?, hlen, if_pos ha, hread, if_pos rfl]
  · rw [Memory.byte?, Memory.byte?, hlen, hread, if_neg hx]

/-! ### MemRead -/

/-- The bytes assembled are the sum of their places (R44, R45). -/
theorem assemble_eq_sum (m : Memory) (n : Nat) :
    ∀ addr, m.assemble addr n =
      ((List.range n).map fun k => (m.byteAt (addr + k)).toNat * 256 ^ k).sum := by
  induction n with
  | zero => intro addr; rfl
  | succ n ih =>
    intro addr
    have hshift (k : Nat) : (m.byteAt (addr + (k + 1))).toNat * 256 ^ (k + 1)
        = 256 * ((m.byteAt (addr + 1 + k)).toNat * 256 ^ k) := by
      rw [show addr + (k + 1) = addr + 1 + k by omega, pow_succ]
      ring
    simp only [Memory.assemble, ih, List.sum_range_succ', hshift, List.sum_map_mul_left]
    simp [Nat.add_comm]

theorem srcBoundsWav_eq_mod (addr : Nat) :
    srcBoundsWav addr = ⟨.srcBounds, BitVec.ofNat 32 (addr % 2 ^ 32)⟩ := by
  simp [srcBoundsWav, BitVec.toNat_eq]

/-- Settles O55: inside WAV every byte of the sum is one that `byte?` reads. -/
theorem memReadIsLittleEndian : Obligations.MemReadIsLittleEndian := by
  intro m addr n hn
  refine ⟨fun hout => ?_, fun hin => ?_, fun hbig => ?_⟩
  · rw [memRead_outside hout, srcBoundsWav_eq_mod]
  · refine ⟨m.assemble addr n, memRead_inside hin, assemble_lt m n addr, ?_⟩
    rw [assemble_eq_sum]
    congr 1
    refine List.map_congr_left fun k hk => ?_
    have hk : k < n := List.mem_range.mp hk
    rw [byte?_inside (by omega), byteAt_eq_cellByte, Option.getD_some]
  · have := m.len.isLt
    omega

/-! ### Pixel memories -/

theorem mem_gridCoords {w h x y : Nat} : ⟨x, y⟩ ∈ gridCoords w h ↔ x < w ∧ y < h := by
  simp [gridCoords, and_comm]

theorem ofGrid_at? {α : Type} (w h : Nat) (f : Nat → Nat → α) (x y : Nat) :
    (PixMem.ofGrid w h f).at? x y = if x < w ∧ y < h then some (f x y) else none := by
  by_cases hxy : x < w ∧ y < h
  · have hlist : (PixMem.ofGrid w h f).cells.lookup ⟨x, y⟩ = some (f x y) :=
      List.lookup_graph (fun c : Coord => f c.x c.y) (mem_gridCoords.mpr hxy)
    simp only [PixMem.at?, hlist]
    rfl
  · exact (if_neg hxy).trans (if_neg hxy).symm

theorem ofGrid_wf {α : Type} (w h : Nat) (f : Nat → Nat → α) : (PixMem.ofGrid w h f).wf = true := by
  simp [PixMem.wf, PixMem.ofGrid, Function.comp_def]

/-- Settles O58. -/
theorem loadedGridReadsBack : Obligations.LoadedGridReadsBack := fun w h f g x y =>
  ⟨ofGrid_at? w h f x y, ofGrid_at? w h g x y, ofGrid_wf w h f, ofGrid_wf w h g⟩

end Sys2Proof.Machine
end

section
/-! SUPPORT. The inputs of a launch stay as they are, and an open array is left alone by every
command but FMT.WRITE. -/

namespace Sys2Proof.Machine

/-! ### The source memories -/

/-- The inputs of the launch are the same in both states (R47, R56). -/
def InputsKept (s t : State) : Prop :=
  t.cmd = s.cmd ∧ t.wav = s.wav ∧ t.pixm = s.pixm ∧ t.pixc = s.pixc

theorem InputsKept.sameMemories {s t : State} (h : InputsKept s t) : SameMemories s t := by
  obtain ⟨hcmd, hwav, hpixm, hpixc⟩ := h
  exact ⟨hcmd, fun a => by rw [hwav], fun x y => by simp [State.pixM, hpixm],
    fun x y => by simp [State.pixC, hpixc]⟩

theorem CommandFrame.inputsKept {s t : State} (h : CommandFrame s t) : InputsKept s t := by
  rw [h]; exact ⟨rfl, rfl, rfl, rfl⟩

theorem step_inputsKept {s t : State} (h : step s = .next t) : InputsKept s t := by
  obtain ⟨-, -, w, -, ⟨i, -, he⟩ | ⟨-, rfl⟩⟩ := step_next_cases h
  · exact exec_next_of_effect (P := InputsKept s) he (fun _ hu => hu.frame.inputsKept)
      (fun _ hu => hu) fun _ _ hu => hu
  · exact ⟨rfl, rfl, rfl, rfl⟩

/-- Settles O19, from the frame of a command (`step_inputsKept`). -/
theorem stepKeepsMemories : Obligations.StepKeepsMemories := fun _ _ h =>
  have hkept := step_inputsKept h
  ⟨hkept.sameMemories, hkept.2⟩

/-! ### Inside an open array -/

/-- The commands that call HF.open: FMT.OPEN and the RUN commands (R90, R184). -/
def OpensArray (i : Instr) : Prop := i = .fmtOpen ∨ i = .bpRun ∨ i = .cqRun ∨ i = .arRun

theorem needIdle_of_opened {s : State} (h : s.hf.state = .opened) :
    needIdle s = .error fmtStateFault := by
  simp [needIdle, h]

/-- R184: their first check fails while an array is open. -/
theorem commandResult_of_opened {i : Instr} {s : State} (ho : s.hf.state = .opened)
    (hi : OpensArray i) : commandResult i s = .raised fmtStateFault s := by
  have hidle := needIdle_of_opened ho
  rcases hi with rfl | rfl | rfl | rfl
  · simp [commandResult, checkedResult, fmtOpenChecks, hidle]
  · simp [commandResult, checkedResult, imageChecks, hidle]
  · simp [commandResult, checkedResult, imageChecks, hidle]
  · simp [commandResult, checkedResult, arRunChecks, hidle]

theorem exec_of_opened {i : Instr} {s : State} (ho : s.hf.state = .opened) (hi : OpensArray i) :
    exec i s = .next (s.takeFault fmtStateFault) := by
  rw [exec_eq_outcome, commandResult_of_opened ho hi]; rfl

/-- The part of the state that HF.open and HF.write move is the same in both states (R52). -/
def ArrayKept (s t : State) : Prop := t.out = s.out ∧ t.hf = s.hf ∧ t.fmtOpen = s.fmtOpen

/-- R52: only HF.open and HF.write touch an array. -/
theorem Effect.arrayKept {i : Instr} {s t : State} (h : Effect s i t) (hi : ¬ OpensArray i)
    (hw : ∀ v, i ≠ .fmtWrite v) : ArrayKept s t := by
  cases h with
  | fmtWrite => exact absurd rfl (hw _)
  | fmtOpen | bpRun | cqRun | arRun => exact absurd (by simp [OpensArray]) hi
  | _ => exact ⟨rfl, rfl, rfl⟩

theorem exec_arrayKept {i : Instr} {s t : State} (ho : s.hf.state = .opened)
    (h : exec i s = .next t) (hw : ∀ v, i ≠ .fmtWrite v) : ArrayKept s t := by
  by_cases hi : OpensArray i
  · obtain rfl := Host.Outcome.next.inj ((exec_of_opened ho hi).symm.trans h)
    exact ⟨rfl, rfl, rfl⟩
  · exact exec_next_of_effect (P := ArrayKept s) h (fun _ hu => hu.arrayKept hi hw)
      (fun _ hu => hu) fun _ _ hu => hu

/-- Settles O60: the commands that open an array fault (`exec_of_opened`), the others but FMT.WRITE
do not touch it (`exec_arrayKept`). -/
theorem openArrayBodyIsContiguous : Obligations.OpenArrayBodyIsContiguous := by
  intro s t i ho h
  have hfault : OpensArray i → t = s.takeFault fmtStateFault := fun hi =>
    (Host.Outcome.next.inj ((exec_of_opened ho hi).symm.trans h)).symm
  refine ⟨exec_arrayKept ho h, fun hi => hfault hi, fun hdone => ?_⟩
  have hi : ¬ OpensArray i := fun hi => by simp [hfault hi] at hdone
  cases i with
  | setp p imm => exact .inl ⟨p, imm, rfl⟩
  | getp p => exact .inr (.inl ⟨p, rfl⟩)
  | fmtWrite v => exact .inr (.inr (.inl ⟨v, rfl⟩))
  | arHdr => exact .inr (.inr (.inr rfl))
  | fmtOpen | bpRun | cqRun | arRun => exact absurd (by simp [OpensArray]) hi

end Sys2Proof.Machine
end

section
/-! SUPPORT. A word is its group, sub-code and immediate (R60), and a row of R62 is a condition on
these three. From this: which row takes a word, and that encoder and decoder invert each other. -/

namespace Sys2Proof

/-! ### The fields of a word (R60) -/

theorem wordGroup_toNat (w : Word) : (wordGroup w).toNat = w.toNat / 2 ^ 28 := by
  simp only [wordGroup, BitVec.extractLsb'_toNat, Nat.shiftRight_eq_div_pow]; omega

theorem wordSub_toNat (w : Word) : (wordSub w).toNat = w.toNat / 2 ^ 24 % 16 := by
  simp [wordSub, Nat.shiftRight_eq_div_pow]

theorem wordImm_toNat (w : Word) : (wordImm w).toNat = w.toNat % 2 ^ 24 := by
  simp [wordImm]

theorem wordVal_toNat (w : Word) : (wordVal w).toNat = w.toNat % 2 ^ 16 := by
  simp [wordVal]

/-- A word is the sum of its shifted fields. -/
theorem word_toNat_eq_sum (w : Word) :
    w.toNat = (wordGroup w).toNat * 2 ^ 28 + (wordSub w).toNat * 2 ^ 24 + (wordImm w).toNat := by
  rw [wordGroup_toNat, wordSub_toNat, wordImm_toNat]; omega

theorem word_ext_iff {v w : Word} :
    v = w ↔ wordGroup v = wordGroup w ∧ wordSub v = wordSub w ∧ wordImm v = wordImm w := by
  refine ⟨by rintro rfl; exact ⟨rfl, rfl, rfl⟩, fun ⟨hg, hs, hi⟩ => BitVec.eq_of_toNat_eq ?_⟩
  rw [word_toNat_eq_sum v, word_toNat_eq_sum w, hg, hs, hi]

/-- A mask acts on each field by itself. -/
theorem word_and_eq_iff {w m v : Word} :
    w &&& m = v ↔ wordGroup w &&& wordGroup m = wordGroup v ∧
      wordSub w &&& wordSub m = wordSub v ∧ wordImm w &&& wordImm m = wordImm v := by
  simp only [word_ext_iff (v := w &&& m), wordGroup, wordSub, wordImm, BitVec.extractLsb'_and]

theorem wordGroup_ofNat (n : Nat) :
    wordGroup (BitVec.ofNat 32 n) = BitVec.ofNat 4 (n / 2 ^ 28) := by
  apply BitVec.eq_of_toNat_eq; rw [wordGroup_toNat, BitVec.toNat_ofNat, BitVec.toNat_ofNat]; omega

theorem wordSub_ofNat (n : Nat) : wordSub (BitVec.ofNat 32 n) = BitVec.ofNat 4 (n / 2 ^ 24) := by
  apply BitVec.eq_of_toNat_eq; rw [wordSub_toNat, BitVec.toNat_ofNat, BitVec.toNat_ofNat]; omega

theorem wordImm_ofNat (n : Nat) : wordImm (BitVec.ofNat 32 n) = BitVec.ofNat 24 n := by
  apply BitVec.eq_of_toNat_eq; rw [wordImm_toNat, BitVec.toNat_ofNat, BitVec.toNat_ofNat]; omega

/-! ### The rows of R62 in the fields -/

/-- The mask and the match of a row, in the fields as numbers. -/
def Row.fieldsMatch (grp sub imm : Nat) : Row → Prop
  | .setp => grp = 1
  | .getp => grp = 2 ∧ imm = 0
  | .fmtOpen => grp = 3 ∧ sub = 0 ∧ imm = 0
  | .fmtWrite => grp = 3 ∧ sub = 1 ∧ imm / 2 ^ 16 = 0
  | .bpRun => grp = 4 ∧ sub = 0 ∧ imm = 0
  | .cqRun => grp = 5 ∧ sub = 0 ∧ imm = 0
  | .arHdr => grp = 6 ∧ sub = 0 ∧ imm = 0
  | .arRun => grp = 6 ∧ sub = 1 ∧ imm = 0

/-- Under a mask of ones the whole field counts. -/
theorem nibble_and_ones_eq_iff (x : BitVec 4) (n : Nat) :
    x &&& 0xF#4 = BitVec.ofNat 4 n ↔ x.toNat = n % 2 ^ 4 := by
  rw [show 0xF#4 = BitVec.allOnes 4 from rfl, BitVec.and_allOnes, ← BitVec.toNat_inj,
    BitVec.toNat_ofNat]

theorem imm_and_ones_eq_iff (x : Imm) (n : Nat) :
    x &&& 0xFFFFFF#24 = BitVec.ofNat 24 n ↔ x.toNat = n % 2 ^ 24 := by
  rw [show 0xFFFFFF#24 = BitVec.allOnes 24 from rfl, BitVec.and_allOnes, ← BitVec.toNat_inj,
    BitVec.toNat_ofNat]

/-- The mask of FMT.WRITE asks that the immediate has no bit above its value. -/
theorem imm_and_high_eq_zero_iff (x : Imm) : x &&& 0xFF0000#24 = 0#24 ↔ x.toNat / 2 ^ 16 = 0 := by
  have hshift : x &&& 0xFF0000#24 = x >>> 16 <<< 16 := by
    ext k hk; interval_cases k <;> simp
  rw [hshift, ← BitVec.toNat_inj]
  simp only [BitVec.toNat_shiftLeft, BitVec.toNat_ushiftRight, Nat.shiftRight_eq_div_pow,
    Nat.shiftLeft_eq, BitVec.toNat_ofNat]
  omega

/-- The columns `mask` and `match` of R62, read in the fields of R60. -/
theorem rowMatch_iff_fieldsMatch (r : Row) (w : Word) :
    w &&& rowMask r = rowValue r ↔
      r.fieldsMatch (wordGroup w).toNat (wordSub w).toNat (wordImm w).toNat := by
  rw [word_and_eq_iff]
  cases r <;>
    simp [rowMask, rowValue, Row.fieldsMatch, wordGroup_ofNat, wordSub_ofNat, wordImm_ofNat,
      nibble_and_ones_eq_iff, imm_and_ones_eq_iff, imm_and_high_eq_zero_iff]

/-- The row that a group and a sub-code name. -/
def Row.ofFields (grp sub : Nat) : Row :=
  if grp = 1 then .setp else if grp = 2 then .getp
  else if grp = 3 then (if sub = 0 then .fmtOpen else .fmtWrite)
  else if grp = 4 then .bpRun else if grp = 5 then .cqRun
  else if sub = 0 then .arHdr else .arRun

/-- R62: the fields of a word that matches a row name that row. -/
theorem ofFields_of_mask {r : Row} {w : Word} (h : w &&& rowMask r = rowValue r) :
    Row.ofFields (wordGroup w).toNat (wordSub w).toNat = r := by
  have hg := wordGroup_of_mask h
  have hs := wordSub_of_mask h
  cases r with
  | setp | getp => rw [hg]; rfl
  | _ => rw [hg, hs (by simp) (by simp)]; rfl

/-- Settles O3: both rows are the one that the word's fields name. -/
theorem opcodeRowsDisjoint : Obligations.OpcodeRowsDisjoint := fun _ _ _ h h' =>
  (ofFields_of_mask h).symm.trans (ofFields_of_mask h')

/-! ### Decoding (R64) -/

/-- A word decodes to the command of the one row that takes it. -/
theorem decode_eq_ok_iff {w : Word} {i : Instr} :
    decode w = .ok i ↔ ∃ r, rowAccepts r w = true ∧ rowInstr r w = i := by
  rcases decode_cases w with ⟨r, hfind, hdec⟩ | ⟨hfind, hdec⟩
  · have hr := List.find?_some hfind
    rw [hdec]
    constructor
    · intro h; exact ⟨r, hr, Except.ok.inj h⟩
    · rintro ⟨r', hr', rfl⟩
      rw [opcodeRowsDisjoint w r r' (rowAccepts_iff.mp hr).1 (rowAccepts_iff.mp hr').1]
  · have hnone : ∀ r, rowAccepts r w ≠ true := fun r =>
      List.find?_eq_none.mp hfind r (by cases r <;> simp [rowTable])
    simp [hdec, hnone]

/-- The word of a command matches the command's row. -/
theorem encode_mask (i : Instr) : encode i &&& rowMask (rowOf i) = rowValue (rowOf i) := by
  cases i with
  | setp p imm => exact encode_setp_mask p imm
  | getp p => exact encode_getp_mask p
  | fmtWrite v => exact encode_fmtWrite_mask v
  | _ => rfl

/-- The row of a command reads the command back from its word, operands included. -/
theorem rowInstr_encode (i : Instr) : rowInstr (rowOf i) (encode i) = i := by
  cases i <;> simp [rowOf, rowInstr]

/-- Settles O1: the word is taken by the command's row, which reads the command back. -/
theorem decodeOfEncode : Obligations.DecodeOfEncode := fun i hwf =>
  decode_eq_ok_iff.mpr
    ⟨rowOf i, rowAccepts_iff.mpr ⟨encode_mask i, by rwa [rowInstr_encode]⟩, rowInstr_encode i⟩

/-- A word that matches a row is the word of the command the row reads from it: the bits under the
mask are the row's, the others are operands. -/
theorem encode_rowInstr {r : Row} {w : Word} (h : w &&& rowMask r = rowValue r) :
    encode (rowInstr r w) = w := by
  cases r with
  | setp =>
    change rowValue .setp ||| (wordSub w).setWidth 32 <<< 24 ||| (wordImm w).setWidth 32 = w
    rw [← h]
    ext k hk; interval_cases k <;> simp [rowMask, wordSub, wordImm]
  | getp =>
    change rowValue .getp ||| (wordSub w).setWidth 32 <<< 24 = w
    rw [← h]
    ext k hk; interval_cases k <;> simp [rowMask, wordSub]
  | fmtWrite =>
    change rowValue .fmtWrite ||| (wordVal w).setWidth 32 = w
    rw [← h]
    ext k hk; interval_cases k <;> simp [rowMask, wordVal]
  | _ => exact h.symm.trans BitVec.and_allOnes

/-- Settles O2: the row that takes the word fixes its other bits (`encode_rowInstr`). -/
theorem encodeOfDecode : Obligations.EncodeOfDecode := by
  intro w i h
  obtain ⟨r, hr, rfl⟩ := decode_eq_ok_iff.mp h
  obtain ⟨hmask, hwf⟩ := rowAccepts_iff.mp hr
  exact ⟨encode_rowInstr hmask, hwf⟩

/-! ### The illegal words (R65) -/

/-- The condition of R62 on the register index of a row of format P. -/
def Row.indexLegal (sub : Nat) : Row → Prop
  | .setp => sub ≤ 11
  | .getp => sub ≤ 14
  | _ => True

theorem rowInstr_wellFormed_iff (r : Row) (w : Word) :
    (rowInstr r w).wellFormed = true ↔ r.indexLegal (wordSub w).toNat := by
  cases r <;> simp [rowInstr, Instr.wellFormed, Row.indexLegal]

/-- A word decodes when its fields, as numbers, meet the match and the condition of a row. -/
theorem decodes_iff_fields (w : Word) :
    (∃ i, decode w = .ok i) ↔
      ∃ r : Row, r.fieldsMatch (w.toNat / 2 ^ 28) (w.toNat / 2 ^ 24 % 16) (w.toNat % 2 ^ 24) ∧
        r.indexLegal (w.toNat / 2 ^ 24 % 16) := by
  simp only [decode_eq_ok_iff, rowAccepts_iff, rowMatch_iff_fieldsMatch, rowInstr_wellFormed_iff,
    wordGroup_toNat, wordSub_toNat, wordImm_toNat]
  exact ⟨fun ⟨_, r, hr, _⟩ => ⟨r, hr⟩, fun ⟨r, hr⟩ => ⟨_, r, hr, rfl⟩⟩

/-- R65's list, of a word's fields as numbers. -/
def ListedIllegal (grp sub imm : Nat) : Prop :=
  grp = 0 ∨ 7 ≤ grp ∨ (grp = 1 ∧ 12 ≤ sub) ∨ (grp = 2 ∧ (sub = 15 ∨ imm ≠ 0)) ∨
    (grp = 3 ∧ (2 ≤ sub ∨ (sub = 0 ∧ imm ≠ 0) ∨ (sub = 1 ∧ imm / 2 ^ 16 ≠ 0))) ∨
    ((grp = 4 ∨ grp = 5) ∧ (sub ≠ 0 ∨ imm ≠ 0)) ∨ (grp = 6 ∧ (2 ≤ sub ∨ imm ≠ 0))

/-- The list is the complement of the eight rows, group by group. -/
theorem no_row_iff_listedIllegal {grp sub : Nat} (imm : Nat) (hsub : sub < 16) :
    (¬ ∃ r : Row, r.fieldsMatch grp sub imm ∧ r.indexLegal sub) ↔ ListedIllegal grp sub imm := by
  constructor
  · intro hnone
    have hrow (r : Row) : ¬ (r.fieldsMatch grp sub imm ∧ r.indexLegal sub) := not_exists.mp hnone r
    have hgrp : grp = 0 ∨ grp = 1 ∨ grp = 2 ∨ grp = 3 ∨ grp = 4 ∨ grp = 5 ∨ grp = 6 ∨ 7 ≤ grp := by
      omega
    unfold ListedIllegal
    rcases hgrp with rfl | rfl | rfl | rfl | rfl | rfl | rfl | hgrp
    · exact .inl rfl
    · have hrow := hrow .setp
      simp only [Row.fieldsMatch, Row.indexLegal, true_and] at hrow; omega
    · have hrow := hrow .getp
      simp only [Row.fieldsMatch, Row.indexLegal, true_and] at hrow; omega
    · have hopen := hrow .fmtOpen; have hwrite := hrow .fmtWrite
      simp only [Row.fieldsMatch, Row.indexLegal, true_and, and_true] at hopen hwrite; omega
    · have hrow := hrow .bpRun
      simp only [Row.fieldsMatch, Row.indexLegal, true_and, and_true] at hrow; omega
    · have hrow := hrow .cqRun
      simp only [Row.fieldsMatch, Row.indexLegal, true_and, and_true] at hrow; omega
    · have hhdr := hrow .arHdr; have hrun := hrow .arRun
      simp only [Row.fieldsMatch, Row.indexLegal, true_and, and_true] at hhdr hrun; omega
    · exact .inr (.inl hgrp)
  · rintro hlist ⟨r, hmatch, hindex⟩
    unfold ListedIllegal at hlist
    cases r <;> simp only [Row.fieldsMatch, Row.indexLegal] at hmatch hindex <;> omega

/-- Settles O4: the rows, read in the fields, leave exactly R65's list. -/
theorem illegalWordsAreTheListed : Obligations.IllegalWordsAreTheListed := fun w =>
  (not_congr (decodes_iff_fields w)).trans
    (no_row_iff_listedIllegal _ (Nat.mod_lt _ (by decide)))

/-- Settles O5: each word is the word of its command. -/
theorem writtenOutWordsDecode : Obligations.WrittenOutWordsDecode :=
  ⟨decodeOfEncode (.setp 0 10) rfl, decodeOfEncode (.setp 4 16777215) rfl,
    decodeOfEncode (.getp 10) rfl, decodeOfEncode .fmtOpen rfl, decodeOfEncode (.fmtWrite 31) rfl,
    decodeOfEncode .bpRun rfl, decodeOfEncode .cqRun rfl, decodeOfEncode .arHdr rfl,
    decodeOfEncode .arRun rfl⟩

end Sys2Proof
end

section
/-! SUPPORT. The assembler of R66 on lines whose operands are a register name and a number: the words
of the line, the value of each operand, and the word of the command they spell. -/

namespace Sys2Proof.Machine

/-! ### Command words as sums of their fields (R60) -/

theorem encode_setp_toNat (p : RegIndex) (imm : Imm) :
    (encode (.setp p imm)).toNat = 0x10000000 + p.toNat * 2 ^ 24 + imm.toNat := by
  have hgrp : (wordGroup _).toNat = 1 :=
    (rowMatch_iff_fieldsMatch .setp _).mp (encode_setp_mask p imm)
  rw [word_toNat_eq_sum, hgrp, wordSub_encode_setp, wordImm_encode_setp]
  omega

theorem encode_getp_toNat (p : RegIndex) :
    (encode (.getp p)).toNat = 0x20000000 + p.toNat * 2 ^ 24 := by
  obtain ⟨hgrp, himm⟩ := (rowMatch_iff_fieldsMatch .getp _).mp (encode_getp_mask p)
  rw [word_toNat_eq_sum, hgrp, himm, wordSub_encode_getp]
  omega

theorem encode_fmtWrite_toNat (v : Half) : (encode (.fmtWrite v)).toNat = 0x31000000 + v.toNat := by
  obtain ⟨hgrp, hsub, himm⟩ := (rowMatch_iff_fieldsMatch .fmtWrite _).mp (encode_fmtWrite_mask v)
  have hval := wordVal_toNat (encode (.fmtWrite v))
  rw [wordVal_encode_fmtWrite] at hval
  rw [wordImm_toNat] at himm
  rw [word_toNat_eq_sum, hgrp, hsub, wordImm_toNat]
  omega

theorem word_eq_ofNat {w : Word} {n : Nat} (h : w.toNat = n) : w = BitVec.ofNat 32 n := by
  rw [← h, BitVec.ofNat_toNat, BitVec.setWidth_eq]

theorem encode_setp_ofNat (p : RegIndex) {n : Nat} (h : n < 2 ^ 24) :
    encode (.setp p (BitVec.ofNat 24 n)) = BitVec.ofNat 32 (0x10000000 + p.toNat * 2 ^ 24 + n) :=
  word_eq_ofNat (by rw [encode_setp_toNat, BitVec.toNat_ofNat, Nat.mod_eq_of_lt h])

theorem encode_getp_ofNat (p : RegIndex) :
    encode (.getp p) = BitVec.ofNat 32 (0x20000000 + p.toNat * 2 ^ 24) :=
  word_eq_ofNat (encode_getp_toNat p)

theorem encode_fmtWrite_ofNat {n : Nat} (h : n < 2 ^ 16) :
    encode (.fmtWrite (BitVec.ofNat 16 n)) = BitVec.ofNat 32 (0x31000000 + n) :=
  word_eq_ofNat (by rw [encode_fmtWrite_toNat, BitVec.toNat_ofNat, Nat.mod_eq_of_lt h])

/-! ### Operands -/

theorem asmReg_of_lookup {t : List Char} {p : RegIndex} (h : asmRegisters.lookup t = some p)
    (top : Nat) : asmReg top t = if p.toNat ≤ top then .ok p else .error .register := by
  simp only [asmReg, h]

theorem asmNum_of_number {t : List Char} {n : Nat} (h : asmNumber t = some n) (bits : Nat) :
    asmNum bits t = if n < 2 ^ bits then .ok n else .error .range := by
  simp only [asmNum, h]

/-- SETP refuses the register before the number. -/
theorem asmInstr_setp {reg num : List Char} {p : RegIndex} {n : Nat}
    (hreg : asmRegisters.lookup reg = some p) (hnum : asmNumber num = some n) :
    asmInstr .setp [reg, [','], num] =
      if 11 < p.toNat then .error .register
      else if n < 2 ^ 24 then .ok (.setp p (BitVec.ofNat 24 n)) else .error .range := by
  simp only [asmInstr, asmReg_of_lookup hreg, asmNum_of_number hnum]
  by_cases hp : p.toNat ≤ 11
  · rw [if_pos hp, if_neg (Nat.not_lt.mpr hp)]
    split <;> rfl
  · rw [if_neg hp, if_pos (Nat.not_le.mp hp)]
    rfl

/-- GETP reaches every register (R12, R14). -/
theorem asmInstr_getp {reg : List Char} {p : RegIndex} (hreg : asmRegisters.lookup reg = some p) :
    asmInstr .getp [reg] = .ok (.getp p) := by
  obtain ⟨-, -, hp⟩ := asmRegisters_word hreg
  simp only [asmInstr, asmReg_of_lookup hreg, if_pos hp]
  rfl

theorem asmInstr_fmtWrite {num : List Char} {n : Nat} (hnum : asmNumber num = some n) :
    asmInstr .fmtWrite [num] =
      if n < 2 ^ 16 then .ok (.fmtWrite (BitVec.ofNat 16 n)) else .error .range := by
  simp only [asmInstr, asmNum_of_number hnum]
  split <;> rfl

/-- Settles O6: the sums are over the fields of R60 (`word_toNat_eq_sum`). -/
theorem assemblerWords : Obligations.AssemblerWords :=
  ⟨fun p imm _ => encode_setp_toNat p imm, fun p _ => encode_getp_toNat p, encode_fmtWrite_toNat,
    fun _ _ _ _ => asmInstr_setp⟩

/-! ### Lines -/

/-- The rest of a line after its last operand: nothing, or a comment (R66). -/
def LineEnd (e : List Char) : Prop := e = [] ∨ ∃ text, e = ';' :: text

/-- The last word of a line. -/
theorem asmWords_last {l e : List Char} (hne : l ≠ []) (hl : ∀ c ∈ l, asmPlain c)
    (he : LineEnd e) : asmWords [] (l ++ e) = [l] := by
  rw [asmWords_plain hl, List.nil_append, asmWords_end he, asmWord_ne_nil hne]

/-- A word and the blank after it. -/
theorem asmWords_word_space {l : List Char} (hne : l ≠ []) (hl : ∀ c ∈ l, asmPlain c)
    (rest : List Char) : asmWords [] (l ++ ' ' :: rest) = l :: asmWords [] rest := by
  rw [asmWords_plain hl, List.nil_append, asmWords_space, asmWord_ne_nil hne]; rfl

/-- A word and the comma after it. -/
theorem asmWords_word_comma {l : List Char} (hne : l ≠ []) (hl : ∀ c ∈ l, asmPlain c)
    (rest : List Char) : asmWords [] (l ++ ',' :: rest) = l :: [','] :: asmWords [] rest := by
  rw [asmWords_plain hl, List.nil_append, asmWords_comma, asmWord_ne_nil hne]; rfl

/-- A mnemonic is one word. -/
theorem asmMnemonics_word {m : List Char} {r : Row} (h : asmMnemonics.lookup m = some r) :
    m ≠ [] ∧ ∀ c ∈ m, asmPlain c := by
  have key : ∀ e ∈ asmMnemonics, e.1 ≠ [] ∧ ∀ c ∈ e.1, asmPlain c := by
    simp [asmMnemonics, asmPlain]
  obtain ⟨l, k, he, -⟩ := List.lookup_eq_some_iff.mp h
  exact key (m, r) (by simp [he])

/-- A line is its mnemonic's command on the words after it. -/
theorem assembleLine_operands {m : List Char} {r : Row} (h : asmMnemonics.lookup m = some r)
    (rest : List Char) :
    assembleLine (m ++ ' ' :: rest) =
      (asmInstr r (asmWords [] rest)).map fun i => some (encode i) := by
  obtain ⟨hne, hplain⟩ := asmMnemonics_word h
  simp only [assembleLine, asmWords_word_space hne hplain, h]

theorem assembleLine_no_operands {m e : List Char} {r : Row} (h : asmMnemonics.lookup m = some r)
    (he : LineEnd e) :
    assembleLine (m ++ e) = (asmInstr r []).map fun i => some (encode i) := by
  obtain ⟨hne, hplain⟩ := asmMnemonics_word h
  simp only [assembleLine, asmWords_last hne hplain he, h]

theorem assembleLine_end {e : List Char} (he : LineEnd e) : assembleLine e = .ok none := by
  simp only [assembleLine, asmWords_end he, asmWord_nil]

theorem assembleLine_setp {reg num e : List Char} {p : RegIndex} {n : Nat}
    (hreg : asmRegisters.lookup reg = some p) (hnum : asmNumber num = some n) (he : LineEnd e) :
    assembleLine (['S', 'E', 'T', 'P', ' '] ++ reg ++ [',', ' '] ++ num ++ e) =
      if 11 < p.toNat then .error .register
      else if n < 2 ^ 24 then .ok (some (BitVec.ofNat 32 (0x10000000 + p.toNat * 2 ^ 24 + n)))
      else .error .range := by
  obtain ⟨hregne, hregplain, -⟩ := asmRegisters_word hreg
  obtain ⟨hnumne, hnumplain⟩ := asmNumber_word hnum
  have hwords : asmWords [] (reg ++ ',' :: ' ' :: (num ++ e)) = [reg, [','], num] := by
    rw [asmWords_word_comma hregne hregplain, asmWords_space, asmWord_nil, List.nil_append,
      asmWords_last hnumne hnumplain he]
  calc assembleLine (['S', 'E', 'T', 'P', ' '] ++ reg ++ [',', ' '] ++ num ++ e)
      = assembleLine (['S', 'E', 'T', 'P'] ++ ' ' :: (reg ++ ',' :: ' ' :: (num ++ e))) := by simp
    _ = (asmInstr .setp [reg, [','], num]).map fun i => some (encode i) := by
      rw [assembleLine_operands (r := .setp) rfl, hwords]
    _ = _ := by
      rw [asmInstr_setp hreg hnum]
      split
      · rfl
      · split
        · rename_i hn; rw [← encode_setp_ofNat p hn]; rfl
        · rfl

theorem assembleLine_getp {reg e : List Char} {p : RegIndex}
    (hreg : asmRegisters.lookup reg = some p) (he : LineEnd e) :
    assembleLine (['G', 'E', 'T', 'P', ' '] ++ reg ++ e) =
      .ok (some (BitVec.ofNat 32 (0x20000000 + p.toNat * 2 ^ 24))) := by
  obtain ⟨hne, hplain, -⟩ := asmRegisters_word hreg
  calc assembleLine (['G', 'E', 'T', 'P', ' '] ++ reg ++ e)
      = assembleLine (['G', 'E', 'T', 'P'] ++ ' ' :: (reg ++ e)) := by simp
    _ = (asmInstr .getp [reg]).map fun i => some (encode i) := by
      rw [assembleLine_operands (r := .getp) rfl, asmWords_last hne hplain he]
    _ = _ := by rw [asmInstr_getp hreg, ← encode_getp_ofNat]; rfl

theorem assembleLine_fmtWrite {num e : List Char} {n : Nat} (hnum : asmNumber num = some n)
    (he : LineEnd e) :
    assembleLine (['F', 'M', 'T', '.', 'W', 'R', 'I', 'T', 'E', ' '] ++ num ++ e) =
      if n < 2 ^ 16 then .ok (some (BitVec.ofNat 32 (0x31000000 + n))) else .error .range := by
  obtain ⟨hne, hplain⟩ := asmNumber_word hnum
  calc assembleLine (['F', 'M', 'T', '.', 'W', 'R', 'I', 'T', 'E', ' '] ++ num ++ e)
      = assembleLine (['F', 'M', 'T', '.', 'W', 'R', 'I', 'T', 'E'] ++ ' ' :: (num ++ e)) := by simp
    _ = (asmInstr .fmtWrite [num]).map fun i => some (encode i) := by
      rw [assembleLine_operands (r := .fmtWrite) rfl, asmWords_last hne hplain he]
    _ = _ := by
      rw [asmInstr_fmtWrite hnum]
      split
      · rename_i hn; rw [← encode_fmtWrite_ofNat hn]; rfl
      · rfl

/-! ### Numbers -/

theorem asmDigits_append (base : Nat) (l m : List Char) (acc : Nat) :
    asmDigits base acc (l ++ m) = (asmDigits base acc l).bind fun a => asmDigits base a m := by
  induction l generalizing acc with
  | nil => rfl
  | cons c l ih =>
    simp only [List.cons_append, asmDigits]
    cases asmDigit c with
    | none => rfl
    | some d =>
      by_cases hd : d < base
      · simp only [if_pos hd, ih]
      · simp only [if_neg hd, Option.bind_none]

/-- The digits that the library writes are read back. -/
theorem asmDigit_digitChar {d : Nat} (h : d < 16) : asmDigit (Nat.digitChar d) = some d := by
  interval_cases d <;> rfl

theorem asmDigits_digitChar {base d : Nat} (hd : d < base) (hb : base ≤ 16) (acc : Nat) :
    asmDigits base acc [Nat.digitChar d] = some (base * acc + d) := by
  simp only [asmDigits, asmDigit_digitChar (Nat.lt_of_lt_of_le hd hb), if_pos hd]

/-- By induction on the number, whose last digit is its remainder. -/
theorem asmDigits_toDigits {base : Nat} (h1 : 1 < base) (hb : base ≤ 16) (k : Nat) :
    asmDigits base 0 (Nat.toDigits base k) = some k := by
  induction k using Nat.strong_induction_on with
  | _ k ih =>
    by_cases hk : k < base
    · rw [Nat.toDigits_of_lt_base hk, asmDigits_digitChar hk hb]; simp
    · have hle : base ≤ k := Nat.not_lt.mp hk
      have hlt : k / base < k := Nat.div_lt_self (by omega) h1
      rw [Nat.toDigits_of_base_le h1 hle, asmDigits_append, ih _ hlt, Option.bind_some,
        asmDigits_digitChar (Nat.mod_lt _ (by omega)) hb, Nat.div_add_mod]

/-- Decimal digits are not taken for hexadecimal ones after `0x`, as `x` is no digit. -/
theorem asmNumber_decimal {l : List Char} {n : Nat} (hne : l ≠ [])
    (h : asmDigits 10 0 l = some n) : asmNumber l = some n := by
  unfold asmNumber
  split
  · simp [asmDigits, asmDigit] at h
  · exact h
  · exact absurd rfl hne

theorem asmNumber_hex {l : List Char} (hne : l ≠ []) :
    asmNumber ('0' :: 'x' :: l) = asmDigits 16 0 l := by
  obtain ⟨c, cs, rfl⟩ := List.exists_cons_of_ne_nil hne
  rfl

/-- Settles O59, line by line; the numbers by `asmDigits_toDigits`. -/
theorem assemblerLines : Obligations.AssemblerLines := by
  intro reg num comment p n hreg hnum he
  refine ⟨assembleLine_setp hreg hnum he, assembleLine_getp hreg he, assembleLine_fmtWrite hnum he,
    assembleLine_no_operands (r := .fmtOpen) rfl he, assembleLine_no_operands (r := .bpRun) rfl he,
    assembleLine_no_operands (r := .cqRun) rfl he, assembleLine_no_operands (r := .arHdr) rfl he,
    assembleLine_no_operands (r := .arRun) rfl he, assembleLine_end he, fun k => ⟨?_, ?_⟩⟩
  · exact asmNumber_decimal Nat.toDigits_ne_nil (asmDigits_toDigits (by decide) (by decide) k)
  · rw [asmNumber_hex Nat.toDigits_ne_nil]
    exact asmDigits_toDigits (by decide) (by decide) k

end Sys2Proof.Machine
end

section
/-! SUPPORT. The register file as SETP and GETP see it: which register an index names, which values
are legal, what a read answers, and what a read answers after a write. -/

namespace Sys2Proof.Machine

/-! ### Register indices (R12, R14) -/

@[simp] theorem paramOfIndex_paramIndex (r : ParamReg) : paramOfIndex (paramIndex r) = some r := by
  cases r <;> rfl

theorem paramOfIndex_eq_some_iff {p : RegIndex} {r : ParamReg} :
    paramOfIndex p = some r ↔ p = paramIndex r := by
  refine ⟨fun h => ?_, fun h => h ▸ paramOfIndex_paramIndex r⟩
  unfold paramOfIndex at h
  split at h <;> cases h <;> exact BitVec.eq_of_toNat_eq ‹_›

theorem of_paramOfIndex_eq_none :
    ∀ {p : RegIndex}, paramOfIndex p = none → p = 12 ∨ p = 13 ∨ p = 14 ∨ p = 15 := by
  decide

/-- An index is that of a parameter register, of AUD_OUTBITS, STATUS or CAUSE, or 15. -/
theorem regIndex_cases (p : RegIndex) :
    (∃ r, p = paramIndex r) ∨ p = 12 ∨ p = 13 ∨ p = 14 ∨ p = 15 := by
  cases h : paramOfIndex p with
  | some r => exact .inl ⟨r, paramOfIndex_eq_some_iff.mp h⟩
  | none => exact .inr (of_paramOfIndex_eq_none h)

theorem exists_paramIndex_eq {p : RegIndex} (h : p.toNat ≤ 11) : ∃ r, p = paramIndex r := by
  rcases regIndex_cases p with hr | rfl | rfl | rfl | rfl
  · exact hr
  all_goals exact absurd h (by decide)

theorem exists_paramIndex_toNat_eq {q : Nat} (h : q ≤ 11) : ∃ r, q = (paramIndex r).toNat := by
  have hq : (BitVec.ofNat 4 q).toNat = q := by
    rw [BitVec.toNat_ofNat, Nat.mod_eq_of_lt (by omega)]
  obtain ⟨r, hr⟩ := exists_paramIndex_eq (p := BitVec.ofNat 4 q) (hq.trans_le h)
  exact ⟨r, by rw [← hr, hq]⟩

/-! ### Writes of parameter registers (R80) -/

/-- R12's column of legal values is what SETP's checks let pass. -/
theorem setpLegal_iff_cfgLegal (r : ParamReg) (imm : Imm) :
    SetpLegal (paramIndex r).toNat imm.toNat ↔ cfgLegal r imm = true := by
  have himm : imm.toNat < 16777216 := imm.isLt
  rw [cfgLegal_iff]
  cases r <;> simp [SetpLegal, paramIndex, paramWidth, cfgValueLegal] <;> omega

@[simp] theorem getpNat_advance (s : State) (q : Nat) : getpNat s.advance q = getpNat s q := rfl

/-- A read of a parameter register after a write of the same or of another one. -/
theorem getpNat_writeParam (s : State) (r r' : ParamReg) (v : Word) :
    getpNat (s.setParams (writeParam s.p r v)) (paramIndex r').toNat =
      if r' = r then some (v.setWidth (paramWidth r)).toNat
      else getpNat s (paramIndex r').toNat := by
  cases r <;> cases r' <;> rfl

theorem getpNat_writeParam_same {s : State} {r : ParamReg} {imm : Imm}
    (hl : cfgLegal r imm = true) :
    getpNat (s.setParams (writeParam s.p r (imm.setWidth 32))) (paramIndex r).toNat =
      some imm.toNat := by
  obtain ⟨hwidth, -⟩ := cfgLegal_iff.mp hl
  rw [getpNat_writeParam, if_pos rfl, setWidth_imm_toNat hwidth]

theorem getpNat_writeParam_of_ne {s : State} {r : ParamReg} {q : Nat} (v : Word) (hq : q ≤ 11)
    (hne : q ≠ (paramIndex r).toNat) :
    getpNat (s.setParams (writeParam s.p r v)) q = getpNat s q := by
  obtain ⟨r', rfl⟩ := exists_paramIndex_toNat_eq hq
  rw [getpNat_writeParam, if_neg fun h : r' = r => hne (h ▸ rfl)]

theorem exec_setp_of_legal (s : State) {r : ParamReg} {imm : Imm} (hl : cfgLegal r imm = true) :
    exec (.setp (paramIndex r) imm) s =
      .next (s.setParams (writeParam s.p r (imm.setWidth 32))).advance := by
  have ht : setpTarget (paramIndex r) imm s = .ok r := by simp [setpTarget, hl]
  simp [exec, execSetp, ht]

/-- Settles O25: the effect of a legal SETP, read back register by register. -/
theorem setpWritesLegalValue : Obligations.SetpWritesLegalValue := by
  intro s p imm hlegal
  have ⟨⟨hp, _⟩, _⟩ := hlegal
  obtain ⟨r, rfl⟩ := exists_paramIndex_eq hp
  have hl := (setpLegal_iff_cfgLegal r imm).mp hlegal
  refine ⟨_, exec_setp_of_legal s hl, ?_, fun q hq hne => ?_, rfl, ?_⟩
  · rw [getpNat_advance, getpNat_writeParam_same hl]
  · rw [getpNat_advance, getpNat_writeParam_of_ne _ hq hne]
  · exact InputsKept.sameMemories ⟨rfl, rfl, rfl, rfl⟩

/-! ### Reads of the registers (R81) -/

/-- A parameter register's value, zero-extended, or the fault of reading it unwritten. -/
theorem needReg_widened {w : Nat} (r : ParamReg) (x : Option (BitVec w)) :
    (needReg r x).map (BitVec.setWidth 32) =
      (x.map BitVec.toNat).elim (.error (unconfigured r)) fun v => .ok (BitVec.ofNat 32 v) := by
  cases x with
  | none => rfl
  | some b => exact congrArg Except.ok (BitVec.ofNat_toNat ..).symm

theorem needReg_word (r : ParamReg) (x : Option Word) :
    needReg r x =
      (x.map BitVec.toNat).elim (.error (unconfigured r)) fun v => .ok (BitVec.ofNat 32 v) := by
  rw [← needReg_widened]
  cases x with
  | none => rfl
  | some b => exact congrArg Except.ok (BitVec.setWidth_eq b).symm

theorem rdIndex_paramIndex (s : State) (r : ParamReg) :
    rdIndex s (paramIndex r) =
      (getpNat s (paramIndex r).toNat).elim (.error (unconfigured r))
        fun v => .ok (BitVec.ofNat 32 v) := by
  rw [rdIndex, paramOfIndex_paramIndex]
  cases r with
  | fmtTotal | audNsamp | audDataoff | audRate => exact needReg_word _ _
  | _ => exact needReg_widened _ _

/-- R14's condition for 10 bits of output, on words and on their numbers. -/
theorem outbits_toNat (b : Half) (m : BitVec 4) :
    (if b = 16 ∧ m = 10 then (10 : BitVec 4) else 8).setWidth 32 =
      BitVec.ofNat 32 (if b.toNat = 16 ∧ m.toNat = 10 then 10 else 8) := by
  have hb : b = 16 ↔ b.toNat = 16 := BitVec.toNat_eq
  have hm : m = 10 ↔ m.toNat = 10 := BitVec.toNat_eq
  simp only [hb, hm]
  split <;> rfl

theorem rdIndex_audOutbits (s : State) :
    rdIndex s 12 = (rdAudOutbits s).map (BitVec.setWidth 32) := rfl

theorem getpNat_outbits_eq_some {s : State} {v : Nat} (h : getpNat s 12 = some v) :
    ∃ b m, s.p.audBits = some b ∧ s.p.audMode = some m ∧
      v = if b.toNat = 16 ∧ m.toNat = 10 then 10 else 8 := by
  simp only [getpNat] at h
  split at h
  next b m hb hm => exact ⟨b, m, hb, hm, (Option.some.inj h).symm⟩
  next => cases h

theorem rdIndex_outbits {s : State} {v : Nat} (h : getpNat s 12 = some v) :
    rdIndex s 12 = .ok (BitVec.ofNat 32 v) := by
  obtain ⟨b, m, hb, hm, rfl⟩ := getpNat_outbits_eq_some h
  simp only [rdIndex_audOutbits, rdAudOutbits, rdAudBits, rdAudMode, hb, hm, needReg_some,
    except_ok_bind, except_pure, ← outbits_toNat]
  rfl

theorem rdIndex_outbits_unwritten {s : State} (h : s.p.audBits = none) :
    rdIndex s 12 = .error (unconfigured .audBits) := by
  simp only [rdIndex_audOutbits, rdAudOutbits, rdAudBits, h, needReg_none, except_error_bind]
  rfl

/-- STATUS as the number R15 composes it to. -/
theorem status_widened (s : State) :
    s.status.setWidth 32 =
      BitVec.ofNat 32 (s.fault.toNat + 2 * s.fmtOpen.toNat + 4 * s.cqUsed.toNat) := by
  unfold State.status
  generalize s.fault = fault
  generalize s.fmtOpen = fmtOpen
  generalize s.cqUsed = cqUsed
  revert fault fmtOpen cqUsed
  decide

/-- A readable index answers its value, zero-extended. -/
theorem rdIndex_of_getpNat {s : State} {p : RegIndex} {v : Nat} (h : getpNat s p.toNat = some v) :
    rdIndex s p = .ok (BitVec.ofNat 32 v) := by
  rcases regIndex_cases p with ⟨r, rfl⟩ | rfl | rfl | rfl | rfl
  · rw [rdIndex_paramIndex, h, Option.elim_some]
  · exact rdIndex_outbits h
  · cases h
    exact congrArg Except.ok (status_widened s)
  · cases h
    exact congrArg Except.ok (BitVec.ofNat_toNat ..).symm
  · cases h

theorem lt_of_map_toNat_eq_some {w v : Nat} {x : Option (BitVec w)} (hw : w ≤ 32)
    (h : x.map BitVec.toNat = some v) : v < 2 ^ 32 := by
  obtain ⟨b, -, rfl⟩ := Option.map_eq_some_iff.mp h
  exact b.isLt.trans_le (Nat.pow_le_pow_right (by decide) hw)

/-- What GETP can answer fits a response. -/
theorem getpNat_lt {s : State} {p : RegIndex} {v : Nat} (h : getpNat s p.toNat = some v) :
    v < 2 ^ 32 := by
  rcases regIndex_cases p with ⟨r, rfl⟩ | rfl | rfl | rfl | rfl
  · cases r <;> exact lt_of_map_toNat_eq_some (by decide) h
  · obtain ⟨b, m, -, -, rfl⟩ := getpNat_outbits_eq_some h
    split <;> decide
  · cases h
    have hfault := s.fault.toNat_le
    have hopen := s.fmtOpen.toNat_le
    have hused := s.cqUsed.toNat_le
    omega
  · cases h
    exact s.cause.isLt.trans (by decide)
  · cases h

theorem exec_getp_of_ok {s : State} {p : RegIndex} {w : Word} (h : rdIndex s p = .ok w) :
    exec (.getp p) s = .next (s.respond w).advance := by
  simp [exec, execGetp, h]

theorem exec_getp_of_error {s : State} {p : RegIndex} {e : Exc} (h : rdIndex s p = .error e) :
    exec (.getp p) s = .next (s.takeFault e) := by
  simp [exec, execGetp, h]

/-- Settles O27, from the value a read answers (`rdIndex_of_getpNat`). -/
theorem getpAppendsValue : Obligations.GetpAppendsValue := by
  intro s p v h
  exact ⟨_, exec_getp_of_ok (rdIndex_of_getpNat h), rfl, getpNat_lt h,
    InputsKept.sameMemories ⟨rfl, rfl, rfl, rfl⟩⟩

/-! ### Reads of an unwritten register (R183) -/

/-- Fault entry is the whole change of a fault raised before anything is written (R192). -/
theorem faultedOnly_takeFault (s : State) {e : Exc} {info : Nat}
    (h : e.info = BitVec.ofNat 32 info) : FaultedOnly s (s.takeFault e) e.cause info := by
  unfold FaultedOnly
  rw [← h]
  rfl

theorem unconfigured_info (r : ParamReg) :
    (unconfigured r).info = BitVec.ofNat 32 (paramIndex r).toNat :=
  (BitVec.ofNat_toNat 32 (paramIndex r)).symm

/-- GETP of an index whose read finds register `r` unwritten. -/
theorem exec_getp_unconfigured {s : State} {p : RegIndex} {r : ParamReg}
    (h : rdIndex s p = .error (unconfigured r)) :
    ∃ t, exec (.getp p) s = .next t ∧ FaultedOnly s t .unconfigured (paramIndex r).toNat :=
  ⟨_, exec_getp_of_error h, faultedOnly_takeFault s (unconfigured_info r)⟩

/-- Settles O28: a parameter register by its own index, AUD_OUTBITS by that of AUD_BITS. -/
theorem getpFaultsOnUnwritten : Obligations.GetpFaultsOnUnwritten := by
  refine fun s p => ⟨fun hp hnone => ?_, fun hp hbits => ?_⟩
  · obtain ⟨r, rfl⟩ := exists_paramIndex_eq hp
    have hrd : rdIndex s (paramIndex r) = .error (unconfigured r) := by
      rw [rdIndex_paramIndex, hnone, Option.elim_none]
    exact exec_getp_unconfigured hrd
  · obtain rfl : p = 12 := BitVec.eq_of_toNat_eq hp
    exact exec_getp_unconfigured (rdIndex_outbits_unwritten hbits)

end Sys2Proof.Machine
end

section
/-! SUPPORT. FMT.OPEN and FMT.WRITE: what each answers when its checks pass and which fault it takes
when one fails; the text of an array written by HF.open and HF.write, and its length. -/

namespace Sys2Proof.Machine

/-! ### The end of a command, from its result -/

theorem exec_of_done {i : Instr} {s t : State} (h : commandResult i s = .done t) :
    exec i s = .next t.advance := by
  rw [exec_eq_outcome, h, Result.outcome_done]

/-- A fault raised in the state the command began in changes the fault registers and FAULT only
(R192). -/
theorem exec_faultedOnly_of_raised {i : Instr} {s : State} {e : Exc} {info : Nat}
    (h : commandResult i s = .raised e s) (hinfo : e.info = BitVec.ofNat 32 info) :
    ∃ t, exec i s = .next t ∧ FaultedOnly s t e.cause info :=
  ⟨s.takeFault e, by rw [exec_eq_outcome, h, Result.outcome_raised], faultedOnly_takeFault s hinfo⟩

/-! ### The text of an array (R96) -/

/-- The separator before element `k + 1` is two characters, and two more where a line is full. -/
theorem sepText_succ_length (c k : Nat) :
    (sepText c (k + 1)).length + 2 * (k / c) = 2 + 2 * ((k + 1) / c) := by
  have hdvd : c ∣ k + 1 ↔ (k + 1) % c = 0 := Nat.dvd_iff_mod_eq_zero
  rw [Nat.succ_div, sepText, if_neg k.succ_ne_zero]
  by_cases h : (k + 1) % c = 0
  · simp only [if_pos h, if_pos (hdvd.mpr h), List.length_cons, List.length_nil]; omega
  · simp only [if_neg h, if_neg (hdvd.not.mpr h), List.length_cons, List.length_nil]; omega

/-- The text after the first element: four characters and the digits an element, and the line breaks
between element `k` and the last. -/
theorem bodyText_succ_length (c d k : Nat) (vs : List Nat) :
    (bodyText c d (k + 1) vs).length + 2 * (k / c) =
      vs.length * (4 + d) + 2 * ((k + vs.length) / c) := by
  induction vs generalizing k with
  | nil => simp [bodyText]
  | cons v vs ih =>
    have hsep := sepText_succ_length c k
    have hrest := ih (k + 1)
    rw [bodyText, List.length_append, List.length_append, tokText_length, List.length_cons,
      Nat.add_one_mul vs.length, Nat.add_comm vs.length 1, ← Nat.add_assoc k]
    omega

/-- R96: the length of an array's text. -/
theorem arrayText_length {c d : Nat} {vs : List Nat} (h : vs ≠ []) :
    (arrayText c d vs).length =
      vs.length * (2 + d) + 3 + 2 * (vs.length - 1) + 2 * ((vs.length - 1) / c) + 4 := by
  obtain ⟨v, vs, rfl⟩ := List.exists_cons_of_ne_nil h
  have hfirst : (sepText c 0).length = 3 := rfl
  have hclose : closeText.length = 4 := rfl
  have hrest := bodyText_succ_length c d 0 vs
  simp only [Nat.zero_div, Nat.zero_add, Nat.mul_add] at hrest
  simp only [arrayText, bodyText, List.length_append, List.length_cons, tokText_length, hfirst,
    hclose, Nat.add_sub_cancel, Nat.zero_add, Nat.add_one_mul, Nat.mul_add]
  omega

/-- HF.open and then writes of values that fit, no more than declared, never fault (R96, R98). -/
theorem hfWriteAll_open (s : State) {vs : List Half} {t : Word} {c : Half} {d : BitVec 3}
    (ht : t ≠ 0) (hc : c ≠ 0) (hl : vs.length ≤ t.toNat)
    (hv : ∀ v ∈ vs, v.toNat < 16 ^ d.toNat) :
    ∃ u, hfWriteAll vs (hfOpen t c d s) = .done u ∧
      Written s.out t.toNat c.toNat d.toNat (vs.map BitVec.toNat) u := by
  obtain ⟨u, hu, hw, -⟩ := (written_open (d := d) s ht hc).writeAll (us := vs) (by simpa) hv
  exact ⟨u, hu, by simpa using hw⟩

theorem ne_zero_of_toNat_pos {w : Nat} {x : BitVec w} (h : 0 < x.toNat) : x ≠ 0 := by
  rintro rfl
  simp at h

/-- Settles O34: all declared writes leave the array closed (`Written.closed`). -/
theorem wholeArrayGivesClosedForm : Obligations.WholeArrayGivesClosedForm := by
  refine ⟨fun s vs t c d hlen hne hc _ _ hv => ?_, rfl⟩
  have ht : t ≠ 0 := ne_zero_of_toNat_pos (hlen ▸ List.length_pos_iff.mpr hne)
  obtain ⟨u, hu, hw⟩ := hfWriteAll_open s ht hc hlen.ge hv
  obtain ⟨hidle, hflag, hout⟩ := hw.closed (by rw [List.length_map, hlen])
  have htext := arrayText_length (c := c.toNat) (d := d.toNat)
    (List.map_eq_nil_iff.not.mpr hne : vs.map BitVec.toNat ≠ [])
  rw [List.length_map] at htext
  exact ⟨u, hu, hout, hidle, hflag, htext⟩

/-- Settles O35: fewer writes leave it open (`Written.opened`). -/
theorem shortArrayStaysOpen : Obligations.ShortArrayStaysOpen := by
  intro s vs t c d hlt hc _ _ hv
  have ht : t ≠ 0 := ne_zero_of_toNat_pos (Nat.zero_lt_of_lt hlt)
  obtain ⟨u, hu, hw⟩ := hfWriteAll_open s ht hc hlt.le hv
  obtain ⟨⟨hopen, _⟩, hflag, hout⟩ := hw.opened (by rwa [List.length_map])
  exact ⟨u, hu, hout, hopen, hflag⟩

/-- Settles O33, from the digits by position (`hexToken_eq`). -/
theorem hexTokenIsPositional : Obligations.HexTokenIsPositional := by
  refine ⟨fun d v _ _ _ => ⟨hexToken_eq d v, ?_⟩, by decide, by decide, by decide, by decide,
    by decide⟩
  rw [hexToken_eq, tokText_length]

/-! ### FMT.WRITE -/

theorem hfWrite_of_idle {s : State} (v : Half) (h : s.hf.state = .idle) :
    hfWrite v s = .raised fmtStateFault s := by
  simp [hfWrite, h]

theorem hfWrite_of_tooLarge {s : State} {v : Half} (ho : s.hf.state = .opened)
    (hv : 16 ^ s.hf.digits.toNat ≤ v.toNat) : hfWrite v s = .raised (valueRange v) s := by
  simp [hfWrite, ho, hv]

theorem hfWrite_of_fits {s : State} {v : Half} (ho : s.hf.state = .opened)
    (hv : v.toNat < 16 ^ s.hf.digits.toNat) : hfWrite v s = .done (hfWritten v s) := by
  simp [hfWrite, ho, hv]

/-- The text a write appends at element `k` of an array (R93, R96). -/
theorem hfWritten_out_at {s : State} {t c d k : Nat} (H : HfAt s.hf t c d k) (v : Half) :
    (hfWritten v s).out =
      s.out ++ sepText c k ++ tokText d v.toNat ++ (if k + 1 = t then closeText else []) := by
  rw [hfWritten_out, Config.spaceRule, Config.newline, hfChars_at H]
  simp only [List.append_assoc]

/-- The last write closes the array, any other leaves it open (R93). -/
theorem hfWritten_status_at {s : State} {t c d k : Nat} (H : HfAt s.hf t c d k) (v : Half) :
    if k + 1 = t then (hfWritten v s).hf.state = .idle ∧ (hfWritten v s).fmtOpen = false
    else (hfWritten v s).hf.state = .opened ∧ (hfWritten v s).fmtOpen = s.fmtOpen := by
  have hlast := hfIsLast_at H
  obtain ⟨hopen, _⟩ := H
  by_cases h : k + 1 = t <;> simp [hfNext, hlast, h, hopen]

/-- Settles O31: R97's premise places the write at element COUNT (`formatterSound_iff`). -/
theorem fmtWriteAppendsElement : Obligations.FmtWriteAppendsElement := by
  intro s v hsound ho hv
  obtain ⟨hat, -⟩ := formatterSound_iff.mp hsound ho
  obtain ⟨htotal, hcols, hdigits, -⟩ := hfNext_fields s.hf
  exact ⟨(hfWritten v s).advance, exec_of_done (hfWrite_of_fits ho hv), hfWritten_out_at hat v,
    htotal, hcols, hdigits, hfNext_count_at hat, hfNext_col_at hat, hfWritten_status_at hat v, rfl,
    InputsKept.sameMemories ⟨rfl, rfl, rfl, rfl⟩⟩

theorem valueRange_info (v : Half) : (valueRange v).info = BitVec.ofNat 32 v.toNat :=
  (BitVec.ofNat_toNat 32 v).symm

/-- Settles O32: both faults come before the first character. -/
theorem fmtWriteFaultsInOrder : Obligations.FmtWriteFaultsInOrder := by
  refine fun s v => ⟨fun hidle => ?_, fun ho hv => ?_⟩
  · exact exec_faultedOnly_of_raised (e := fmtStateFault) (hfWrite_of_idle v hidle) rfl
  · exact exec_faultedOnly_of_raised (e := valueRange v) (hfWrite_of_tooLarge ho hv)
      (valueRange_info v)

/-! ### FMT.OPEN -/

theorem needIdle_of_idle {s : State} (h : s.hf.state = .idle) : needIdle s = .ok () := by
  simp [needIdle, h]

/-- The reads of FMT.OPEN and its check of the count, once no array is open (R91). -/
theorem fmtOpenChecks_of_idle {s : State} (h : s.hf.state = .idle) :
    fmtOpenChecks s = (do
      let t ← needReg .fmtTotal s.p.fmtTotal
      let c ← needReg .fmtCols s.p.fmtCols
      let d ← needReg .fmtDigits s.p.fmtDigits
      check (decide (t ≠ 0)) zeroCount
      return ⟨t, c, d⟩) := by
  rw [fmtOpenChecks, needIdle_of_idle h]; rfl

theorem commandResult_fmtOpen_of_ok {s : State} {q : OpenArgs} (h : fmtOpenChecks s = .ok q) :
    commandResult .fmtOpen s = .done (hfOpen q.total q.cols q.digits s) := by
  rw [commandResult, h]; rfl

/-- Settles O29: all checks of R91 pass (`fmtOpenChecks_ok_iff`). -/
theorem fmtOpenOpensArray : Obligations.FmtOpenOpensArray := by
  intro s t c d hidle ht hc hd hne
  have hok : fmtOpenChecks s = .ok ⟨t, c, d⟩ := fmtOpenChecks_ok_iff.mpr ⟨hidle, ht, hc, hd, hne⟩
  exact ⟨(hfOpen t c d s).advance, exec_of_done (commandResult_fmtOpen_of_ok hok), rfl,
    InputsKept.sameMemories ⟨rfl, rfl, rfl, rfl⟩⟩

/-- A check of FMT.OPEN that fails leaves the state to fault entry. -/
theorem exec_fmtOpen_faultedOnly {s : State} {e : Exc} {info : Nat}
    (h : fmtOpenChecks s = .error e) (hinfo : e.info = BitVec.ofNat 32 info) :
    ∃ u, exec .fmtOpen s = .next u ∧ FaultedOnly s u e.cause info :=
  exec_faultedOnly_of_raised (by rw [commandResult, h]; rfl) hinfo

/-- Settles O30: with each further register written, the next check is the one that fails. -/
theorem fmtOpenFaultsInOrder : Obligations.FmtOpenFaultsInOrder := by
  refine fun s => ⟨fun ho => ⟨_, exec_of_opened ho (.inl rfl), rfl⟩, fun hidle => ?_⟩
  have hchecks := fmtOpenChecks_of_idle hidle
  refine ⟨fun ht => ?_, fun t ht => ⟨fun hc => ?_, fun c hc => ⟨fun hd => ?_, fun d hd h0 => ?_⟩⟩⟩
  · exact exec_fmtOpen_faultedOnly (e := unconfigured .fmtTotal) (by simp [hchecks, ht]) rfl
  · exact exec_fmtOpen_faultedOnly (e := unconfigured .fmtCols) (by simp [hchecks, ht, hc]) rfl
  · exact exec_fmtOpen_faultedOnly (e := unconfigured .fmtDigits)
      (by simp [hchecks, ht, hc, hd]) rfl
  · exact exec_fmtOpen_faultedOnly (e := zeroCount) (by simp [hchecks, ht, hc, hd, h0]) rfl

end Sys2Proof.Machine
end

section
/-! SUPPORT. The up-front checks and the element counts of BP.RUN and CQ.RUN, the walk of BP.RUN over
the rows and where it stops, and the pixels in the packed elements. -/

namespace Sys2Proof.Machine

/-! ### The element counts (R112, R132) -/

theorem bpCount_le (w h : Half) : bpCount w.toNat h.toNat ≤ 536862720 := by
  have hw := w.isLt
  have hB : ceilDiv w.toNat 8 ≤ 8192 := by unfold ceilDiv; omega
  exact Nat.mul_le_mul hB (Nat.le_of_lt_succ h.isLt)

theorem cqCount_le (w h : Half) : cqCount w.toNat h.toNat ≤ 4294836225 :=
  Nat.mul_le_mul (Nat.le_of_lt_succ w.isLt) (Nat.le_of_lt_succ h.isLt)

/-- Settles O44: both bounds are those of a grid of 65535 by 65535. -/
theorem imageCountsFit : Obligations.ImageCountsFit := fun w h =>
  ⟨rfl, bpCount_le w h, rfl, cqCount_le w h, by decide⟩

theorem bpCount_eq_zero_iff {w h : Nat} : bpCount w h = 0 ↔ w = 0 ∨ h = 0 := by
  have hB : ceilDiv w 8 = 0 ↔ w = 0 := by unfold ceilDiv; omega
  rw [bpCount, Nat.mul_eq_zero, hB]

theorem cqCount_eq_zero_iff {w h : Nat} : cqCount w h = 0 ↔ w = 0 ∨ h = 0 := Nat.mul_eq_zero

/-! ### The up-front faults (R111, R131) -/

/-- The reads of BP.RUN and CQ.RUN and their check of the count, once no array is open. -/
theorem imageChecks_of_idle (count : Nat → Nat → Nat) {s : State} (h : s.hf.state = .idle) :
    imageChecks count s = (do
      let w ← needReg .imgW s.p.imgW
      let h ← needReg .imgH s.p.imgH
      let c ← needReg .fmtCols s.p.fmtCols
      check (decide (count w.toNat h.toNat ≠ 0)) zeroCount
      return ⟨w, h, c, count w.toNat h.toNat⟩) := by
  rw [imageChecks, needIdle_of_idle h]; rfl

/-- BP.RUN and CQ.RUN are one set of checks and a walk, with a count that is 0 exactly for a grid
without a pixel. -/
theorem imageRun_shape {i : Instr} (hi : i = .bpRun ∨ i = .cqRun) :
    ∃ (count : Nat → Nat → Nat) (walk : ImageArgs → State → Result),
      (∀ s, commandResult i s = checkedResult (imageChecks count s) walk s) ∧
        ∀ {w h}, count w h = 0 ↔ w = 0 ∨ h = 0 := by
  rcases hi with rfl | rfl
  · exact ⟨bpCount, bpWalk, fun _ => rfl, bpCount_eq_zero_iff⟩
  · exact ⟨cqCount, cqWalk, fun _ => rfl, cqCount_eq_zero_iff⟩

/-- Settles O36: with each further register written, the next check is the one that fails. -/
theorem imageRunFaultsInOrder : Obligations.ImageRunFaultsInOrder := by
  intro s i hi
  have hopens : OpensArray i := hi.elim (fun h => .inr (.inl h)) fun h => .inr (.inr (.inl h))
  refine ⟨fun ho => ⟨_, exec_of_opened ho hopens, rfl⟩, fun hidle => ?_⟩
  obtain ⟨count, walk, hresult, hzero⟩ := imageRun_shape hi
  have hchecks := imageChecks_of_idle count hidle
  have fails {e : Exc} {info : Nat} (h : imageChecks count s = .error e)
      (hinfo : e.info = BitVec.ofNat 32 info) :
      ∃ t, exec i s = .next t ∧ FaultedOnly s t e.cause info :=
    exec_faultedOnly_of_raised (by rw [hresult, h]; rfl) hinfo
  refine ⟨fun hw => ?_, fun w hw => ⟨fun hh => ?_, fun h hh => ⟨fun hc => ?_, fun c hc h0 => ?_⟩⟩⟩
  · exact fails (e := unconfigured .imgW) (by simp [hchecks, hw]) rfl
  · exact fails (e := unconfigured .imgH) (by simp [hchecks, hw, hh]) rfl
  · exact fails (e := unconfigured .fmtCols) (by simp [hchecks, hw, hh, hc]) rfl
  · have hcount : count w.toNat h.toNat = 0 :=
      hzero.mpr (h0.imp (congrArg BitVec.toNat) (congrArg BitVec.toNat))
    exact fails (e := zeroCount) (by simp [hchecks, hw, hh, hc, hcount]) rfl

/-! ### The elements as a list (R118) -/

/-- The elements of a position in the walk come first in those of the grid. -/
theorem bpPrefix_isPrefix (m : PixMem Sample) {w h y j : Nat} (hy : y < h)
    (hj : j ≤ ceilDiv w 8) : bpPrefix m w y j <+: bpElements m w h := by
  have range_isPrefix {a b : Nat} (hab : a ≤ b) : List.range a <+: List.range b := by
    rw [← Nat.min_eq_left hab, ← List.take_range]
    exact List.take_prefix ..
  calc bpPrefix m w y j
      <+: bpPrefix m w y (ceilDiv w 8) :=
        (List.prefix_append_right_inj _).mpr ((range_isPrefix hj).map _)
    _ = bpElements m w (y + 1) := bpPrefix_row m w y
    _ <+: bpElements m w h := (range_isPrefix hy).flatMap _

theorem bpElements_take (m : PixMem Sample) {w h y j : Nat} (hy : y < h) (hj : j ≤ ceilDiv w 8) :
    (bpElements m w h).take (y * ceilDiv w 8 + j) = bpPrefix m w y j := by
  rw [← bpPrefix_length m w y j]
  exact (List.prefix_iff_eq_take.mp (bpPrefix_isPrefix m hy hj)).symm

/-- R118: element `y * B + j` is byte `j` of row `y`. -/
theorem bpElements_getElem? (m : PixMem Sample) {w h y j : Nat} (hy : y < h)
    (hj : j < ceilDiv w 8) :
    (bpElements m w h)[y * ceilDiv w 8 + j]? = some (bpElement m w y j) := by
  have hpre := bpPrefix_isPrefix m hy (Nat.succ_le_of_lt hj)
  rw [bpPrefix_succ] at hpre
  obtain ⟨rest, hrest⟩ := hpre
  rw [← hrest, ← bpPrefix_length m w y j]
  simp

/-! ### The pixels in an element -/

/-- The bit that entered the accumulator `r - 1 - i` shifts ago is bit `r - 1 - i` (R114). -/
theorem accValue_bit (m : PixMem Sample) (w y b : Nat) {r i : Nat} (hi : i < r) :
    accValue m w y b r / 2 ^ (r - 1 - i) % 2 = bpBitAt m w (b + i) y := by
  induction r with
  | zero => omega
  | succ r ih =>
    have hbit := bpBitAt_le m w (b + r) y
    rw [accValue]
    rcases Nat.lt_succ_iff_lt_or_eq.mp hi with hlt | rfl
    · have hexp : r + 1 - 1 - i = (r - 1 - i) + 1 := by omega
      have hshift : (2 * accValue m w y b r + bpBitAt m w (b + r) y) / 2 = accValue m w y b r := by
        omega
      rw [hexp, pow_succ', ← Nat.div_div_eq_div_mul, hshift, ih hlt]
    · have hexp : i + 1 - 1 - i = 0 := by omega
      rw [hexp]
      omega

/-- R118: bit `7 - i` of a full byte is its pixel `i`. -/
theorem bpElement_bit (m : PixMem Sample) (w y j : Nat) {i : Nat} (hi : i < 8) :
    bpElement m w y j / 2 ^ (7 - i) % 2 = bpBitAt m w (8 * j + i) y := by
  rw [← accValue_full, accValue_bit m w y (8 * j) hi]

theorem bpBitAt_inside (m : PixMem Sample) {w x y : Nat} (hx : x < w) :
    bpBitAt m w x y = if (m.at? x y).getD 0 ≠ 0 then 1 else 0 := by
  have hpos : 0 < ((m.at? x y).getD 0).toNat ↔ (m.at? x y).getD 0 ≠ 0 := by
    rw [Nat.pos_iff_ne_zero, ← BitVec.toNat_ne_iff_ne]; rfl
  simp only [bpBitAt, hx, true_and, hpos]

/-- The byte a column falls in lies inside its row (R112). -/
theorem div_lt_ceilDiv {x w : Nat} (hx : x < w) : x / 8 < ceilDiv w 8 := by
  unfold ceilDiv; omega

/-- Settles O39: the element is byte `x / 8` of row `y`, and its bit is pixel `x mod 8`. -/
theorem bpElementsUnpack : Obligations.BpElementsUnpack := by
  intro m w h x y hx hy
  rw [bpElements_getElem? m hy (div_lt_ceilDiv hx), Option.getD_some,
    bpElement_bit m w y (x / 8) (Nat.mod_lt x (by decide)), Nat.div_add_mod, bpBitAt_inside m hx]

/-! ### The walk of BP.RUN -/

theorem ImageOperands.bpCount_ne_zero {s : State} {w h c : Half} (H : ImageOperands s w h c) :
    bpCount w.toNat h.toNat ≠ 0 := by
  obtain ⟨-, -, -, -, -, hw0, hh0⟩ := H
  rw [Ne, bpCount_eq_zero_iff, not_or]
  exact ⟨BitVec.toNat_ne_iff_ne.mpr hw0, BitVec.toNat_ne_iff_ne.mpr hh0⟩

/-- The operands pass every check of BP.RUN, which then opens its array and walks the rows. -/
theorem ImageOperands.commandResult_bpRun {s : State} {w h c : Half} (H : ImageOperands s w h c) :
    commandResult .bpRun s = forRange (bpRow w.toNat) h.toNat 0
      (hfOpen (BitVec.ofNat 32 (bpCount w.toNat h.toNat)) c Config.digitsOfByteCell s) := by
  have hn := H.bpCount_ne_zero
  obtain ⟨hidle, hw, hh, hc, -⟩ := H
  have hok : imageChecks bpCount s = .ok ⟨w, h, c, bpCount w.toNat h.toNat⟩ :=
    imageChecks_ok_iff.mpr ⟨hidle, hw, hh, hc, rfl, hn⟩
  rw [commandResult, hok]; rfl

/-- The bytes of a row of the grid and of the rows above it are counted (R112). -/
theorem row_le_bpCount {w h y : Nat} (hy : y < h) :
    y * ceilDiv w 8 + ceilDiv w 8 ≤ bpCount w h := by
  rw [← Nat.succ_mul, bpCount, Nat.mul_comm (ceilDiv w 8)]
  exact Nat.mul_le_mul_right _ hy

/-- Where BP stands before row `y` of a `w` by `h` grid, written in lines of `c`. -/
structure BpRowsAt (s0 : State) (w h c : Half) (y : Nat) (s : State) : Prop where
  written : Written s0.out (bpCount w.toNat h.toNat) c.toNat 2 (bpElements s0.pixm w.toNat y) s
  frame : BpFrame s0 s

/-- Where a fault at column `x` of row `y` leaves BP: the bytes complete before it are written. -/
structure BpStoppedAt (s0 : State) (w h c : Half) (x y : Nat) (e : Exc) (s : State) : Prop where
  fault : e = srcBoundsPix x y
  written : Written s0.out (bpCount w.toNat h.toNat) c.toNat 2
    (bpPrefix s0.pixm w.toNat y (x / 8)) s
  frame : BpFrame s0 s

/-- HF.open stands before row 0 (R111). -/
theorem BpRowsAt.start {s : State} {w h c : Half} (H : ImageOperands s w h c) :
    BpRowsAt s w h c 0
      (hfOpen (BitVec.ofNat 32 (bpCount w.toNat h.toNat)) c Config.digitsOfByteCell s) := by
  have hlt := bpCount_lt w h
  have hn := ofNat_word_ne_zero H.bpCount_ne_zero hlt
  obtain ⟨-, -, -, -, hc, -⟩ := H
  have hopen := written_open (d := Config.digitsOfByteCell) s hn hc
  rw [BitVec.toNat_ofNat, Nat.mod_eq_of_lt hlt] at hopen
  exact ⟨hopen, rfl⟩

/-- A row that PIXM holds. -/
theorem BpRowsAt.row {s0 s : State} {w h c : Half} {y : Nat} (H : BpRowsAt s0 w h c y s)
    (hy : y < h.toNat) (hp : ∀ x, x < w.toNat → (s0.pixm.at? x y).isSome = true) :
    ∃ u, bpRow w.toNat y s = .done u ∧ BpRowsAt s0 w h c (y + 1) u := by
  obtain ⟨u, hu, hwritten, hframe⟩ :=
    bpRow_present hy h.isLt w.isLt (Nat.mul_comm ..) hp H.written H.frame
  exact ⟨u, hu, hwritten, hframe⟩

/-- A row whose first missing pixel is in column `x0`: the pixels before it are packed, and it
raises SrcBounds (R111, R191). -/
theorem BpRowsAt.row_missing {s0 s : State} {w h c : Half} {x0 y : Nat}
    (H : BpRowsAt s0 w h c y s) (hy : y < h.toNat) (hx0 : x0 < w.toNat)
    (hmiss : s0.pixm.at? x0 y = none) (hp : ∀ x, x < x0 → (s0.pixm.at? x y).isSome = true) :
    ∃ e u, bpRow w.toNat y s = .raised e u ∧ BpStoppedAt s0 w h c x0 y e u := by
  have hrow := row_le_bpCount (w := w.toNat) hy
  obtain ⟨e, u, hu, hstop⟩ := forRange_raised
    (BpAt s0 s0.out (bpCount w.toNat h.toNat) c.toNat w.toNat y) (BpStoppedAt s0 w h c x0 y) hx0
    (BpAt.start (hy.trans h.isLt) H.written H.frame)
    (fun x t _ hx Ht => by
      rw [Nat.zero_add] at hx
      obtain ⟨v, hv⟩ := Option.isSome_iff_exists.mp (hp x hx)
      have hxw := hx.trans hx0
      have hbyte := div_lt_ceilDiv hxw
      exact bpPixel_present Ht hxw (hxw.trans w.isLt) hv (by omega))
    (fun t Ht => by
      rw [Nat.zero_add] at Ht ⊢
      obtain ⟨u, hu, hwritten, hframe⟩ := bpPixel_missing Ht (hx0.trans w.isLt) hmiss
      exact ⟨_, u, hu, rfl, hwritten, hframe⟩)
  exact ⟨e, u, by rw [bpRow, hu]; rfl, hstop⟩

/-- Completion of a walk changes OUT, HF, FMTOPEN, BP and `cp` only. -/
theorem BpFrame.advance {s u : State} {b : Bool} (F : BpFrame s u) (hb : u.fmtOpen = b) :
    u.advance =
      { s with out := u.out, hf := u.hf, bp := u.bp, fmtOpen := b, cp := s.cp + 1 } := by
  rw [← hb]; exact congrArg State.advance F

theorem BpFrame.currentWord {s u : State} (F : BpFrame s u) : u.currentWord = s.currentWord := by
  rw [F]; rfl

/-- Fault entry from a walk changes OUT, HF, FMTOPEN, BP and the fault registers only (R192). -/
theorem BpFrame.takeFault {s u : State} {b : Bool} (F : BpFrame s u) (hb : u.fmtOpen = b)
    (e : Exc) :
    u.takeFault e =
      { s with out := u.out, hf := u.hf, bp := u.bp, fmtOpen := b, fault := true,
               cause := causeCode e.cause, finfo := e.info, fcmd := u.currentWord } := by
  rw [← hb, F.currentWord]; exact congrArg (State.takeFault · e) F

theorem BpFrame.inputsKept {s u : State} (F : BpFrame s u) : InputsKept s u := by
  rw [F]; exact ⟨rfl, rfl, rfl, rfl⟩

/-- A fault raised in a state the body has reached takes fault entry there (R192). -/
theorem exec_of_raised {i : Instr} {s u : State} {e : Exc} (h : commandResult i s = .raised e u) :
    exec i s = .next (u.takeFault e) := by
  rw [exec_eq_outcome, h, Result.outcome_raised]

/-- Settles O37, by induction over the rows (`BpRowsAt.row`); after the last the array is closed. -/
theorem bpRunPacksImage : Obligations.BpRunPacksImage := by
  intro s w h c hops hp
  obtain ⟨u, hu, H⟩ := forRange_done (BpRowsAt s w h c) (n := h.toNat) (BpRowsAt.start hops)
    fun y t _ hy Ht => Ht.row (by omega) fun x hx => hp x y hx (by omega)
  rw [Nat.zero_add] at H
  have hlen : (bpElements s.pixm w.toNat h.toNat).length = bpCount w.toNat h.toNat := by
    rw [bpElements_length, bpCount, Nat.mul_comm]
  obtain ⟨hidle, hflag, hout⟩ := H.written.closed hlen
  exact ⟨u.advance, exec_of_done (hops.commandResult_bpRun.trans hu), hout, hlen, hidle, hflag,
    H.frame.advance hflag, H.frame.inputsKept.sameMemories⟩

/-- Settles O38: the rows above are complete (`BpRowsAt.row`), row `y0` stops in column `x0`
(`BpRowsAt.row_missing`), and elements are missing, so the array is open. -/
theorem bpRunStopsAtMissingPixel : Obligations.BpRunStopsAtMissingPixel := by
  intro s w h c x0 y0 hops hx0 hy0 hmiss hp
  obtain ⟨e, u, hu, rfl, hwritten, hframe⟩ := forRange_raised
    (BpRowsAt s w h c) (BpStoppedAt s w h c x0 y0) hy0 (BpRowsAt.start hops)
    (fun y t _ hy Ht => Ht.row (by omega) fun x hx => hp x y hx (.inl (by omega)))
    (fun t Ht => by
      rw [Nat.zero_add] at Ht ⊢
      exact Ht.row_missing hy0 hx0 hmiss fun x hx => hp x y0 (hx.trans hx0) (.inr ⟨rfl, hx⟩))
  have hbyte := div_lt_ceilDiv hx0
  have hrow := row_le_bpCount (w := w.toNat) hy0
  obtain ⟨⟨hopen, _⟩, hflag, hout⟩ := hwritten.opened (by rw [bpPrefix_length]; omega)
  rw [← bpElements_take s.pixm hy0 hbyte.le] at hout
  exact ⟨u.takeFault (srcBoundsPix x0 y0), exec_of_raised (hops.commandResult_bpRun.trans hu), rfl,
    rfl, srcBoundsPix_info (hx0.trans w.isLt) (hy0.trans h.isLt), hframe.currentWord, hflag, hopen,
    hout, hframe.takeFault hflag _, hframe.inputsKept.sameMemories⟩

end Sys2Proof.Machine
end

section
/-! SUPPORT. The packed colour as the sum of its three fields, the error of quantization, the walk of
CQ.RUN over the columns and where it stops. -/

namespace Sys2Proof.Machine

/-! ### The packed colour (R133) -/

theorem byte_and_F8 (b : Byte) : b.toNat &&& 0xF8 = b.toNat / 8 * 8 := by
  revert b; decide

theorem byte_and_FC (b : Byte) : b.toNat &&& 0xFC = b.toNat / 4 * 4 := by
  revert b; decide

/-- R133: the three fields do not overlap, so that OR is the sum. -/
theorem cqPack_toNat_eq_sum (c : Rgb) :
    (cqPack c).toNat = c.r.toNat / 8 * 2048 + c.g.toNat / 4 * 32 + c.b.toNat / 8 := by
  have hg := c.g.isLt
  have hb := c.b.isLt
  have hlow : c.b.toNat / 8 < 2 ^ 5 := by omega
  have hmid : c.g.toNat / 4 * 2 ^ 5 + c.b.toNat / 8 < 2 ^ 11 := by omega
  calc (cqPack c).toNat
      = (c.r.toNat / 8 * 8) <<< 8 ||| ((c.g.toNat / 4 * 4) <<< 3 ||| c.b.toNat / 8) := by
        rw [cqPack_toNat, cqValue, byte_and_F8, byte_and_FC, Nat.lor_assoc,
          Nat.shiftRight_eq_div_pow]
    _ = (c.r.toNat / 8) <<< 11 ||| ((c.g.toNat / 4) <<< 5 ||| c.b.toNat / 8) := by
        simp only [Nat.shiftLeft_eq, Nat.mul_assoc, Nat.reducePow, Nat.reduceMul]
    _ = c.r.toNat / 8 * 2 ^ 11 + (c.g.toNat / 4 * 2 ^ 5 + c.b.toNat / 8) := by
        rw [← Nat.shiftLeft_add_eq_or_of_lt hlow, Nat.shiftLeft_eq (c.g.toNat / 4),
          ← Nat.shiftLeft_add_eq_or_of_lt hmid, Nat.shiftLeft_eq]
    _ = c.r.toNat / 8 * 2048 + c.g.toNat / 4 * 32 + c.b.toNat / 8 := by omega

/-- The five bits from bit 3 on are the top of a byte. -/
theorem byte_top_five_toNat (b : Byte) : (b.extractLsb' 3 5).toNat = b.toNat / 8 := by
  have := b.isLt
  rw [BitVec.extractLsb'_toNat]; omega

/-- The six bits from bit 2 on are the top of a byte. -/
theorem byte_top_six_toNat (b : Byte) : (b.extractLsb' 2 6).toNat = b.toNat / 4 := by
  have := b.isLt
  rw [BitVec.extractLsb'_toNat]; omega

theorem cqPack_red (c : Rgb) : (cqPack c).extractLsb' 11 5 = c.r.extractLsb' 3 5 := by
  have hr := c.r.isLt
  have hg := c.g.isLt
  have hb := c.b.isLt
  apply BitVec.eq_of_toNat_eq
  rw [BitVec.extractLsb'_toNat, byte_top_five_toNat, cqPack_toNat_eq_sum]; omega

theorem cqPack_green (c : Rgb) : (cqPack c).extractLsb' 5 6 = c.g.extractLsb' 2 6 := by
  have hg := c.g.isLt
  have hb := c.b.isLt
  apply BitVec.eq_of_toNat_eq
  rw [BitVec.extractLsb'_toNat, byte_top_six_toNat, cqPack_toNat_eq_sum]; omega

theorem cqPack_blue (c : Rgb) : (cqPack c).extractLsb' 0 5 = c.b.extractLsb' 3 5 := by
  have hb := c.b.isLt
  apply BitVec.eq_of_toNat_eq
  rw [BitVec.extractLsb'_toNat, byte_top_five_toNat, cqPack_toNat_eq_sum]; omega

/-- Settles O42: the three fields are read off the sum (`cqPack_toNat_eq_sum`). -/
theorem colourPacking : Obligations.ColourPacking :=
  ⟨fun c => ⟨cqPack_toNat c, cqPack_red c, cqPack_green c, cqPack_blue c, cqPack_toNat_eq_sum c,
    Nat.le_of_lt_succ (cqPack c).isLt⟩, by decide⟩

/-! ### The error of quantization (R137) -/

theorem expand5_toNat (f : BitVec 5) : (expand5 f).toNat = f.toNat * 8 + f.toNat / 4 := by
  revert f; decide

theorem expand6_toNat (f : BitVec 6) : (expand6 f).toNat = f.toNat * 4 + f.toNat / 16 := by
  revert f; decide

/-- What bit replication puts back differs from the bits that packing cut off by at most 7. -/
theorem expand5_error_le (b : Byte) :
    ((b.toNat : Int) - ((expand5 (b.extractLsb' 3 5)).toNat : Int)).natAbs ≤ 7 := by
  have := b.isLt
  rw [expand5_toNat, byte_top_five_toNat]; omega

/-- With two bits cut off, the difference is at most 3. -/
theorem expand6_error_le (b : Byte) :
    ((b.toNat : Int) - ((expand6 (b.extractLsb' 2 6)).toNat : Int)).natAbs ≤ 3 := by
  have := b.isLt
  rw [expand6_toNat, byte_top_six_toNat]; omega

/-- Settles O43: the largest values that quantize to 0 reach all three bounds. -/
theorem quantizationErrorBound : Obligations.QuantizationErrorBound := by
  refine ⟨fun c => ?_, ⟨⟨7, 3, 7⟩, by decide⟩, ⟨⟨7, 3, 7⟩, by decide⟩, ⟨⟨7, 3, 7⟩, by decide⟩⟩
  simp only [cqPack_red, cqPack_green, cqPack_blue]
  exact ⟨expand5_error_le c.r, expand6_error_le c.g, expand5_error_le c.b⟩

/-! ### The elements as a list (R135) -/

theorem range_isPrefix {a b : Nat} (hab : a ≤ b) : List.range a <+: List.range b := by
  rw [← Nat.min_eq_left hab, ← List.take_range]
  exact List.take_prefix ..

/-- The elements of a position in the walk come first in those of the grid. -/
theorem cqPrefix_isPrefix (m : PixMem Rgb) {w h x y : Nat} (hx : x < w) (hy : y ≤ h) :
    cqPrefix m h x y <+: cqElements m w h := by
  calc cqPrefix m h x y
      <+: cqPrefix m h x h := (List.prefix_append_right_inj _).mpr ((range_isPrefix hy).map _)
    _ = cqElements m (x + 1) h := cqPrefix_column m h x
    _ <+: cqElements m w h := (range_isPrefix hx).flatMap _

theorem cqElements_take (m : PixMem Rgb) {w h x y : Nat} (hx : x < w) (hy : y ≤ h) :
    (cqElements m w h).take (x * h + y) = cqPrefix m h x y := by
  rw [← cqPrefix_length m h x y]
  exact (List.prefix_iff_eq_take.mp (cqPrefix_isPrefix m hx hy)).symm

/-! ### The walk of CQ.RUN -/

theorem ImageOperands.cqCount_ne_zero {s : State} {w h c : Half} (H : ImageOperands s w h c) :
    cqCount w.toNat h.toNat ≠ 0 := by
  obtain ⟨-, -, -, -, -, hw0, hh0⟩ := H
  rw [Ne, cqCount_eq_zero_iff, not_or]
  exact ⟨BitVec.toNat_ne_iff_ne.mpr hw0, BitVec.toNat_ne_iff_ne.mpr hh0⟩

/-- The state the columns of CQ.RUN start from: its array opened and CQUSED set (R131, R136). -/
def cqOpened (w h c : Half) (s : State) : State :=
  (hfOpen (BitVec.ofNat 32 (cqCount w.toNat h.toNat)) c Config.digitsOfHalfCell s).setCqUsed true

/-- The operands pass every check of CQ.RUN, which then opens its array and walks the columns. -/
theorem ImageOperands.commandResult_cqRun {s : State} {w h c : Half} (H : ImageOperands s w h c) :
    commandResult .cqRun s = forRange (cqColumn h.toNat) w.toNat 0 (cqOpened w h c s) := by
  have hn := H.cqCount_ne_zero
  obtain ⟨hidle, hw, hh, hc, -⟩ := H
  have hok : imageChecks cqCount s = .ok ⟨w, h, c, cqCount w.toNat h.toNat⟩ :=
    imageChecks_ok_iff.mpr ⟨hidle, hw, hh, hc, rfl, hn⟩
  rw [commandResult, hok]; rfl

/-- The pixels of a column of the grid and of the columns left of it are counted (R132). -/
theorem column_le_cqCount {w h x : Nat} (hx : x < w) : x * h + h ≤ cqCount w h := by
  rw [← Nat.succ_mul]
  exact Nat.mul_le_mul_right _ hx

/-- Where CQ stands before column `x` of a `w` by `h` grid, written in lines of `c`. -/
structure CqColumnsAt (s0 : State) (w h c : Half) (x : Nat) (s : State) : Prop where
  written : Written s0.out (cqCount w.toNat h.toNat) c.toNat 4 (cqElements s0.pixc x h.toNat) s
  frame : CqFrame s0 s

/-- Where a fault at row `y` of column `x` leaves CQ: the pixels before it are written. -/
structure CqStoppedAt (s0 : State) (w h c : Half) (x y : Nat) (e : Exc) (s : State) : Prop where
  fault : e = srcBoundsPix x y
  written : Written s0.out (cqCount w.toNat h.toNat) c.toNat 4 (cqPrefix s0.pixc h.toNat x y) s
  frame : CqFrame s0 s

/-- The opened array stands before column 0 (R131). -/
theorem CqColumnsAt.start {s : State} {w h c : Half} (H : ImageOperands s w h c) :
    CqColumnsAt s w h c 0 (cqOpened w h c s) := by
  have hlt := cqCount_lt w h
  have hn := ofNat_word_ne_zero H.cqCount_ne_zero hlt
  obtain ⟨-, -, -, -, hc, -⟩ := H
  have hopen := written_open (d := Config.digitsOfHalfCell) s hn hc
  rw [BitVec.toNat_ofNat, Nat.mod_eq_of_lt hlt] at hopen
  exact ⟨hopen.congr rfl rfl rfl, rfl⟩

/-- A column that PIXC holds. -/
theorem CqColumnsAt.column {s0 s : State} {w h c : Half} {x : Nat} (H : CqColumnsAt s0 w h c x s)
    (hx : x < w.toNat) (hp : ∀ y, y < h.toNat → (s0.pixc.at? x y).isSome = true) :
    ∃ u, cqColumn h.toNat x s = .done u ∧ CqColumnsAt s0 w h c (x + 1) u := by
  obtain ⟨u, hu, hwritten, hframe⟩ :=
    cqColumn_present hx w.isLt h.isLt rfl hp H.written H.frame
  exact ⟨u, hu, hwritten, hframe⟩

/-- A column whose first missing pixel is in row `y0`: the pixels before it are written, and it
raises SrcBounds (R131, R191). -/
theorem CqColumnsAt.column_missing {s0 s : State} {w h c : Half} {x y0 : Nat}
    (H : CqColumnsAt s0 w h c x s) (hx : x < w.toNat) (hy0 : y0 < h.toNat)
    (hmiss : s0.pixc.at? x y0 = none) (hp : ∀ y, y < y0 → (s0.pixc.at? x y).isSome = true) :
    ∃ e u, cqColumn h.toNat x s = .raised e u ∧ CqStoppedAt s0 w h c x y0 e u := by
  have hcolumn := column_le_cqCount (h := h.toNat) hx
  exact forRange_raised
    (CqAt s0 s0.out (cqCount w.toNat h.toNat) c.toNat h.toNat x) (CqStoppedAt s0 w h c x y0) hy0
    (CqAt.start (hx.trans w.isLt) H.written H.frame)
    (fun y t _ hy Ht => by
      rw [Nat.zero_add] at hy
      obtain ⟨v, hv⟩ := Option.isSome_iff_exists.mp (hp y hy)
      have hyh := hy.trans hy0
      exact cqPixel_present Ht (hyh.trans h.isLt) hv (by omega))
    (fun t Ht => by
      rw [Nat.zero_add] at Ht ⊢
      obtain ⟨u, hu, hwritten, hframe⟩ := cqPixel_missing Ht (hy0.trans h.isLt) hmiss
      exact ⟨_, u, hu, rfl, hwritten, hframe⟩)

/-- Completion of a walk changes OUT, HF, FMTOPEN, CQ, CQUSED and `cp` only. -/
theorem CqFrame.advance {s u : State} {b : Bool} (F : CqFrame s u) (hb : u.fmtOpen = b) :
    u.advance =
      { s with out := u.out, hf := u.hf, cq := u.cq, fmtOpen := b, cqUsed := true,
               cp := s.cp + 1 } := by
  rw [← hb]; exact congrArg State.advance F

theorem CqFrame.cqUsed {s u : State} (F : CqFrame s u) : u.cqUsed = true := by
  rw [F]

theorem CqFrame.currentWord {s u : State} (F : CqFrame s u) : u.currentWord = s.currentWord := by
  rw [F]; rfl

/-- Fault entry from a walk changes OUT, HF, FMTOPEN, CQ, CQUSED and the fault registers only
(R192). -/
theorem CqFrame.takeFault {s u : State} {b : Bool} (F : CqFrame s u) (hb : u.fmtOpen = b)
    (e : Exc) :
    u.takeFault e =
      { s with out := u.out, hf := u.hf, cq := u.cq, fmtOpen := b, cqUsed := true, fault := true,
               cause := causeCode e.cause, finfo := e.info, fcmd := u.currentWord } := by
  rw [← hb, F.currentWord]; exact congrArg (State.takeFault · e) F

theorem CqFrame.inputsKept {s u : State} (F : CqFrame s u) : InputsKept s u := by
  rw [F]; exact ⟨rfl, rfl, rfl, rfl⟩

/-- Settles O40, by induction over the columns (`CqColumnsAt.column`); after the last the array is
closed. -/
theorem cqRunQuantizesImage : Obligations.CqRunQuantizesImage := by
  intro s w h c hops hp
  obtain ⟨u, hu, H⟩ := forRange_done (CqColumnsAt s w h c) (n := w.toNat) (CqColumnsAt.start hops)
    fun x t _ hx Ht => Ht.column (by omega) fun y hy => hp x y (by omega) hy
  rw [Nat.zero_add] at H
  have hlen := cqElements_length s.pixc w.toNat h.toNat
  obtain ⟨hidle, hflag, hout⟩ := H.written.closed hlen
  exact ⟨u.advance, exec_of_done (hops.commandResult_cqRun.trans hu), hout, hlen, hidle, hflag,
    H.frame.cqUsed, H.frame.advance hflag, H.frame.inputsKept.sameMemories⟩

/-- Settles O41: the columns to the left are complete (`CqColumnsAt.column`), column `x0` stops in
row `y0` (`CqColumnsAt.column_missing`), and elements are missing, so the array is open. -/
theorem cqRunStopsAtMissingPixel : Obligations.CqRunStopsAtMissingPixel := by
  intro s w h c x0 y0 hops hx0 hy0 hmiss hp
  obtain ⟨e, u, hu, rfl, hwritten, hframe⟩ := forRange_raised
    (CqColumnsAt s w h c) (CqStoppedAt s w h c x0 y0) hx0 (CqColumnsAt.start hops)
    (fun x t _ hx Ht => Ht.column (by omega) fun y hy => hp x y hy (.inl (by omega)))
    (fun t Ht => by
      rw [Nat.zero_add] at Ht ⊢
      exact Ht.column_missing hx0 hy0 hmiss fun y hy => hp x0 y (hy.trans hy0) (.inr ⟨rfl, hy⟩))
  have hcolumn := column_le_cqCount (h := h.toNat) hx0
  obtain ⟨⟨hopen, _⟩, hflag, hout⟩ := hwritten.opened (by rw [cqPrefix_length]; omega)
  rw [← cqElements_take s.pixc hx0 hy0.le] at hout
  exact ⟨u.takeFault (srcBoundsPix x0 y0), exec_of_raised (hops.commandResult_cqRun.trans hu), rfl,
    rfl, srcBoundsPix_info (hx0.trans w.isLt) (hy0.trans h.isLt), hframe.currentWord, hflag,
    hframe.cqUsed, hopen, hout, hframe.takeFault hflag _, hframe.inputsKept.sameMemories⟩

end Sys2Proof.Machine
end

section
/-! SUPPORT. The arithmetic of AR (the sign conversion, the bounds of sums and elements, the samples
in a packed group), and AR.HDR: its checks, the values it loads and its faults. -/

namespace Sys2Proof.Machine

/-! ### The sign conversion (R153) -/

/-- Flipping the top bit keeps the low fifteen and flips the half of the range. -/
theorem unsignedSample_eq_xor (r : Half) : unsignedSample r.toNat = (r ^^^ 0x8000).toNat := by
  have hr := r.isLt
  have hlow : (r.toNat ^^^ 32768) % 2 ^ 15 = r.toNat % 2 ^ 15 := by
    rw [Nat.xor_mod_two_pow]; simp
  have htop : (r.toNat ^^^ 32768) / 2 ^ 15 = r.toNat / 2 ^ 15 ^^^ 1 := by
    rw [Nat.xor_div_two_pow]
  have hxor : (r ^^^ 0x8000).toNat = r.toNat ^^^ 32768 := BitVec.toNat_xor ..
  unfold unsignedSample
  split
  · have hone : r.toNat / 2 ^ 15 = 1 := by omega
    rw [hone, Nat.xor_self] at htop
    omega
  · have hzero : r.toNat / 2 ^ 15 = 0 := by omega
    rw [hzero, Nat.zero_xor] at htop
    omega

theorem unsignedSample_eq_toInt (r : Half) :
    (unsignedSample r.toNat : Int) = r.toInt + 32768 := by
  have hr := r.isLt
  rw [BitVec.toInt_eq_toNat_cond]
  unfold unsignedSample
  split <;> split <;> omega

/-- Settles O53, form by form (`unsignedSample_eq_xor`, `unsignedSample_eq_toInt`). -/
theorem signConversion : Obligations.SignConversion :=
  ⟨fun r => ⟨rfl, unsignedSample_eq_xor r, unsignedSample_eq_toInt r, unsignedSample_le r.isLt⟩,
    rfl, rfl, rfl, rfl⟩

/-! ### The bounds of the reduced values (R156, R159 to R161) -/

/-- Settles O54, from the bounds of a sum at 65535 a channel, and at 255 for 8-bit sources. -/
theorem reducedValuesFit : Obligations.ReducedValuesFit := by
  intro m q i _
  have hsum := arS_le m q i
  exact ⟨arPartial_lt (Nat.le_of_lt_succ q.ch.isLt),
    fun h8 => Nat.div_le_of_le_mul (arS_le_byte h8), div_le_of_le_mul (k := 256) hsum,
    div_le_of_le_mul (k := 64) hsum⟩

/-! ### The samples in a packed group (R165) -/

/-- Byte `j` of group `g` is element `5 * g + j`. -/
theorem arGroupElements_getElem? (m : Memory) (q : AudioArgs) {k g j : Nat} (hg : g < k)
    (hj : j < 5) : (arGroupElements m q k)[5 * g + j]? = (arGroup m q g)[j]? := by
  induction k with
  | zero => omega
  | succ k ih =>
    rw [arGroupElements_succ]
    rcases Nat.lt_succ_iff_lt_or_eq.mp hg with hlt | rfl
    · rw [List.getElem?_append_left (by rw [arGroupElements_length]; omega), ih hlt]
    · rw [List.getElem?_append_right (by rw [arGroupElements_length]; omega),
        arGroupElements_length, Nat.add_sub_cancel_left]

/-- The first byte of a group holds the top two bits of sample `r` at bit `6 - 2 * r`. -/
theorem arGroup_top (m : Memory) (q : AudioArgs) (g : Nat) {r : Nat} (hr : r < 4) :
    (arGroup m q g)[0]?.getD 0 / 2 ^ (6 - 2 * r) % 4 = arV m q (4 * g + r) / 256 % 4 := by
  simp only [arGroup, List.getElem?_cons_zero, Option.getD_some]
  interval_cases r <;> simp only [Nat.reduceMul, Nat.reduceSub, Nat.reducePow, Nat.add_zero] <;>
    omega

/-- Byte `1 + r` of a group is the low byte of sample `r`. -/
theorem arGroup_low (m : Memory) (q : AudioArgs) (g : Nat) {r : Nat} (hr : r < 4) :
    (arGroup m q g)[1 + r]?.getD 0 = arV m q (4 * g + r) % 256 := by
  interval_cases r <;> rfl

theorem div_four_lt_ceilDiv {i n : Nat} (h : i < n) : i / 4 < ceilDiv n 4 := by
  unfold ceilDiv; omega

/-- Settles O52: sample `i` is number `i % 4` of group `i / 4`, and its ten bits are the top two of
`arGroup_top` over the low byte of `arGroup_low`. -/
theorem tenBitSamplesUnpack : Obligations.TenBitSamplesUnpack := by
  intro m q i hi _ _
  have hgroup := div_four_lt_ceilDiv hi
  have hr : i % 4 < 4 := Nat.mod_lt i (by decide)
  have hv : arV m q i = arS m q i / (q.ch.toNat * 64) := if_pos hi
  have hle := arV_le (m := m) (q := q) i
  have htop := arGroup_top m q (i / 4) hr
  have hlow := arGroup_low m q (i / 4) hr
  rw [Nat.div_add_mod] at htop hlow
  have hbyte0 := arGroupElements_getElem? m q hgroup (j := 0) (by decide)
  rw [Nat.add_zero] at hbyte0
  dsimp only
  rw [← hv, hbyte0, htop, Nat.add_assoc, arGroupElements_getElem? m q hgroup (by omega), hlow]
  omega

/-! ### The checks of AR.HDR (R146, R147) -/

theorem arHdrChecks_of_not_magic {s : State} (h : ¬ MagicPresent s.wav) :
    arHdrChecks s = .error formatError := by
  rw [magicPresent_iff, not_and_or, Bool.not_eq_true, Bool.not_eq_true] at h
  unfold arHdrChecks
  cases hriff : wavMatches s.wav 0 magicRiff with
  | false => simp
  | true =>
    have hwave := h.resolve_left (by simp [hriff])
    simp [hwave]

/-- The field reads of AR.HDR and its check of the frame size, once both markers are there. -/
theorem arHdrChecks_of_magic {s : State} (h : MagicPresent s.wav) :
    arHdrChecks s = (do
      let cs ← s.wav.memRead 16 4
      let ch ← s.wav.memRead 22 2
      let rate ← s.wav.memRead 24 4
      let fr ← s.wav.memRead 32 2
      let bits ← s.wav.memRead 34 2
      let ds ← s.wav.memRead (cs + 24) 4
      check (decide (fr ≠ 0)) (divideByZero .audFrame)
      return ⟨cs, ch, rate, fr, bits, ds⟩) := by
  obtain ⟨hriff, hwave⟩ := (magicPresent_iff s.wav).mp h
  rw [arHdrChecks, hriff, hwave]; rfl

/-- The header fields of R148, read from WAV. -/
def wavHeader (m : Memory) : WavHeader where
  chunkSize := m.assemble 16 4
  channels := m.assemble 22 2
  rate := m.assemble 24 4
  frame := m.assemble 32 2
  bits := m.assemble 34 2
  dataSize := m.assemble (m.assemble 16 4 + 24) 4

/-- With the fields inside WAV, only the check of the frame size is left. -/
theorem arHdrChecks_of_inside {s : State} (hmagic : MagicPresent s.wav)
    (hlen : 36 ≤ s.wav.len.toNat) (hdata : s.wav.assemble 16 4 + 28 ≤ s.wav.len.toNat) :
    arHdrChecks s = if s.wav.assemble 32 2 ≠ 0 then .ok (wavHeader s.wav)
      else .error (divideByZero .audFrame) := by
  simp (disch := omega) only [arHdrChecks_of_magic hmagic, memRead_inside, except_ok_bind]
  by_cases h : s.wav.assemble 32 2 = 0 <;> simp [h, wavHeader]

/-! ### AR.HDR -/

theorem commandResult_arHdr_of_ok {s : State} {q : WavHeader} (h : arHdrChecks s = .ok q) :
    commandResult .arHdr s = .done (s.setParams (loadHeader q s.p)) := by
  rw [commandResult, h]; rfl

/-- R150: every fault of AR.HDR is raised in the state it began in. -/
theorem commandResult_arHdr_of_error {s : State} {e : Exc} (h : arHdrChecks s = .error e) :
    commandResult .arHdr s = .raised e s := by
  rw [commandResult, h]; rfl

/-- A number read from `n` bytes is held whole by a register of `8 * n` bits. -/
theorem assemble_ofNat_toNat (m : Memory) (a : Nat) {n w : Nat} (hw : 256 ^ n = 2 ^ w) :
    (BitVec.ofNat w (m.assemble a n)).toNat = m.assemble a n := by
  rw [BitVec.toNat_ofNat, Nat.mod_eq_of_lt (hw ▸ assemble_lt m n a)]

/-- Settles O45: the fields fit by their byte counts, the quotient because the dividend does, and
the data offset because it lies inside WAV (R149). -/
theorem arHdrLoadsRegisters : Obligations.ArHdrLoadsRegisters := by
  intro s le hmagic hlen hdata hframe
  have hchecks := arHdrChecks_of_inside hmagic hlen hdata
  rw [if_pos hframe] at hchecks
  have hsize : le (le 16 4 + 24) 4 < 2 ^ 32 := assemble_lt s.wav 4 _
  have hquot : le (le 16 4 + 24) 4 / le 32 2 < 2 ^ 32 :=
    (Nat.div_le_self _ _).trans_lt hsize
  have hoff : le 16 4 + 28 < 2 ^ 32 := hdata.trans_lt s.wav.len.isLt
  exact ⟨_, exec_of_done (commandResult_arHdr_of_ok hchecks),
    congrArg some (assemble_ofNat_toNat s.wav 22 rfl),
    congrArg some (assemble_ofNat_toNat s.wav 34 rfl),
    congrArg some (assemble_ofNat_toNat s.wav 32 rfl),
    congrArg some (assemble_ofNat_toNat s.wav 24 rfl),
    congrArg some (Nat.mod_eq_of_lt hquot), congrArg some (Nat.mod_eq_of_lt hoff), rfl,
    InputsKept.sameMemories ⟨rfl, rfl, rfl, rfl⟩⟩

/-- A check of AR.HDR that fails leaves the state to fault entry. -/
theorem exec_arHdr_faultedOnly {s : State} {e : Exc} {info : Nat}
    (h : arHdrChecks s = .error e) (hinfo : e.info = BitVec.ofNat 32 info) :
    ∃ t, exec .arHdr s = .next t ∧ FaultedOnly s t e.cause info :=
  exec_faultedOnly_of_raised (commandResult_arHdr_of_error h) hinfo

/-- Settles O46: the length of WAV says which read is the first outside it. -/
theorem arHdrFaultsInOrder : Obligations.ArHdrFaultsInOrder := by
  intro s n cs ends
  refine ⟨fun hno => exec_arHdr_faultedOnly (arHdrChecks_of_not_magic hno) rfl, fun hmagic => ?_⟩
  have hchecks := arHdrChecks_of_magic hmagic
  have outside {a : Nat} (h : arHdrChecks s = .error (srcBoundsWav a)) : ends .srcBounds a :=
    exec_arHdr_faultedOnly h rfl
  refine ⟨fun h => outside ?_, fun _ h => outside ?_, fun _ h => outside ?_,
    fun _ h => outside ?_, fun _ h => outside ?_,
    fun _ h => outside (a := s.wav.assemble 16 4 + 24) ?_, fun hlen hdata h0 => ?_⟩
  case refine_7 =>
    have hzero := arHdrChecks_of_inside hmagic hlen hdata
    rw [if_neg (not_not_intro h0)] at hzero
    exact exec_arHdr_faultedOnly hzero rfl
  all_goals
    simp (disch := omega) only [hchecks, memRead_inside, memRead_outside, except_ok_bind,
      except_error_bind]

/-- Settles O47: AR.HDR that loads a header does not set FAULT, so a check has failed. -/
theorem arHdrAllOrNothing : Obligations.ArHdrAllOrNothing := by
  intro s t hfault ht hhalt
  rw [exec_eq_outcome] at ht
  cases hchecks : arHdrChecks s with
  | ok q =>
    rw [commandResult_arHdr_of_ok hchecks] at ht
    obtain rfl := Host.Outcome.next.inj ht
    exact absurd (hhalt.symm.trans hfault) (by decide)
  | error e =>
    rw [commandResult_arHdr_of_error hchecks] at ht
    obtain rfl := Host.Outcome.next.inj ht
    exact ⟨rfl, rfl⟩

end Sys2Proof.Machine
end

section
/-! SUPPORT. AR.RUN: its up-front checks and faults, and its walk over the frames on all three paths,
where it ends and where it stops. -/

namespace Sys2Proof.Machine

/-! ### The up-front faults (R151, R152) -/

/-- The reads and checks of AR.RUN, once no array is open. -/
theorem arRunChecks_of_idle {s : State} (h : s.hf.state = .idle) :
    arRunChecks s = (do
      let ch ← needReg .audChannels s.p.audChannels
      let bits ← needReg .audBits s.p.audBits
      let fr ← needReg .audFrame s.p.audFrame
      let n ← needReg .audNsamp s.p.audNsamp
      let off ← needReg .audDataoff s.p.audDataoff
      let mode ← needReg .audMode s.p.audMode
      let c ← needReg .fmtCols s.p.fmtCols
      check (decide (bits = 8 ∨ bits = 16)) (unsupportedDepth bits)
      check (decide (ch ≠ 0)) (divideByZero .audChannels)
      check (decide (arCount (arTen bits mode) n.toNat ≠ 0)) zeroCount
      check (decide (arCount (arTen bits mode) n.toNat < 2 ^ 32)) countOverflow
      return ⟨ch, bits, fr, n, off, mode, c, arCount (arTen bits mode) n.toNat⟩) := by
  rw [arRunChecks, needIdle_of_idle h]; rfl

theorem arCount_zero (ten : Bool) : arCount ten 0 = 0 := by
  cases ten <;> rfl

/-- R152: the bound of CountOverflow. -/
theorem arCount_ten_overflow {n : Nat} (h : 3435973836 < n) : 2 ^ 32 ≤ arCount true n := by
  rw [arCount, if_pos rfl]
  unfold ceilDiv
  omega

theorem check_of_pos {p : Prop} [Decidable p] (h : p) (e : Exc) : check (decide p) e = .ok () := by
  rw [decide_eq_true h, check_true]

theorem check_of_neg {p : Prop} [Decidable p] (h : ¬ p) (e : Exc) :
    check (decide p) e = .error e := by
  rw [decide_eq_false h, check_false]

/-- A check of AR.RUN that fails leaves the state to fault entry. -/
theorem exec_arRun_faultedOnly {s : State} {e : Exc} {info : Nat}
    (h : arRunChecks s = .error e) (hinfo : e.info = BitVec.ofNat 32 info) :
    ∃ t, exec .arRun s = .next t ∧ FaultedOnly s t e.cause info :=
  exec_faultedOnly_of_raised (by rw [commandResult, h]; rfl) hinfo

/-- Settles O48: with each further register written, the next check is the one that fails. -/
theorem arRunFaultsInOrder : Obligations.ArRunFaultsInOrder := by
  intro s ends
  refine ⟨fun ho => ⟨_, exec_of_opened ho (.inr (.inr (.inr rfl))), rfl⟩, fun hidle => ?_⟩
  have hchecks := arRunChecks_of_idle hidle
  have unwritten {r : ParamReg} (h : arRunChecks s = .error (unconfigured r)) :
      ends .unconfigured (paramIndex r).toNat := exec_arRun_faultedOnly h (unconfigured_info r)
  refine ⟨fun h => unwritten (r := .audChannels) (by simp [hchecks, h]), fun ch hch => ?_⟩
  refine ⟨fun h => unwritten (r := .audBits) (by simp [hchecks, hch, h]), fun bits hbits => ?_⟩
  refine ⟨fun h => unwritten (r := .audFrame) (by simp [hchecks, hch, hbits, h]),
    fun fr hfr => ?_⟩
  refine ⟨fun h => unwritten (r := .audNsamp) (by simp [hchecks, hch, hbits, hfr, h]),
    fun n hn => ?_⟩
  refine ⟨fun h => unwritten (r := .audDataoff) (by simp [hchecks, hch, hbits, hfr, hn, h]),
    fun off hoff => ?_⟩
  refine ⟨fun h => unwritten (r := .audMode) (by simp [hchecks, hch, hbits, hfr, hn, hoff, h]),
    fun mode hmode => ?_⟩
  refine ⟨fun h => unwritten (r := .fmtCols)
    (by simp [hchecks, hch, hbits, hfr, hn, hoff, hmode, h]), fun c hc => ?_⟩
  simp only [hch, hbits, hfr, hn, hoff, hmode, hc, needReg_some, except_ok_bind] at hchecks
  refine ⟨fun h8 h16 => ?_, fun hdepth => ⟨fun h0 => ?_, fun h0 => ⟨fun hn0 => ?_, ?_⟩⟩⟩
  · have hfail : arRunChecks s = .error (unsupportedDepth bits) := by
      rw [hchecks, check_of_neg (not_or.mpr ⟨h8, h16⟩), except_error_bind]
    exact exec_arRun_faultedOnly hfail (BitVec.ofNat_toNat 32 bits).symm
  · rw [check_of_pos hdepth, except_ok_bind, check_of_neg (not_not_intro h0),
      except_error_bind] at hchecks
    exact exec_arRun_faultedOnly hchecks rfl
  · have hzero : arCount (arTen bits mode) n.toNat = 0 := by rw [hn0]; exact arCount_zero _
    rw [check_of_pos hdepth, except_ok_bind, check_of_pos h0, except_ok_bind,
      check_of_neg (not_not_intro hzero), except_error_bind] at hchecks
    exact exec_arRun_faultedOnly hchecks rfl
  · rintro rfl rfl hlarge
    have hover : 2 ^ 32 ≤ arCount (arTen 16 10) n.toNat := arCount_ten_overflow hlarge
    rw [check_of_pos hdepth, except_ok_bind, check_of_pos h0, except_ok_bind,
      check_of_pos (by omega), except_ok_bind, check_of_neg (Nat.not_lt.mpr hover),
      except_error_bind] at hchecks
    exact exec_arRun_faultedOnly hchecks rfl

/-! ### The element count (R158) -/

/-- The elements written before frame `i`: one a frame, or the full groups on the 10-bit path. -/
def arBefore (m : Memory) (q : AudioArgs) (i : Nat) : List Nat :=
  if arTen q.bits q.mode then arGroupElements m q (i / 4) else arByteElements m q i

theorem arBefore_zero (m : Memory) (q : AudioArgs) : arBefore m q 0 = [] := by
  unfold arBefore; split <;> rfl

theorem arElements_length (m : Memory) (q : AudioArgs) :
    (arElements m q).length = arCount (arTen q.bits q.mode) q.n.toNat := by
  unfold arElements arCount
  split
  · exact arGroupElements_length ..
  · exact arByteElements_length ..

/-- While a frame is missing, so is an element. -/
theorem arBefore_length_lt (m : Memory) {q : AudioArgs} {i : Nat} (hi : i < q.n.toNat) :
    (arBefore m q i).length < arCount (arTen q.bits q.mode) q.n.toNat := by
  have hgroup := div_four_lt_ceilDiv hi
  unfold arBefore arCount
  split
  · rw [arGroupElements_length]; omega
  · rwa [arByteElements_length]

/-! ### Frames of a walk -/

theorem ArFrame.setAr {s u : State} (F : ArFrame s u) (a : Reducer) : ArFrame s (u.setAr a) := by
  unfold ArFrame at F ⊢
  rw [F]; rfl

/-- Completion of a walk changes OUT, HF, FMTOPEN, AR and `cp` only. -/
theorem ArFrame.advance {s u : State} {b : Bool} (F : ArFrame s u) (hb : u.fmtOpen = b) :
    u.advance =
      { s with out := u.out, hf := u.hf, ar := u.ar, fmtOpen := b, cp := s.cp + 1 } := by
  rw [← hb]; exact congrArg State.advance F

theorem ArFrame.currentWord {s u : State} (F : ArFrame s u) : u.currentWord = s.currentWord := by
  rw [F]; rfl

/-- Fault entry from a walk changes OUT, HF, FMTOPEN, AR and the fault registers only (R192). -/
theorem ArFrame.takeFault {s u : State} {b : Bool} (F : ArFrame s u) (hb : u.fmtOpen = b)
    (e : Exc) :
    u.takeFault e =
      { s with out := u.out, hf := u.hf, ar := u.ar, fmtOpen := b, fault := true,
               cause := causeCode e.cause, finfo := e.info, fcmd := u.currentWord } := by
  rw [← hb, F.currentWord]; exact congrArg (State.takeFault · e) F

theorem ArFrame.inputsKept {s u : State} (F : ArFrame s u) : InputsKept s u := by
  rw [F]; exact ⟨rfl, rfl, rfl, rfl⟩

/-! ### The walk over the frames -/

/-- The state the frames start from: the array opened and the group cleared (R151). -/
def arOpened (q : AudioArgs) (s : State) : State :=
  arClearGroup (hfOpen (BitVec.ofNat 32 q.cnt) q.cols Config.digitsOfByteCell s)

/-- The operands pass every check of AR.RUN, which then opens its array, walks the frames and writes
the partial group. -/
theorem AudioOperands.commandResult_arRun {s : State} {q : AudioArgs} (H : AudioOperands s q) :
    commandResult .arRun s =
      (forRange (arFrame q) q.n.toNat 0 (arOpened q s)).andThen (arTail q) := by
  obtain ⟨hidle, hch, hbits, hframe, hn, hoff, hmode, hcols, -, hchecked⟩ := H
  have hok : arRunChecks s = .ok q :=
    arRunChecks_ok_iff.mpr ⟨hidle, hch, hbits, hframe, hn, hoff, hmode, hcols, hchecked⟩
  rw [commandResult, hok]; rfl

theorem AudioOperands.cnt_eq {s : State} {q : AudioArgs} (H : AudioOperands s q) :
    q.cnt = arCount (arTen q.bits q.mode) q.n.toNat := by
  obtain ⟨-, -, -, -, -, -, -, -, -, -, -, hcnt, -⟩ := H
  exact hcnt

/-- AR.K and AR.G before frame `i` on the 10-bit path (R162). -/
def GroupAt (m : Memory) (q : AudioArgs) (i : Nat) (a : Reducer) : Prop :=
  a.k.toNat = i % 4 ∧ a.g = groupAfter m q (i / 4) (i % 4)

/-- Where AR stands before frame `i`, on each path. -/
structure ArRunAt (s0 : State) (q : AudioArgs) (i : Nat) (s : State) : Prop where
  written : Written s0.out q.cnt q.cols.toNat 2 (arBefore s0.wav q i) s
  frame : ArFrame s0 s
  group : arTen q.bits q.mode = true → GroupAt s0.wav q i s.ar

/-- Where the first missing sample, channel `c` of frame `i`, leaves AR. -/
structure ArStoppedAt (s0 : State) (q : AudioArgs) (i c : Nat) (e : Exc) (s : State) : Prop where
  fault : e = srcBoundsWav (arAddress q i c)
  written : Written s0.out q.cnt q.cols.toNat 2 (arBefore s0.wav q i) s
  frame : ArFrame s0 s

/-- The opened array stands before frame 0 (R151). -/
theorem ArRunAt.start {s : State} {q : AudioArgs} (H : AudioOperands s q) :
    ArRunAt s q 0 (arOpened q s) := by
  obtain ⟨-, -, -, -, -, -, -, -, hcols, -, -, -, hcnt, hlt⟩ := H
  have hopen := written_open (d := Config.digitsOfByteCell) s (ofNat_word_ne_zero hcnt hlt) hcols
  rw [BitVec.toNat_ofNat, Nat.mod_eq_of_lt hlt, ← arBefore_zero s.wav q] at hopen
  exact ⟨hopen.congr rfl rfl rfl, rfl, fun _ => ⟨rfl, rfl⟩⟩

/-- A frame that WAV holds (`arFrame_ten` and `arFrame_byte`). -/
theorem ArRunAt.step {s0 s : State} {q : AudioArgs} {i : Nat} (H : ArRunAt s0 q i s)
    (hcnt : q.cnt = arCount (arTen q.bits q.mode) q.n.toNat) (hi : i < q.n.toNat)
    (hp : ∀ c, c < q.ch.toNat → SamplePresent s0.wav q i c) :
    ∃ u, arFrame q i s = .done u ∧ ArRunAt s0 q (i + 1) u := by
  obtain ⟨hwritten, hframe, hgroup⟩ := H
  cases hten : arTen q.bits q.mode with
  | true =>
    obtain ⟨hk, hg⟩ := hgroup hten
    simp only [arBefore, arCount, hten, if_true] at hwritten hcnt
    obtain ⟨u, hu, hw, hf, hk', hg'⟩ := arFrame_ten hten hi hcnt hp ⟨hwritten, hframe, hk, hg⟩
    exact ⟨u, hu, by simpa only [arBefore, hten, if_true] using hw, hf, fun _ => ⟨hk', hg'⟩⟩
  | false =>
    simp only [arBefore, arCount, hten, Bool.false_eq_true, if_false] at hwritten hcnt
    obtain ⟨u, hu, hw, hf⟩ :=
      arFrame_byte hten (hi.trans q.n.isLt) (hcnt ▸ hi) hp hwritten hframe
    exact ⟨u, hu, by simpa only [arBefore, hten, Bool.false_eq_true, if_false] using hw, hf,
      fun h => absurd (hten.symm.trans h) (by decide)⟩

/-- A frame of which WAV lacks channel `c0` first: nothing of it is written, and it raises SrcBounds
(R151, R191). -/
theorem ArRunAt.step_missing {s0 s : State} {q : AudioArgs} {i c0 : Nat} (H : ArRunAt s0 q i s)
    (hi : i < q.n.toNat) (hc0 : c0 < q.ch.toNat) (hmiss : ¬ SamplePresent s0.wav q i c0)
    (hp : ∀ c, c < c0 → SamplePresent s0.wav q i c) :
    ∃ e u, arFrame q i s = .raised e u ∧ ArStoppedAt s0 q i c0 e u := by
  obtain ⟨u, hu, hsum, hframe⟩ := arFrame_missing (hi.trans q.n.isLt) hc0 hmiss hp H.frame
  exact ⟨_, u, hu, rfl, hsum.written H.written, hframe⟩

/-! ### The end of the walk (R164) -/

theorem arTail_of_no_group {q : AudioArgs} {s : State}
    (h : arTen q.bits q.mode = true → s.ar.k = 0) : arTail q s = .done s :=
  if_neg fun hpartial => hpartial.2 (h hpartial.1)

/-- The partial group with its top-bits byte shifted to the full-group positions. -/
def arAligned (s : State) : State :=
  s.setAr { s.ar with g := { s.ar.g with g0 := partialShift .left s.ar.k.toNat s.ar.g.g0 } }

theorem arTail_of_partial {q : AudioArgs} {s : State} (hten : arTen q.bits q.mode = true)
    (hk : s.ar.k ≠ 0) : arTail q s = arFlush (arAligned s) :=
  if_pos ⟨hten, hk⟩

/-- After the last frame a partial group, if there is one, is aligned and written, and with it all
elements are there. -/
theorem ArRunAt.tail {s0 s : State} {q : AudioArgs} (H : ArRunAt s0 q q.n.toNat s)
    (hcnt : q.cnt = arCount (arTen q.bits q.mode) q.n.toNat) :
    ∃ u, arTail q s = .done u ∧
      Written s0.out q.cnt q.cols.toNat 2 (arElements s0.wav q) u ∧ ArFrame s0 u := by
  obtain ⟨hwritten, hframe, hgroup⟩ := H
  cases hten : arTen q.bits q.mode with
  | false =>
    have hall : arBefore s0.wav q q.n.toNat = arElements s0.wav q := by
      simp only [arBefore, arElements, hten, Bool.false_eq_true, if_false]
    exact ⟨s, arTail_of_no_group fun h => absurd (hten.symm.trans h) (by decide),
      hall ▸ hwritten, hframe⟩
  | true =>
    obtain ⟨hk, hg⟩ := hgroup hten
    simp only [arBefore, arElements, arCount, hten, if_true] at hwritten hcnt ⊢
    by_cases h0 : q.n.toNat % 4 = 0
    · have hgroups : q.n.toNat / 4 = ceilDiv q.n.toNat 4 := by unfold ceilDiv; omega
      exact ⟨s, arTail_of_no_group fun _ => BitVec.eq_of_toNat_eq (hk.trans h0),
        hgroups ▸ hwritten, hframe⟩
    · have hgroups : ceilDiv q.n.toNat 4 = q.n.toNat / 4 + 1 := by unfold ceilDiv; omega
      have hne : s.ar.k ≠ 0 := fun h => h0 (hk.symm.trans (congrArg BitVec.toNat h))
      have hzero (i : Nat) (hi : 4 * (q.n.toNat / 4) + q.n.toNat % 4 ≤ i) :
          arV s0.wav q i = 0 := if_neg (by omega)
      have hbytes := groupAfter_partial (by omega) (by omega) hzero
      rw [← hg, ← hk] at hbytes
      rw [hgroups, arGroupElements_succ, arTail_of_partial hten hne]
      obtain ⟨u, hu, hw, hf, -⟩ := arFlush_spec (s := arAligned s)
        (hwritten.congr rfl rfl rfl) (hframe.setAr _) (by rw [arGroupElements_length]; omega) hbytes
      exact ⟨u, hu, hw, hf⟩

/-! ### AR.RUN -/

/-- AR.RUN over samples WAV holds, by induction over the frames (`ArRunAt.step`). -/
theorem AudioOperands.arRun_done {s : State} {q : AudioArgs} (H : AudioOperands s q)
    (hp : ∀ i c, i < q.n.toNat → c < q.ch.toNat → SamplePresent s.wav q i c) :
    ∃ u, commandResult .arRun s = .done u ∧ u.out = s.out ++ arrayText q.cols.toNat 2
        (arElements s.wav q) ∧ u.hf.state = .idle ∧ u.fmtOpen = false ∧ ArFrame s u := by
  obtain ⟨t, ht, Ht⟩ := forRange_done (ArRunAt s q) (n := q.n.toNat) (ArRunAt.start H)
    fun i v _ hi Hv => Hv.step H.cnt_eq (by omega) fun c => hp i c (by omega)
  rw [Nat.zero_add] at Ht
  obtain ⟨u, hu, hwritten, hframe⟩ := Ht.tail H.cnt_eq
  obtain ⟨hidle, hflag, hout⟩ := hwritten.closed ((arElements_length ..).trans H.cnt_eq.symm)
  exact ⟨u, by rw [H.commandResult_arRun, ht, Result.andThen_done, hu], hout, hidle, hflag,
    hframe⟩

/-- Settles O49: off the 10-bit path the elements are one a frame (`AudioOperands.arRun_done`). -/
theorem arRunReducesToBytes : Obligations.ArRunReducesToBytes := by
  intro s q hops hten hp
  obtain ⟨u, hu, hout, hidle, hflag, hframe⟩ := hops.arRun_done hp
  have helements : arElements s.wav q = arByteElements s.wav q q.n.toNat := by
    rw [arElements, hten]; rfl
  exact ⟨u.advance, exec_of_done hu, helements ▸ hout, fun i _ => arD_le i, hidle, hflag,
    hframe.advance hflag, hframe.inputsKept.sameMemories⟩

/-- Settles O50: on the 10-bit path the elements are those of the groups
(`AudioOperands.arRun_done`). -/
theorem arRunPacksTenBitGroups : Obligations.ArRunPacksTenBitGroups := by
  intro s q hops hten hp
  obtain ⟨u, hu, hout, hidle, hflag, hframe⟩ := hops.arRun_done hp
  have helements : arElements s.wav q = arGroupElements s.wav q (ceilDiv q.n.toNat 4) := by
    rw [arElements, hten]; rfl
  have hlen := (arElements_length s.wav q).trans hops.cnt_eq.symm
  exact ⟨u.advance, exec_of_done hu, helements ▸ hout, helements ▸ hlen, arV_le, hidle, hflag,
    hframe.advance hflag, hframe.inputsKept.sameMemories⟩

/-- Settles O51: the frames before are complete (`ArRunAt.step`), frame `i0` stops at channel `c0`
(`ArRunAt.step_missing`), and elements are missing, so the array is open. -/
theorem arRunStopsAtMissingSample : Obligations.ArRunStopsAtMissingSample := by
  intro s q i0 c0 hops hi0 hc0 hmiss hp
  obtain ⟨e, u, hu, rfl, hwritten, hframe⟩ := forRange_raised
    (ArRunAt s q) (ArStoppedAt s q i0 c0) hi0 (ArRunAt.start hops)
    (fun i t _ hi Ht => Ht.step hops.cnt_eq (by omega) fun c hc => hp i c hc (.inl (by omega)))
    (fun t Ht => by
      rw [Nat.zero_add] at Ht ⊢
      exact Ht.step_missing hi0 hc0 hmiss fun c hc => hp i0 c (hc.trans hc0) (.inr ⟨rfl, hc⟩))
  obtain ⟨⟨hopen, _⟩, hflag, hout⟩ :=
    hwritten.opened ((arBefore_length_lt s.wav hi0).trans_eq hops.cnt_eq.symm)
  have hraised : commandResult .arRun s = .raised (srcBoundsWav (arAddress q i0 c0)) u := by
    rw [hops.commandResult_arRun, hu, Result.andThen_raised]
  exact ⟨u.takeFault (srcBoundsWav (arAddress q i0 c0)), exec_of_raised hraised, rfl, rfl,
    BitVec.toNat_ofNat .., hframe.currentWord, hflag, hopen, hout, hframe.takeFault hflag _,
    hframe.inputsKept.sameMemories⟩

end Sys2Proof.Machine
end

section
/-! SUPPORT. The faults of the block: the codes of the causes, the fault of a word that does not
decode, of an illegal SETP, and what a fault of a RUN command can be, told from where each walk
stops. -/

namespace Sys2Proof.Machine

/-! ### The causes and IllegalCommand (R180, R181) -/

/-- Settles O11, cause by cause. -/
theorem causeCodes : Obligations.CauseCodes := by
  refine ⟨rfl, rfl, rfl, rfl, rfl, rfl, rfl, rfl, rfl, rfl, rfl, fun c => ?_⟩
  cases c <;> decide

/-- Settles O10: the step is fault entry (`step_of_illegal`), and the word at `cp` is `w`. -/
theorem illegalWordTakesFaultEntry : Obligations.IllegalWordTakesFaultEntry := by
  intro s w hf hw hillegal
  cases hd : decode w with
  | ok i => exact absurd hd (hillegal i)
  | error d =>
    have hinfo : (illegalCommand w).info = BitVec.ofNat 32 w.toNat := word_eq_ofNat rfl
    have hword : s.currentWord = w := by rw [State.currentWord, hw, Option.getD_some]
    exact ⟨_, step_of_illegal hf hw hd, faultedOnly_takeFault s hinfo, rfl, rfl, hword⟩

/-! ### SETP of an illegal value (R182) -/

theorem cfgRange_info (r : ParamReg) :
    (cfgRange r).info = BitVec.ofNat 32 (paramIndex r).toNat :=
  unconfigured_info r

theorem commandResult_setp_of_illegal (s : State) {r : ParamReg} {imm : Imm}
    (hl : ¬ cfgLegal r imm = true) :
    commandResult (.setp (paramIndex r) imm) s = .raised (cfgRange r) s := by
  have ht : setpTarget (paramIndex r) imm s = .error (cfgRange r) := by simp [setpTarget, hl]
  rw [commandResult, ht]; rfl

/-- Settles O26: the checks of SETP refuse what R12's column leaves out (`setpLegal_iff_cfgLegal`),
before anything is written. -/
theorem setpRefusesIllegalValue : Obligations.SetpRefusesIllegalValue := by
  intro s p imm hp hillegal
  obtain ⟨r, rfl⟩ := exists_paramIndex_eq hp
  have hl : ¬ cfgLegal r imm = true := fun h => hillegal ((setpLegal_iff_cfgLegal r imm).mpr h)
  exact exec_faultedOnly_of_raised (commandResult_setp_of_illegal s hl) (cfgRange_info r)

/-! ### The first missing position of a walk -/

/-- Position `j0` of line `i0` is the first, in the order of a walk over `n` lines of `m` positions,
that the memory does not hold. -/
def FirstMissing (P : Nat → Nat → Prop) (n m i0 j0 : Nat) : Prop :=
  i0 < n ∧ j0 < m ∧ ¬ P i0 j0 ∧ ∀ i j, j < m → (i < i0 ∨ (i = i0 ∧ j < j0)) → P i j

/-- The memory holds every position of a walk, or there is a first one that it does not hold. -/
theorem all_present_or_firstMissing (P : Nat → Nat → Prop) (n m : Nat) :
    (∀ i j, i < n → j < m → P i j) ∨ ∃ i0 j0, FirstMissing P n m i0 j0 := by
  classical
  by_cases hline : ∃ i, i < n ∧ ∃ j, j < m ∧ ¬ P i j
  · obtain ⟨hi0, hposition⟩ := Nat.find_spec hline
    obtain ⟨hj0, hmiss⟩ := Nat.find_spec hposition
    refine .inr ⟨_, _, hi0, hj0, hmiss, fun i j hj hbefore => by_contra fun hnot => ?_⟩
    rcases hbefore with hi | ⟨rfl, hlt⟩
    · exact Nat.find_min hline hi ⟨hi.trans hi0, j, hj, hnot⟩
    · exact Nat.find_min hposition hlt ⟨hj, hnot⟩
  · exact .inl fun i j hi hj => by_contra fun hnot => hline ⟨i, hi, j, hj, hnot⟩

/-- A command that completes when every position of its walk is present, and faults SrcBounds at the
first that is missing, raises nothing but SrcBounds. -/
theorem raised_srcBounds_of_walk {i : Instr} {s u : State} {e : Exc} (P : Nat → Nat → Prop)
    (n m : Nat) (hf : s.fault = false) (hraised : commandResult i s = .raised e u)
    (hpresent : (∀ i j, i < n → j < m → P i j) → ∃ t, exec i s = .next t ∧ t.fault = s.fault)
    (hmissing : ∀ i0 j0, FirstMissing P n m i0 j0 → ∃ t, exec i s = .next t ∧ t.cause = 11) :
    causeCode e.cause = 11 := by
  have hnext {t : State} (ht : exec i s = .next t) : u.takeFault e = t :=
    Host.Outcome.next.inj ((exec_of_raised hraised).symm.trans ht)
  rcases all_present_or_firstMissing P n m with hall | ⟨i0, j0, hfirst⟩
  · obtain ⟨t, ht, hkept⟩ := hpresent hall
    rw [hf, ← hnext ht] at hkept
    exact absurd hkept (by simp)
  · obtain ⟨t, ht, hcause⟩ := hmissing i0 j0 hfirst
    rwa [← hnext ht] at hcause

/-! ### The walks raise SrcBounds alone (R120, R139, R168) -/

/-- R120, over the rows of PIXM. -/
theorem ImageOperands.bpRun_raised {s u : State} {w h c : Half} {e : Exc}
    (H : ImageOperands s w h c) (hf : s.fault = false)
    (hraised : commandResult .bpRun s = .raised e u) : causeCode e.cause = 11 := by
  refine raised_srcBounds_of_walk (fun y x => (s.pixm.at? x y).isSome = true) h.toNat w.toNat hf
    hraised (fun hall => ?_) fun y0 x0 hfirst => ?_
  · obtain ⟨t, ht, -, -, -, -, hframe, -⟩ :=
      bpRunPacksImage s w h c H fun x y hx hy => hall y x hy hx
    exact ⟨t, ht, (congrArg State.fault hframe).trans rfl⟩
  · obtain ⟨hy0, hx0, hmiss, hbefore⟩ := hfirst
    obtain ⟨t, ht, -, hcause, -⟩ := bpRunStopsAtMissingPixel s w h c x0 y0 H hx0 hy0
      (Option.not_isSome_iff_eq_none.mp hmiss) fun x y => hbefore y x
    exact ⟨t, ht, hcause⟩

/-- R139, over the columns of PIXC. -/
theorem ImageOperands.cqRun_raised {s u : State} {w h c : Half} {e : Exc}
    (H : ImageOperands s w h c) (hf : s.fault = false)
    (hraised : commandResult .cqRun s = .raised e u) : causeCode e.cause = 11 := by
  refine raised_srcBounds_of_walk (fun x y => (s.pixc.at? x y).isSome = true) w.toNat h.toNat hf
    hraised (fun hall => ?_) fun x0 y0 hfirst => ?_
  · obtain ⟨t, ht, -, -, -, -, -, hframe, -⟩ := cqRunQuantizesImage s w h c H hall
    exact ⟨t, ht, (congrArg State.fault hframe).trans rfl⟩
  · obtain ⟨hx0, hy0, hmiss, hbefore⟩ := hfirst
    obtain ⟨t, ht, -, hcause, -⟩ := cqRunStopsAtMissingPixel s w h c x0 y0 H hx0 hy0
      (Option.not_isSome_iff_eq_none.mp hmiss) hbefore
    exact ⟨t, ht, hcause⟩

/-- R168, over the frames of WAV, on every path. -/
theorem AudioOperands.arRun_raised {s u : State} {q : AudioArgs} {e : Exc}
    (H : AudioOperands s q) (hf : s.fault = false)
    (hraised : commandResult .arRun s = .raised e u) : causeCode e.cause = 11 := by
  refine raised_srcBounds_of_walk (SamplePresent s.wav q) q.n.toNat q.ch.toNat hf hraised
    (fun hall => ?_) fun i0 c0 hfirst => ?_
  · obtain ⟨v, hv, -, -, -, hframe⟩ := H.arRun_done hall
    exact ⟨v.advance, exec_of_done hv, (congrArg State.fault (hframe.advance rfl)).trans rfl⟩
  · obtain ⟨hi0, hc0, hmiss, hbefore⟩ := hfirst
    obtain ⟨t, ht, -, hcause, -⟩ := arRunStopsAtMissingSample s q i0 c0 H hi0 hc0 hmiss hbefore
    exact ⟨t, ht, hcause⟩

/-! ### Faults that leave no trace (R192) -/

/-- A command with up-front checks raises in the state it began in, or in its body. -/
theorem checkedResult_raised {α : Type} {c : Checked α} {k : α → State → Result} {s u : State}
    {e : Exc} (h : checkedResult c k s = .raised e u) :
    u = s ∨ ∃ a, c = .ok a ∧ k a s = .raised e u := by
  cases c with
  | error e' => cases h; exact .inl rfl
  | ok a => exact .inr ⟨a, rfl, h⟩

/-- A command whose body completes raises its checks' faults alone. -/
theorem checkedResult_done_raised {α : Type} {c : Checked α} {f : α → State → State} {s u : State}
    {e : Exc} (h : checkedResult c (fun a s => .done (f a s)) s = .raised e u) : u = s := by
  rcases checkedResult_raised h with rfl | ⟨_, _, hbody⟩
  · rfl
  · cases hbody

/-- Checks of BP.RUN and CQ.RUN that pass give legal operands where FMT_COLS is legal. -/
theorem imageOperands_of_checks {count : Nat → Nat → Nat} {s : State} {q : ImageArgs}
    (hzero : ∀ {w h}, count w h = 0 ↔ w = 0 ∨ h = 0) (hp : ParamsLegal s.p)
    (hq : imageChecks count s = .ok q) : ImageOperands s q.w q.h q.cols := by
  obtain ⟨hidle, hw, hh, hc, hn, hn0⟩ := imageChecks_ok_iff.mp hq
  rw [hn, Ne, hzero, not_or] at hn0
  obtain ⟨hw0, hh0⟩ := hn0
  obtain ⟨hcols, -⟩ := hp
  exact ⟨hidle, hw, hh, hc, hcols _ hc, BitVec.toNat_ne_iff_ne.mp hw0,
    BitVec.toNat_ne_iff_ne.mp hh0⟩

/-- Checks of AR.RUN that pass give legal operands where FMT_COLS is legal. -/
theorem audioOperands_of_checks {s : State} {q : AudioArgs} (hp : ParamsLegal s.p)
    (hq : arRunChecks s = .ok q) : AudioOperands s q := by
  obtain ⟨hidle, hch, hbits, hframe, hn, hoff, hmode, hc, hchecked⟩ := arRunChecks_ok_iff.mp hq
  obtain ⟨hcols, -⟩ := hp
  exact ⟨hidle, hch, hbits, hframe, hn, hoff, hmode, hc, hcols _ hc, hchecked⟩

/-- A command raises its fault in the state it began in, unless the fault is SrcBounds. -/
theorem commandResult_raised {i : Instr} {s u : State} {e : Exc} (hp : ParamsLegal s.p)
    (hf : s.fault = false) (h : commandResult i s = .raised e u) :
    u = s ∨ causeCode e.cause = 11 := by
  cases i with
  | setp | getp | fmtOpen | arHdr =>
    rw [commandResult] at h
    exact .inl (checkedResult_done_raised h)
  | fmtWrite v =>
    rcases hfWrite_cases v s with ⟨-, hw⟩ | ⟨-, -, hw⟩ | ⟨-, -, hw⟩ <;>
      cases hw.symm.trans h <;> exact .inl rfl
  | bpRun =>
    refine (checkedResult_raised h).imp_right fun ⟨q, hq, _⟩ => ?_
    exact (imageOperands_of_checks bpCount_eq_zero_iff hp hq).bpRun_raised hf h
  | cqRun =>
    refine (checkedResult_raised h).imp_right fun ⟨q, hq, _⟩ => ?_
    exact (imageOperands_of_checks cqCount_eq_zero_iff hp hq).cqRun_raised hf h
  | arRun =>
    refine (checkedResult_raised h).imp_right fun ⟨q, hq, _⟩ => ?_
    exact (audioOperands_of_checks hp hq).arRun_raised hf h

/-- Settles O14: a command that completes leaves FAULT 0, and one that raises another fault than
SrcBounds raises it in the state it began in (`commandResult_raised`). -/
theorem onlySrcBoundsLeavesTraces : Obligations.OnlySrcBoundsLeavesTraces := by
  intro s t i hp hf ht hhalt hcause
  have heffect := commandResult_effect i s
  rw [exec_eq_outcome] at ht
  rcases (commandResult i s).outcome_cases with ⟨u, hr, hu⟩ | ⟨e, u, hr, hu⟩ <;>
    obtain rfl := Host.Outcome.next.inj (hu.symm.trans ht)
  · rw [hr] at heffect
    obtain ⟨hkept, -⟩ := heffect.frame.completed hf
    exact absurd (hkept.symm.trans hhalt) (by decide)
  · obtain rfl := (commandResult_raised hp hf hr).resolve_right hcause
    rfl

end Sys2Proof.Machine
end

section
/-! SUPPORT. The host's reset (spec/70_reset_and_hazards.md R200) as two operations: R26's state,
then the launch inputs the host fixes (R202). -/

namespace Sys2Proof.Machine

/-- The host's reset forgets the state but for its launch inputs (R200; log entry 5). -/
theorem State.hostReset_eq_reset_load (s : State) :
    s.hostReset = State.reset.load s.cmd s.pixm s.pixc s.wav := rfl

/-- The inputs fixed last are those of the launch (R202). -/
theorem State.load_load (s : State) (cmd cmd' : List Word) (pixm pixm' : PixMem Sample)
    (pixc pixc' : PixMem Rgb) (wav wav' : Memory) :
    (s.load cmd pixm pixc wav).load cmd' pixm' pixc' wav' = s.load cmd' pixm' pixc' wav' := rfl

/-- Reset states differ in their launch inputs alone. -/
theorem State.hostReset_eq_hostReset_load (s s' : State) :
    s.hostReset = s'.hostReset.load s.cmd s.pixm s.pixc s.wav := by
  rw [hostReset_eq_reset_load s, hostReset_eq_reset_load s', load_load]

/-- Settles O12: R26's values register by register, and nothing of another state remains once its
launch inputs are replaced (`State.hostReset_eq_hostReset_load`). -/
theorem hostResetGivesResetValues : Obligations.HostResetGivesResetValues := fun s =>
  ⟨s.hostReset_cp, s.hostReset_p, s.hostReset_fault, s.hostReset_fmtOpen, s.hostReset_cqUsed,
    s.hostReset_cause, s.hostReset_finfo, s.hostReset_fcmd, congrArg Formatter.state s.hostReset_hf,
    s.hostReset_out, s.hostReset_rsp, s.hostReset_eq_hostReset_load⟩

end Sys2Proof.Machine
end
